-- ==== Sys2Proof/Word.lean ====
section
/-!
DEFINITION. Sys2Proof/Word.lean: the bit vectors HUFFCORE's software can see, and the two values that are not words.

A register and a table window entry is a 32-bit word (10_state.md R21), a symbol and a buffer element is a byte
(00_scope.md R6), an arena index has 9 bits (R6). A code is a bit string (R11), first bit first: a list, since no rule
adds, shifts or masks it.
-/

namespace Sys2Proof

/-- A register or a table window unit: 32 bits (10_state.md R21). -/
abbrev Word := BitVec 32

/-- A symbol (SYM_W = 8) or one byte of a buffer (00_scope.md R6). -/
abbrev Byte := BitVec 8

/-- An arena index, IDX_W = 9 bits (00_scope.md R6). -/
abbrev Idx := BitVec 9

/-- A bit string (00_scope.md R11): the head is the first bit, `true` is 1. -/
abbrev Bits := List Bool

/-- The tree value T(i) of 00_scope.md R11, without arena indices; the absent tree is `none` of `Option Tree`.
Two trees are structurally equal when these values are equal. -/
inductive Tree where
  | leaf (sym : Byte) (w : Word)
  | node (w : Word) (l r : Tree)
deriving DecidableEq, Repr

end Sys2Proof
end

