-- ==== Sys2Proof/Syntax.lean ====
section
/-!
DEFINITION. Sys2Proof/Syntax.lean: the command set (30_encoding.md R101, R104), one constructor per row of
spec/opcode_table.json.

A command has no operand field (R100): its operands are the registers and memories of R102. Only the catch-all row
carries data: the word that was written, which its effect reports in ERR_INFO (R104).
-/

namespace Sys2Proof

/-- The commands of HUFFCORE command set v1.0. -/
inductive Instr where
  /-- 0x01, frequency analyzer (40_analyze.md R141). -/
  | analyze
  /-- 0x02, tree builder (41_build.md R152). -/
  | build
  /-- 0x03, code generator (42_generate.md R166). -/
  | generate
  /-- 0x04, bit packer (43_pack.md R181). -/
  | pack
  /-- 0x05, bit unpacker and tree walker (44_decode.md R197). -/
  | decode
  /-- 0x06, tree serializer (45_treecodec.md R216). -/
  | serialize
  /-- 0x07, tree deserializer (45_treecodec.md R221). -/
  | deserialize
  /-- Every other command word (30_encoding.md R104). -/
  | illegal (word : Word)
deriving DecidableEq, Repr

end Sys2Proof
end

