-- ==== Sys2Proof/WellFormed.lean ====
section
/-!
DEFINITION. Sys2Proof/WellFormed.lean: which terms of Instr are commands of the block.

The seven commands have no operand to check (30_encoding.md R100). The catch-all is a command only with a word that is
none of the seven (R104).
-/

namespace Sys2Proof

/-- The seven command words of 30_encoding.md R101. -/
def commandWords : List Word := [1, 2, 3, 4, 5, 6, 7]

/-- The check: an `illegal` holds a word that spells no command (30_encoding.md R104). -/
def Instr.wf : Instr → Bool
  | .analyze => true
  | .build => true
  | .generate => true
  | .pack => true
  | .decode => true
  | .serialize => true
  | .deserialize => true
  | .illegal w => !commandWords.contains w

end Sys2Proof
end

