-- ==== Sys2Proof/Decode.lean ====
section
/-!
DEFINITION. Sys2Proof/Decode.lean: the decoder of command words and, after it, the encoder (30_encoding.md R100 to R104).

The decoder is total on 32-bit words: a word that no row of the table matches is the command ILLEGAL of that word (R104).
There is one command length (R100), so nothing is left over and nothing is read ahead.
-/

namespace Sys2Proof

/-- One row of the command table: `word &&& mask` is compared with `pattern` (30_encoding.md R103). -/
structure OpRow where
  mask : Word
  pattern : Word
  instr : Instr
deriving DecidableEq, Repr

/-- OP = bits 7:0 and ZERO = bits 31:8 (30_encoding.md R100), laid out as one word. -/
def formatC (op : Byte) : Word := op.setWidth 32

/-- The row of opcode `op`: the whole word is compared (30_encoding.md R103). -/
def opRow (op : Byte) (i : Instr) : OpRow := { mask := 0xFFFFFFFF, pattern := formatC op, instr := i }

/-- The command table (30_encoding.md R101). -/
def opTable : List OpRow :=
  [opRow 0x01 .analyze, opRow 0x02 .build, opRow 0x03 .generate, opRow 0x04 .pack,
   opRow 0x05 .decode, opRow 0x06 .serialize, opRow 0x07 .deserialize]

/-- Does a row match a word (30_encoding.md R103)? -/
def OpRow.fits (r : OpRow) (w : Word) : Bool := w &&& r.mask == r.pattern

/-- The decoder: the first row that matches, else ILLEGAL with the word (30_encoding.md R103, R104). -/
def decode (w : Word) : Instr :=
  match opTable.find? (·.fits w) with
  | some r => r.instr
  | none => .illegal w

/-- The encoder (30_encoding.md R101): the opcode in bits 7:0, zeros above; ILLEGAL is its own word (R104). -/
def encode : Instr → Word
  | .analyze => formatC 0x01
  | .build => formatC 0x02
  | .generate => formatC 0x03
  | .pack => formatC 0x04
  | .decode => formatC 0x05
  | .serialize => formatC 0x06
  | .deserialize => formatC 0x07
  | .illegal w => w

/-- The decoder on the table's numbering of bits: a command is one 32-bit register value, so bit k of the row is bit k
of the word and no byte order enters (log 16). A number that needs more than 32 bits is no command word. -/
def decodeTableWord (nbits w : Nat) : Option Instr :=
  if nbits ≤ 32 ∧ w < 2 ^ 32 then some (decode (BitVec.ofNat 32 w)) else none

end Sys2Proof
end

