-- ==== Sys2Proof/Config.lean ====
section
/-!
DEFINITION. Sys2Proof/Config.lean: what is fixed for the block (00_scope.md R6, 10_state.md R24, R25) and the free value.

The two capacities are parameters with a default; the machine reads them from the constant registers IN_CAP and OUT_CAP
of State (log 8), so that every statement is about every capacity.
-/

namespace Sys2Proof.Config

/-- NODE_CAP: the number of arena entries (00_scope.md R6). -/
def nodeCap : Nat := 511

/-- NULL: the arena index that means "no node" (00_scope.md R6). -/
def nullIdx : Idx := 0x1FF

/-- CODE_MAX: the longest code in bits (00_scope.md R6). -/
def codeMax : Nat := 255

/-- The least capacity of either buffer: the largest serialized tree (00_scope.md R6, 30_encoding.md R119). -/
def capMin : Nat := 3834

/-- The greatest capacity of either buffer (00_scope.md R6). -/
def capMax : Nat := 2 ^ 29 - 1

/-- The default of IN_CAP and OUT_CAP (00_scope.md R6). -/
def capDefault : Word := 65536

/-- ID (10_state.md R24). -/
def idValue : Word := 0x48554646

/-- VERSION (10_state.md R25). -/
def versionValue : Word := 0x00010000

/-- The free value (93_implementation_defined.md U2, U3, U4: "any value"): word `index` of draw `draw`. It has no body,
so that nothing can be proved of a value of it (log 5). -/
opaque freeWord (draw index : Nat) : Word

/-- A free byte: the low byte of a free word (log 5). -/
def freeByte (draw index : Nat) : Byte := (freeWord draw index).setWidth 8

end Sys2Proof.Config
end

