-- ==== Sys2Proof/Machine/State.lean ====
section
/-!
DEFINITION. Sys2Proof/Machine/State.lean: the state of HUFFCORE (10_state.md R20) as plain data, what the outside can do
to it, the reasons a step can stop, and the state after reset (10_state.md R49).

ID and VERSION are constants and have no storage (log 21). An array whose tail the spec leaves unspecified is held as the
list of its specified part; what is beyond comes from the free value, through the array's `…Fill` draw (log 5, log 7).
-/

namespace Sys2Proof.Machine

/-- A byte memory: (index, byte) pairs with strictly rising indexes. An unlisted index holds no specified byte (log 6). -/
abbrev Memory := List Host.Cell

/-- One arena entry (10_state.md R39). -/
structure Node where
  leaf : Bool
  sym : Byte
  w : Word
  l : Idx
  r : Idx
deriving DecidableEq, Repr

/-- The size of a host access. A region has exactly one (20_memory.md R84); any other is refused (R78). -/
inductive Width where
  | b8
  | b16
  | b32
deriving DecidableEq, Repr

/-- One access of the host port (20_memory.md R72), at a byte offset from the block's base (R70). An 8-bit write stores
the low byte of its data (log 14). -/
inductive HostOp where
  | read (width : Width) (off : Nat)
  | write (width : Width) (off : Nat) (data : Word)
deriving DecidableEq, Repr

/-- One event of the agenda (log 2): a host access, the engine reaching the completion of the running command, or a
pulse of `rst` (70_reset_and_hazards.md R300). -/
inductive Event where
  | host (op : HostOp)
  | engine
  | reset
deriving DecidableEq, Repr

/-- The reasons for a fault. -/
inductive Fault where
  /-- Raised by GENERATE and SERIALIZE when the arena holds no tree at ROOT although ROOT is not NULL. No run reaches it:
  10_state.md R40 is an invariant (93_implementation_defined.md U14). Safe: the model stops (log 11). -/
  | malformedArena
deriving DecidableEq, Repr

/-- The reasons for a refusal. -/
inductive Refusal where
  /-- Raised by the dispatcher for an instruction that has no meaning yet. Safe: the model stops. -/
  | notModelled (mnemonic : String)
  /-- Raised by the host port for an offset outside every region (20_memory.md R78, 93_implementation_defined.md U5).
  Safe: the model stops (log 9). -/
  | unmapped (off : Nat)
  /-- Raised by the host port for an access that is not of its region's unit width (20_memory.md R78, R83). Safe (log 9). -/
  | wrongWidth (off : Nat)
  /-- Raised by the host port for a 32-bit access that is not 4-byte aligned (20_memory.md R78, R83). Safe (log 9). -/
  | misaligned (off : Nat)
deriving DecidableEq, Repr

/-- The state of the block (10_state.md R20) and, below the line, the model's own fields. -/
structure State where
  /-- CMD (10_state.md R26): the word last accepted. -/
  cmd : Word
  /-- STATUS (10_state.md R27): BUSY, DONE, ERRF in bits 0, 1, 2. -/
  status : Word
  /-- ERR (10_state.md R28). -/
  err : Word
  /-- ERR_INFO (10_state.md R29). -/
  errInfo : Word
  /-- IN_LEN (10_state.md R30). -/
  inLen : Word
  /-- NBITS (10_state.md R31). -/
  nbits : Word
  /-- OUT_LEN (10_state.md R32). -/
  outLen : Word
  /-- BIT_LEN (10_state.md R33). -/
  bitLen : Word
  /-- NSYM (10_state.md R34), bits 8:0; the others read 0. -/
  nsym : BitVec 9
  /-- ROOT (10_state.md R35), bits 8:0; the others read 0. -/
  root : Idx
  /-- NNODE (10_state.md R35), bits 9:0; the others read 0. -/
  nnode : BitVec 10
  /-- IN_CAP (10_state.md R36): the parameter, which nothing writes (log 8). -/
  inCap : Word
  /-- OUT_CAP (10_state.md R36): the parameter, which nothing writes (log 8). -/
  outCap : Word
  /-- FT_CNT (10_state.md R37). -/
  ftCnt : Vector Word 256
  /-- FT_ORD (10_state.md R37), its first NSYM entries. -/
  ftOrd : List Byte
  /-- NODE (10_state.md R39), its first NNODE entries. -/
  nodes : List Node
  /-- CT (10_state.md R41): the code bits of each symbol; LEN is their number (log 17). -/
  ct : Vector Bits 256
  /-- IN_BUF (10_state.md R43): the bytes the host has written since reset. -/
  inBuf : Memory
  /-- OUT_BUF (10_state.md R44): its first OUT_LEN bytes. -/
  outBuf : Memory
  /-- MODEL (log 2): the events to come, oldest first. -/
  agenda : List Event
  /-- MODEL (log 4): what the reads of the host port have returned, newest first; a byte is extended with zeros. -/
  hostReads : List Word
  /-- MODEL (log 5): the number of the next draw of the free value. -/
  draws : Nat
  /-- MODEL (log 5): the draw behind the bytes of IN_BUF that were never written. -/
  inFill : Nat
  /-- MODEL (log 5): the draw behind FT_ORD at and beyond NSYM. -/
  ftFill : Nat
  /-- MODEL (log 5): the draw behind NODE at and beyond NNODE. -/
  nodeFill : Nat
  /-- MODEL (log 5): the draw behind the code bits of CT at and beyond LEN. -/
  ctFill : Nat
  /-- MODEL (log 5): the draw behind OUT_BUF at and beyond OUT_LEN. -/
  outFill : Nat
deriving DecidableEq, Repr

/-- The reset values of 10_state.md R49 for a block with the given capacities, whose unspecified contents come from the
five draws from `d` on. -/
def State.resetWith (inCap outCap : Word) (d : Nat) : State where
  cmd := 0
  status := 0
  err := 0
  errInfo := 0
  inLen := 0
  nbits := 0
  outLen := 0
  bitLen := 0
  nsym := 0
  root := Config.nullIdx
  nnode := 0
  inCap := inCap
  outCap := outCap
  ftCnt := Vector.replicate 256 0
  ftOrd := []
  nodes := []
  ct := Vector.replicate 256 []
  inBuf := []
  outBuf := []
  agenda := []
  hostReads := []
  draws := d + 5
  inFill := d
  ftFill := d + 1
  nodeFill := d + 2
  ctFill := d + 3
  outFill := d + 4

/-- The machine right after reset (10_state.md R49), with the default capacities (00_scope.md R6). -/
def State.reset : State := State.resetWith Config.capDefault Config.capDefault 0

end Sys2Proof.Machine
end

