-- ==== Sys2Proof/Machine/Flags.lean ====
section
/-!
DEFINITION. Sys2Proof/Machine/Flags.lean: the three status flags (10_state.md R27, R47) and the result codes
(60_exceptions.md R262). No command reads a flag and there are no condition codes (R47).
-/

namespace Sys2Proof.Machine

/-- The result codes of 60_exceptions.md R262. -/
inductive ErrCode where
  | ok
  | emptyInput
  | unknownSymbol
  /-- Reserved for the host's store adapter, never written by the block (60_exceptions.md R264). -/
  | noStoredTree
  | corruptTree
  | truncatedStream
  | illegalCmd
  | badOperand
  | outOverflow
deriving DecidableEq, Repr

/-- The number of a result code (60_exceptions.md R262). -/
def ErrCode.code : ErrCode → Word
  | .ok => 0
  | .emptyInput => 1
  | .unknownSymbol => 2
  | .noStoredTree => 3
  | .corruptTree => 4
  | .truncatedStream => 5
  | .illegalCmd => 6
  | .badOperand => 7
  | .outOverflow => 8

/-- STATUS from its three flags: BUSY bit 0, DONE bit 1, ERRF bit 2, the others 0 (10_state.md R27). -/
def statusWord (busy done errf : Bool) : Word :=
  (BitVec.ofBool busy).setWidth 32 ||| (BitVec.ofBool done).setWidth 32 <<< 1 |||
    (BitVec.ofBool errf).setWidth 32 <<< 2

/-- STATUS.BUSY (10_state.md R27): a command is running. -/
def State.busy (s : State) : Bool := s.status.getLsbD 0

/-- STATUS.DONE (10_state.md R27): a command has completed since the last accepted CMD write. -/
def State.done (s : State) : Bool := s.status.getLsbD 1

/-- STATUS.ERRF (10_state.md R27): the last completed command failed. -/
def State.errf (s : State) : Bool := s.status.getLsbD 2

end Sys2Proof.Machine
end

