-- ==== Sys2Proof/Machine/Operands.lean ====
section
/-!
DEFINITION. Sys2Proof/Machine/Operands.lean: every way a command or the host port reads the block's memories
(00_scope.md R9 to R11, 20_memory.md R86): bytes and stream bits of the buffers, entries of the tables, the tree T(ROOT).

Where a location is unspecified the value read is the free value of its array's draw (log 5, log 7).
-/

namespace Sys2Proof.Machine

/-- The byte a memory lists at an index, if it lists one. -/
def Memory.read : Memory → Nat → Option Byte
  | [], _ => none
  | (k, v) :: m, a => if a = k then some v else Memory.read m a

/-- `MemRead(IN_BUF, i)` (00_scope.md R10). -/
def State.inByte (s : State) (i : Nat) : Byte := (s.inBuf.read i).getD (Config.freeByte s.inFill i)

/-- `OUT_BUF[i]` as the host sees it (20_memory.md R81). -/
def State.outByte (s : State) (i : Nat) : Byte := (s.outBuf.read i).getD (Config.freeByte s.outFill i)

/-- `IN_BUF[0 .. n-1]`, in the order a command reads it (20_memory.md R86). -/
def State.inBytes (s : State) (n : Nat) : List Byte := (List.range n).map s.inByte

/-- The operand of ANALYZE, PACK and DESERIALIZE: `IN_BUF[0 .. IN_LEN-1]` (10_state.md R30). -/
def State.input (s : State) : List Byte := s.inBytes s.inLen.toNat

/-- `OUT_BUF[0 .. OUT_LEN-1]`: the result bytes (10_state.md R44). -/
def State.output (s : State) : List Byte := (List.range s.outLen.toNat).map s.outByte

/-- Bit m of a byte in stream order: the most significant bit is first (00_scope.md R9). -/
def streamBitOfByte (b : Byte) (m : Nat) : Bool := b.getLsbD (7 - m)

/-- Stream bit j of IN_BUF: `bit(IN_BUF, j)` (00_scope.md R9, 44_decode.md R196). -/
def State.inBit (s : State) (j : Nat) : Bool := streamBitOfByte (s.inByte (j / 8)) (j % 8)

/-- The bits DECODE uses: j = 0 to NBITS - 1 (44_decode.md R196). -/
def State.inBits (s : State) (n : Nat) : Bits := (List.range n).map s.inBit

/-- The test of 60_exceptions.md R267: IN_LEN exceeds IN_CAP. -/
def State.inLenBad (s : State) : Bool := decide (s.inCap.toNat < s.inLen.toNat)

/-- `FT_CNT[b]` (10_state.md R37). -/
def State.cnt (s : State) (b : Byte) : Word := s.ftCnt[b.toNat]'(b.isLt)

/-- `FT_ORD[k]` (10_state.md R37). -/
def State.ord (s : State) (k : Nat) : Byte := (s.ftOrd[k]?).getD (Config.freeByte s.ftFill k)

/-- The code bits of symbol b, `CT[b].CODE` with LEN bits (10_state.md R41). -/
def State.code (s : State) (b : Byte) : Bits := s.ct[b.toNat]'(b.isLt)

/-- An arena entry with unspecified fields (10_state.md R35: entries at and beyond NNODE). -/
def freeNode (draw i : Nat) : Node where
  leaf := (Config.freeWord draw (4 * i + 1)).getLsbD 8
  sym := (Config.freeWord draw (4 * i + 1)).setWidth 8
  w := Config.freeWord draw (4 * i)
  l := (Config.freeWord draw (4 * i + 2)).setWidth 9
  r := (Config.freeWord draw (4 * i + 3)).setWidth 9

/-- `NODE[i]` (10_state.md R39). -/
def State.node (s : State) (i : Nat) : Node := (s.nodes[i]?).getD (freeNode s.nodeFill i)

/-- The tree rooted at index i, T(i) of 00_scope.md R11, read from an arena by following L and R at most `fuel` levels
deep. `none`: there is no tree at i (an index outside the entries in use, or no end within `fuel` levels). -/
def treeAt (nodes : List Node) : Nat → Idx → Option Tree
  | 0, _ => none
  | fuel + 1, i =>
    match nodes[i.toNat]? with
    | none => none
    | some n =>
      if n.leaf then some (.leaf n.sym n.w)
      else
        match treeAt nodes fuel n.l, treeAt nodes fuel n.r with
        | some l, some r => some (.node n.w l r)
        | _, _ => none

/-- T(ROOT) for a ROOT that is not NULL. A tree with at most NODE_CAP entries is less than NODE_CAP levels deep (log 11). -/
def State.tree (s : State) : Option Tree := treeAt s.nodes Config.nodeCap s.root

/-- Is there no tree: ROOT = NULL (10_state.md R47)? -/
def State.noTree (s : State) : Bool := s.root == Config.nullIdx

end Sys2Proof.Machine

namespace Sys2Proof

/-- The symbols of a tree's leaves, left to right. -/
def Tree.syms : Tree → List Byte
  | .leaf b _ => [b]
  | .node _ l r => Tree.syms l ++ Tree.syms r

/-- The weight of a tree's root. -/
def Tree.weight : Tree → Word
  | .leaf _ w => w
  | .node w _ _ => w

/-- The number of nodes of a tree. -/
def Tree.size : Tree → Nat
  | .leaf _ _ => 1
  | .node _ l r => 1 + Tree.size l + Tree.size r

end Sys2Proof
end

