-- ==== Sys2Proof/Machine/Ops.lean ====
section
/-!
DEFINITION. Sys2Proof/Machine/Ops.lean: the named operations over State: memories, draws of the free value, command
start, successful completion, failing completion (the block's only exception, 60_exceptions.md R268 to R271) and reset.

There is no return from an error (60_exceptions.md R273): the block is idle after either completion.
-/

namespace Sys2Proof.Machine

/-- The canonical form of a memory: indexes strictly rising. An unlisted index reads as no byte, so no entry equals it. -/
abbrev Memory.wf (m : Memory) : Prop := m.Pairwise (fun x y => x.1 < y.1)

/-- Store a byte at an index. -/
def Memory.write : Memory → Nat → Byte → Memory
  | [], a, b => [(a, b)]
  | (k, v) :: m, a, b =>
    if a < k then (a, b) :: (k, v) :: m
    else if a = k then (a, b) :: m
    else (k, v) :: Memory.write m a b

/-- The memory that lists the given bytes from an index on, and nothing else. -/
def Memory.ofBytes : Nat → List Byte → Memory
  | _, [] => []
  | i, b :: bs => (i, b) :: Memory.ofBytes (i + 1) bs

/-- Count one draw of the free value as used (log 5). -/
def State.drawn (s : State) : State := { s with draws := s.draws + 1 }

/-- Write the frequency table: counts, insertion order, NSYM (10_state.md R37); FT_ORD beyond NSYM is unspecified. -/
def State.setTable (s : State) (cnt : Vector Word 256) (ord : List Byte) : State :=
  { s with ftCnt := cnt, ftOrd := ord, nsym := BitVec.ofNat 9 ord.length, ftFill := s.draws }.drawn

/-- Write the tree: arena entries, ROOT, NNODE (10_state.md R35, R39); NODE beyond NNODE is unspecified. -/
def State.setTree (s : State) (nodes : List Node) (root : Idx) : State :=
  { s with nodes := nodes, root := root, nnode := BitVec.ofNat 10 nodes.length, nodeFill := s.draws }.drawn

/-- Write the code table (10_state.md R41); code bits beyond each LEN are unspecified. -/
def State.setCodes (s : State) (ct : Vector Bits 256) : State := { s with ct := ct, ctFill := s.draws }.drawn

/-- Write the output buffer and OUT_LEN (10_state.md R32, R44); OUT_BUF beyond OUT_LEN is unspecified. -/
def State.setOutput (s : State) (bytes : List Byte) : State :=
  { s with outBuf := Memory.ofBytes 0 bytes, outLen := BitVec.ofNat 32 bytes.length, outFill := s.draws }.drawn

/-- Write BIT_LEN (10_state.md R33). -/
def State.setBitLen (s : State) (n : Nat) : State := { s with bitLen := BitVec.ofNat 32 n }

/-- The destinations of 60_exceptions.md R271: what a failing command clears. -/
inductive Dest where
  | table
  | tree
  | codes
  /-- PACK's: it clears BIT_LEN too. -/
  | packed
  /-- DECODE's and SERIALIZE's: BIT_LEN stays. -/
  | output
  /-- An illegal command word's: nothing is cleared. -/
  | nothing
deriving DecidableEq, Repr

/-- The empty frequency table (60_exceptions.md R271). -/
def noCounts : Vector Word 256 := Vector.replicate 256 0

/-- The empty code table (60_exceptions.md R271). -/
def noCodes : Vector Bits 256 := Vector.replicate 256 []

/-- Set a destination to its empty value (60_exceptions.md R271). -/
def State.clear (s : State) : Dest → State
  | .table => s.setTable noCounts []
  | .tree => s.setTree [] Config.nullIdx
  | .codes => s.setCodes noCodes
  | .packed => (s.setOutput []).setBitLen 0
  | .output => s.setOutput []
  | .nothing => s

/-- The single completion event: ERR, ERR_INFO, BUSY to 0, DONE to 1, ERRF to ERR ≠ 0 (60_exceptions.md R269, R270). -/
def State.complete (s : State) (e : ErrCode) (info : Word) : State :=
  { s with err := e.code, errInfo := info, status := statusWord false true (e ≠ .ok) }

/-- `done` (60_exceptions.md R269). -/
def State.succeed (s : State) : State := s.complete .ok 0

/-- `raise E(info)` of a command whose destination is `d` (60_exceptions.md R270). -/
def State.raise (s : State) (d : Dest) (e : ErrCode) (info : Word) : State := (s.clear d).complete e info

/-- Command start (60_exceptions.md R268): the word is stored in CMD, BUSY is set, DONE and ERRF are cleared. -/
def State.start (s : State) (w : Word) : State := { s with cmd := w, status := statusWord true false false }

/-- The running command: what CMD spells (10_state.md R26, R46). -/
def State.command (s : State) : Instr := decode s.cmd

/-- A pulse of `rst` (70_reset_and_hazards.md R300, R301): every spec field takes its reset value, a running command
ends without completion. The capacities are constants; the agenda and what the host has read are not the block's; the
unspecified contents are drawn anew (log 15). -/
def State.pulseReset (s : State) : State :=
  { State.resetWith s.inCap s.outCap s.draws with agenda := s.agenda, hostReads := s.hostReads }

end Sys2Proof.Machine
end

