-- ==== Sys2Proof/Machine/Analyze.lean ====
section
/-!
DEFINITION. Sys2Proof/Machine/Analyze.lean: ANALYZE, the frequency analyzer (40_analyze.md R141).
-/

namespace Sys2Proof.Machine

/-- The frequency table as ANALYZE builds it: counts and insertion order. -/
structure Freq where
  cnt : Vector Word 256
  ord : List Byte
deriving DecidableEq, Repr

/-- The empty table (40_analyze.md R141). -/
def Freq.empty : Freq := { cnt := noCounts, ord := [] }

/-- One turn of the loop of 40_analyze.md R141: a first occurrence becomes the next key, then the count grows. -/
def Freq.tally (t : Freq) (b : Byte) : Freq where
  cnt := t.cnt.set b.toNat (t.cnt[b.toNat]'(b.isLt) + 1) b.isLt
  ord := if t.cnt[b.toNat]'(b.isLt) = 0 then t.ord ++ [b] else t.ord

/-- The table of an input (40_analyze.md R141). -/
def analyzeBytes (input : List Byte) : Freq := input.foldl Freq.tally Freq.empty

/-- ANALYZE (40_analyze.md R141). -/
def execAnalyze (s : State) : Host.Outcome State Fault Refusal :=
  if s.inLenBad then .next (s.raise .table .badOperand s.inLen)
  else
    let t := analyzeBytes s.input
    .next (s.setTable t.cnt t.ord).succeed

end Sys2Proof.Machine
end

