-- ==== Sys2Proof/Machine/Build.lean ====
section
/-!
DEFINITION. Sys2Proof/Machine/Build.lean: BUILD, the greedy merge (41_build.md R151 to R155).
-/

namespace Sys2Proof.Machine

/-- A member of the forest (41_build.md R151): an arena index with the weight of its node. -/
structure Member where
  w : Word
  i : Nat
deriving DecidableEq, Repr

/-- Does a member come before another: smaller weight, on equal weights smaller arena index (41_build.md R153)? -/
def Member.before (a b : Member) : Bool := a.w.toNat < b.w.toNat || (a.w == b.w && a.i < b.i)

/-- `select` of 41_build.md R153 with the removal that follows it: the least of a nonempty forest, and the others. -/
def selectMin : Member → List Member → Member × List Member
  | m, [] => (m, [])
  | m, x :: xs =>
    if x.before m then
      let r := selectMin x xs
      (r.1, m :: r.2)
    else
      let r := selectMin m xs
      (r.1, x :: r.2)

/-- A leaf entry (10_state.md R39). -/
def leafNode (sym : Byte) (w : Word) : Node :=
  { leaf := true, sym := sym, w := w, l := Config.nullIdx, r := Config.nullIdx }

/-- An internal entry (10_state.md R39). -/
def innerNode (w : Word) (l r : Nat) : Node :=
  { leaf := false, sym := 0, w := w, l := BitVec.ofNat 9 l, r := BitVec.ofNat 9 r }

/-- The merge loop of 41_build.md R152: the forest is `m :: ms`, the next free arena index is `next`, and the answer is
the internal entries in creation order. Each turn removes two members and adds one (R158): `fuel` is the number of turns. -/
def mergeForest : Nat → Nat → Member → List Member → List Node
  | 0, _, _, _ => []
  | fuel + 1, next, m, ms =>
    let a := selectMin m ms
    match a.2 with
    | [] => []
    | x :: xs =>
      let b := selectMin x xs
      let w := a.1.w + b.1.w
      innerNode w a.1.i b.1.i :: mergeForest fuel (next + 1) { w := w, i := next } b.2

/-- The leaves: the k-th key at arena index k (41_build.md R151). -/
def State.leafNodes (s : State) : List Node :=
  (List.range s.nsym.toNat).map fun k => leafNode (s.ord k) (s.cnt (s.ord k))

/-- The first forest: every leaf with its index (41_build.md R151). -/
def forestOf (leaves : List Node) : List Member := leaves.mapIdx fun i n => { w := n.w, i := i }

/-- The arena BUILD makes from the leaves: the leaves, then the internal entries in creation order (41_build.md R156). -/
def buildArena (leaves : List Node) : List Node :=
  match forestOf leaves with
  | [] => []
  | m :: ms => leaves ++ mergeForest ms.length leaves.length m ms

/-- BUILD (41_build.md R152). The root is the last entry made. -/
def execBuild (s : State) : Host.Outcome State Fault Refusal :=
  if s.nsym = 0 then .next (s.raise .tree .emptyInput 0)
  else
    let nodes := buildArena s.leafNodes
    .next (s.setTree nodes (BitVec.ofNat 9 (nodes.length - 1))).succeed

end Sys2Proof.Machine
end

