-- ==== Sys2Proof/Machine/DecodeCmd.lean ====
section
/-!
DEFINITION. Sys2Proof/Machine/DecodeCmd.lean: DECODE, the bit unpacker and tree walker (44_decode.md R196 to R202).
-/

namespace Sys2Proof.Machine

/-- One move of the walk: left on 0, right on 1 (44_decode.md R202). -/
def State.move (s : State) (cur : Idx) (b : Bool) : Idx :=
  if b then (s.node cur.toNat).r else (s.node cur.toNat).l

/-- The bit loop of 44_decode.md R197 for an internal root, at stream bit j with n symbols emitted and the walk at `cur`:
the symbols still to be emitted and where the walk ends, or the overflow with its bit index. -/
def walkBits (s : State) : Nat → Nat → Idx → Bits → Except (ErrCode × Nat) (List Byte × Idx)
  | _, _, cur, [] => .ok ([], cur)
  | j, n, cur, b :: bs =>
    let next := s.move cur b
    if (s.node next.toNat).leaf then
      if n = s.outCap.toNat then .error (.outOverflow, j)
      else
        match walkBits s (j + 1) (n + 1) s.root bs with
        | .ok r => .ok ((s.node next.toNat).sym :: r.1, r.2)
        | .error e => .error e
    else walkBits s (j + 1) n next bs

/-- The bit loop of 44_decode.md R197 for a leaf root (R198), with k bits left and n symbols emitted, one a bit: the
symbols still to be emitted, or the overflow with its bit index, which equals n. -/
def repeatLeaf (s : State) : Nat → Nat → Except (ErrCode × Nat) (List Byte)
  | _, 0 => .ok []
  | n, k + 1 =>
    if n = s.outCap.toNat then .error (.outOverflow, n)
    else
      match repeatLeaf s (n + 1) k with
      | .ok r => .ok ((s.node s.root.toNat).sym :: r)
      | .error e => .error e

/-- The symbols of the stream (44_decode.md R197): the loops, then the test for an end in the middle of a code (R199). -/
def decodeSymbols (s : State) : Except (ErrCode × Nat) (List Byte) :=
  if (s.node s.root.toNat).leaf then repeatLeaf s 0 s.nbits.toNat
  else
    match walkBits s 0 0 s.root (s.inBits s.nbits.toNat) with
    | .error e => .error e
    | .ok (out, cur) => if cur = s.root then .ok out else .error (.truncatedStream, s.nbits.toNat)

/-- DECODE (44_decode.md R197). -/
def execDecode (s : State) : Host.Outcome State Fault Refusal :=
  if s.inLenBad then .next (s.raise .output .badOperand s.inLen)
  else if s.noTree then .next (s.raise .output .corruptTree 0)
  else if 8 * s.inLen.toNat < s.nbits.toNat then
    .next (s.raise .output .truncatedStream (BitVec.ofNat 32 (8 * s.inLen.toNat)))
  else
    match decodeSymbols s with
    | .error (e, j) => .next (s.raise .output e (BitVec.ofNat 32 j))
    | .ok out => .next (s.setOutput out).succeed

end Sys2Proof.Machine
end

