-- ==== Sys2Proof/Machine/Generate.lean ====
section
/-!
DEFINITION. Sys2Proof/Machine/Generate.lean: GENERATE, the code table generator (42_generate.md R166 to R168).
-/

namespace Sys2Proof

/-- `walk` of 42_generate.md R166 on a tree: each leaf's symbol with its path, the code so far in front; left adds 0,
right adds 1. -/
def Tree.walk : Tree → Bits → List (Byte × Bits)
  | .leaf b _, code => [(b, code)]
  | .node _ l r, code => Tree.walk l (code ++ [false]) ++ Tree.walk r (code ++ [true])

/-- The codes of a tree: the code "0" for a tree that is one leaf (42_generate.md R167), else the paths. -/
def Tree.codes : Tree → List (Byte × Bits)
  | .leaf b _ => [(b, [false])]
  | .node w l r => Tree.walk (.node w l r) []

end Sys2Proof

namespace Sys2Proof.Machine

/-- `CT[b] <- code` (42_generate.md R166). -/
def setCode (ct : Vector Bits 256) (e : Byte × Bits) : Vector Bits 256 := ct.set e.1.toNat e.2 e.1.isLt

/-- The code table of a tree: every symbol without a code, then one entry a leaf (42_generate.md R166). -/
def codeTable (t : Tree) : Vector Bits 256 := t.codes.foldl setCode noCodes

/-- GENERATE (42_generate.md R166, R168). -/
def execGenerate (s : State) : Host.Outcome State Fault Refusal :=
  if s.noTree then .next (s.raise .codes .corruptTree 0)
  else
    match s.tree with
    | none => .fault .malformedArena
    | some t => .next (s.setCodes (codeTable t)).succeed

end Sys2Proof.Machine
end

