-- ==== Sys2Proof/Machine/Illegal.lean ====
section
/-!
DEFINITION. Sys2Proof/Machine/Illegal.lean: ILLEGAL, every other command word (30_encoding.md R104).
-/

namespace Sys2Proof.Machine

/-- ILLEGAL (30_encoding.md R104): raises ILLEGAL_CMD with the word; nothing is cleared. -/
def execIllegal (word : Word) (s : State) : Host.Outcome State Fault Refusal :=
  .next (s.raise .nothing .illegalCmd word)

end Sys2Proof.Machine
end

