-- ==== Sys2Proof/Machine/Pack.lean ====
section
/-!
DEFINITION. Sys2Proof/Machine/Pack.lean: PACK, the bit packer (43_pack.md R181 to R184).
-/

namespace Sys2Proof.Machine

/-- The symbol loop of 43_pack.md R181 from input index i, with `len` stream bits already there: the bits it appends, or
the error of the first failing test with its input index. -/
def packStream (s : State) : Nat → Nat → List Byte → Except (ErrCode × Nat) Bits
  | _, _, [] => .ok []
  | i, len, b :: bs =>
    if (s.code b).length = 0 then .error (.unknownSymbol, i)
    else if len + (s.code b).length > 8 * s.outCap.toNat then .error (.outOverflow, i)
    else
      match packStream s (i + 1) (len + (s.code b).length) bs with
      | .ok rest => .ok (s.code b ++ rest)
      | .error e => .error e

/-- `padded` of 43_pack.md R181: zero bits up to the next multiple of 8, none when the length is one. -/
def padBits (stream : Bits) : Bits := stream ++ List.replicate ((8 - stream.length % 8) % 8) false

/-- Eight bits as a byte, the first bit most significant (43_pack.md R181, 30_encoding.md R107). -/
def byteOfBits (bits : Bits) : Byte := BitVec.ofNat 8 (bits.foldl (fun n b => 2 * n + b.toNat) 0)

/-- The first n groups of eight bits as bytes (30_encoding.md R107). -/
def bytesOfBits : Nat → Bits → List Byte
  | 0, _ => []
  | n + 1, bits => byteOfBits (bits.take 8) :: bytesOfBits n (bits.drop 8)

/-- The PackedBuffer of a Bitstream (30_encoding.md R107). -/
def packBits (stream : Bits) : List Byte := bytesOfBits ((padBits stream).length / 8) (padBits stream)

/-- PACK (43_pack.md R181). -/
def execPack (s : State) : Host.Outcome State Fault Refusal :=
  if s.inLenBad then .next (s.raise .packed .badOperand s.inLen)
  else
    match packStream s 0 0 s.input with
    | .error (e, i) => .next (s.raise .packed e (BitVec.ofNat 32 i))
    | .ok stream => .next ((s.setBitLen stream.length).setOutput (packBits stream)).succeed

end Sys2Proof.Machine
end

