-- ==== Sys2Proof/Machine/TreeCodec.lean ====
section
/-!
DEFINITION. Sys2Proof/Machine/TreeCodec.lean: SERIALIZE and DESERIALIZE (45_treecodec.md R216 to R225) over the byte
format of 30_encoding.md R115.
-/

namespace Sys2Proof.Machine

/-- `freq`: the 32-bit weight, most significant byte first (30_encoding.md R116). -/
def freqBytes (w : Word) : List Byte :=
  [w.extractLsb' 24 8, w.extractLsb' 16 8, w.extractLsb' 8 8, w.extractLsb' 0 8]

/-- The weight that four bytes spell, most significant byte first (45_treecodec.md R221). -/
def freqOf (b3 b2 b1 b0 : Byte) : Word :=
  b3.setWidth 32 <<< 24 ||| b2.setWidth 32 <<< 16 ||| b1.setWidth 32 <<< 8 ||| b0.setWidth 32

end Sys2Proof.Machine

namespace Sys2Proof

/-- `ser` of 45_treecodec.md R216 on a tree: pre-order records (30_encoding.md R115, R117). -/
def Tree.bytes : Tree → List Byte
  | .leaf b w => [0x01, 0x01, b] ++ Machine.freqBytes w ++ [0x00, 0x00]
  | .node w l r => [0x01, 0x00] ++ Machine.freqBytes w ++ Tree.bytes l ++ Tree.bytes r

end Sys2Proof

namespace Sys2Proof.Machine

/-- The serialization of a tree or of no tree, the one marker byte (45_treecodec.md R217). -/
def serialBytes : Option Tree → List Byte
  | none => [0x00]
  | some t => t.bytes

/-- SERIALIZE (45_treecodec.md R216). -/
def execSerialize (s : State) : Host.Outcome State Fault Refusal :=
  if s.noTree then .next (s.setOutput (serialBytes none)).succeed
  else
    match s.tree with
    | none => .fault .malformedArena
    | some t => .next (s.setOutput (serialBytes (some t))).succeed

/-- The position of the parser (45_treecodec.md R221): the bytes not yet read, the nodes allocated, the symbols seen. -/
structure Parser where
  rest : List Byte
  cnt : Nat
  seen : List Byte
deriving DecidableEq, Repr

/-- The symbol field: marker 0x00 for none, 0x01 and the symbol; any other marker is reserved (30_encoding.md R115, R118). -/
def parseSym : List Byte → Option (Option Byte × List Byte)
  | [] => none
  | m :: bs =>
    if m = 0x00 then some (none, bs)
    else if m = 0x01 then
      match bs with
      | [] => none
      | b :: bs => some (some b, bs)
    else none

/-- The frequency field: four bytes (30_encoding.md R116). -/
def parseFreq : List Byte → Option (Word × List Byte)
  | b3 :: b2 :: b1 :: b0 :: bs => some (freqOf b3 b2 b1 b0, bs)
  | _ => none

/-- The checks that end a record (45_treecodec.md R222 (d), (e), (f)): a leaf has no child and a new symbol, an internal
node has two children. -/
def closeRecord (sym : Option Byte) (w : Word) (l r : Option Tree) (p : Parser) : Option (Option Tree × Parser) :=
  match sym, l, r with
  | some b, none, none => if b ∈ p.seen then none else some (some (.leaf b w), { p with seen := b :: p.seen })
  | none, some l, some r => some (some (.node w l r), p)
  | _, _, _ => none

/-- `parse` of 45_treecodec.md R221; `none` is CORRUPT_TREE. A record nests at most NODE_CAP deep, so that `fuel` =
NODE_CAP + 1 is never used up. -/
def parseTree : Nat → Parser → Option (Option Tree × Parser)
  | 0, _ => none
  | fuel + 1, p =>
    match p.rest with
    | [] => none
    | tag :: bs =>
      if tag = 0x00 then some (none, { p with rest := bs })
      else if tag ≠ 0x01 then none
      else if p.cnt = Config.nodeCap then none
      else
        match parseSym bs with
        | none => none
        | some (sym, bs) =>
          match parseFreq bs with
          | none => none
          | some (w, bs) =>
            match parseTree fuel { p with rest := bs, cnt := p.cnt + 1 } with
            | none => none
            | some (l, p) =>
              match parseTree fuel p with
              | none => none
              | some (r, p) => closeRecord sym w l r p

/-- The tree (or the null tree, R225) that a byte string spells; `none` when DESERIALIZE rejects it (45_treecodec.md R222). -/
def deserialBytes (bytes : List Byte) : Option (Option Tree) :=
  match parseTree (Config.nodeCap + 1) { rest := bytes, cnt := 0, seen := [] } with
  | some (t, p) => if p.rest = [] then some t else none
  | none => none

/-- Arena placement after DESERIALIZE: pre-order from index i on (45_treecodec.md R223). -/
def layTree : Nat → Tree → List Node
  | _, .leaf b w => [{ leaf := true, sym := b, w := w, l := Config.nullIdx, r := Config.nullIdx }]
  | i, .node w l r =>
    { leaf := false, sym := 0, w := w, l := BitVec.ofNat 9 (i + 1), r := BitVec.ofNat 9 (i + 1 + l.size) } ::
      (layTree (i + 1) l ++ layTree (i + 1 + l.size) r)

/-- DESERIALIZE (45_treecodec.md R221). -/
def execDeserialize (s : State) : Host.Outcome State Fault Refusal :=
  if s.inLenBad then .next (s.raise .tree .badOperand s.inLen)
  else
    match deserialBytes s.input with
    | none => .next (s.raise .tree .corruptTree 0)
    | some none => .next (s.setTree [] Config.nullIdx).succeed
    | some (some t) => .next (s.setTree (layTree 0 t) 0).succeed

end Sys2Proof.Machine
end

