-- ==== Sys2Proof/Machine/HostPort.lean ====
section
/-!
DEFINITION. Sys2Proof/Machine/HostPort.lean: the host port (20_memory.md R70 to R85): the address map, the registers, the
table windows, the buffers, the refused accesses and the busy lock.
-/

namespace Sys2Proof.Machine

/-- The registers (10_state.md R22), in the order of their offsets. -/
inductive Reg where
  | id | version | cmd | status | err | errInfo | inLen | nbits | outLen | bitLen | nsym | root | nnode | inCap | outCap
deriving DecidableEq, Repr

/-- The register map (10_state.md R22): the register at offset 4 * k is the k-th. -/
def regMap : List Reg :=
  [.id, .version, .cmd, .status, .err, .errInfo, .inLen, .nbits, .outLen, .bitLen, .nsym, .root, .nnode, .inCap, .outCap]

/-- The value a read of a register returns (10_state.md R24 to R36); reserved bits read 0 (R21). -/
def State.readReg (s : State) : Reg → Word
  | .id => Config.idValue
  | .version => Config.versionValue
  | .cmd => s.cmd
  | .status => s.status
  | .err => s.err
  | .errInfo => s.errInfo
  | .inLen => s.inLen
  | .nbits => s.nbits
  | .outLen => s.outLen
  | .bitLen => s.bitLen
  | .nsym => s.nsym.setWidth 32
  | .root => s.root.setWidth 32
  | .nnode => s.nnode.setWidth 32
  | .inCap => s.inCap
  | .outCap => s.outCap

/-- A host write to a register of an idle block (20_memory.md R72): RW stores, CMD starts the command, RO discards. -/
def State.writeReg (s : State) (w : Word) : Reg → State
  | .cmd => s.start w
  | .inLen => { s with inLen := w }
  | .nbits => { s with nbits := w }
  | .id => s
  | .version => s
  | .status => s
  | .err => s
  | .errInfo => s
  | .outLen => s
  | .bitLen => s
  | .nsym => s
  | .root => s
  | .nnode => s
  | .inCap => s
  | .outCap => s

/-- The registers whose read keeps its meaning while BUSY (20_memory.md R85). -/
def Reg.readableBusy : Reg → Bool
  | .status => true
  | .id => true
  | .version => true
  | .inCap => true
  | .outCap => true
  | .cmd => false
  | .err => false
  | .errInfo => false
  | .inLen => false
  | .nbits => false
  | .outLen => false
  | .bitLen => false
  | .nsym => false
  | .root => false
  | .nnode => false

/-- The regions of the address map (20_memory.md R73). -/
inductive Region where
  | reg | ftCnt | ftOrd | node | ct | inBuf | outBuf
deriving DecidableEq, Repr

/-- The first offset of a region (20_memory.md R73). -/
def Region.base : Region → Nat
  | .reg => 0x0
  | .ftCnt => 0x1000
  | .ftOrd => 0x1400
  | .node => 0x2000
  | .ct => 0x4000
  | .inBuf => 0x20000000
  | .outBuf => 0x40000000

/-- The unit width of a region (20_memory.md R84). -/
def Region.width : Region → Width
  | .reg => .b32
  | .ftCnt => .b32
  | .ftOrd => .b32
  | .node => .b32
  | .ct => .b32
  | .inBuf => .b8
  | .outBuf => .b8

/-- The bytes of an access. -/
def Width.bytes : Width → Nat
  | .b8 => 1
  | .b16 => 2
  | .b32 => 4

/-- The region of an offset, if it is mapped (20_memory.md R73, R78). REG ends after its last register (R75), NODE after
entry 510 (R77), the buffers after their capacities (R80, R81). -/
def regionOf (s : State) (off : Nat) : Option Region :=
  if off < 0x3C then some .reg
  else if 0x1000 ≤ off ∧ off < 0x1400 then some .ftCnt
  else if 0x1400 ≤ off ∧ off < 0x1800 then some .ftOrd
  else if 0x2000 ≤ off ∧ off < 0x3FF0 then some .node
  else if 0x4000 ≤ off ∧ off < 0x8000 then some .ct
  else if 0x20000000 ≤ off ∧ off < 0x20000000 + s.inCap.toNat then some .inBuf
  else if 0x40000000 ≤ off ∧ off < 0x40000000 + s.outCap.toNat then some .outBuf
  else none

/-- Where an access goes: its region and its unit there, or why it is refused (20_memory.md R78, R83). -/
def locate (s : State) (w : Width) (off : Nat) : Except Refusal (Region × Nat) :=
  match regionOf s off with
  | none => .error (.unmapped off)
  | some r =>
    if w ≠ r.width then .error (.wrongWidth off)
    else if off % w.bytes ≠ 0 then .error (.misaligned off)
    else .ok (r, (off - r.base) / w.bytes)

/-- One word of an arena entry's window (20_memory.md R77). -/
def nodeWord (n : Node) : Nat → Word
  | 0 => n.w
  | 1 => n.sym.setWidth 32 ||| (BitVec.ofBool n.leaf).setWidth 32 <<< 8
  | 2 => n.l.setWidth 32
  | 3 => n.r.setWidth 32
  | _ => 0

/-- Code bit j of symbol b as the window shows it: a free bit at and beyond LEN (20_memory.md R79). -/
def State.codeBit (s : State) (b : Byte) (j : Nat) : Bool :=
  ((s.code b)[j]?).getD ((Config.freeWord s.ctFill (8 * b.toNat + j / 32)).getLsbD (31 - j % 32))

/-- One word of a code's window (20_memory.md R79): LEN, then the code bits with the first in bit 31, then zeros. -/
def State.codeWord (s : State) (b : Byte) (word : Nat) : Word :=
  if word = 0 then (BitVec.ofNat 8 (s.code b).length).setWidth 32
  else if word ≤ 8 then BitVec.ofFnLE fun k : Fin 32 => s.codeBit b (32 * (word - 1) + (31 - k.val))
  else 0

/-- The value a read of unit k of a region returns (20_memory.md R72, R76, R77, R79, R80, R81); a byte is extended with
zeros. -/
def State.readUnit (s : State) (k : Nat) : Region → Word
  | .reg => (regMap[k]?).elim 0 s.readReg
  | .ftCnt => s.cnt (BitVec.ofNat 8 k)
  | .ftOrd => (s.ord k).setWidth 32
  | .node => nodeWord (s.node (k / 4)) (k % 4)
  | .ct => s.codeWord (BitVec.ofNat 8 (k / 16)) (k % 16)
  | .inBuf => (s.inByte k).setWidth 32
  | .outBuf => (s.outByte k).setWidth 32

/-- A write of unit k of a region of an idle block (20_memory.md R72): the windows and OUT_BUF discard it. -/
def State.writeUnit (s : State) (k : Nat) (v : Word) : Region → State
  | .reg => (regMap[k]?).elim s (s.writeReg v)
  | .inBuf => { s with inBuf := s.inBuf.write k (v.setWidth 8) }
  | .ftCnt => s
  | .ftOrd => s
  | .node => s
  | .ct => s
  | .outBuf => s

/-- Does a read keep its meaning while BUSY: STATUS and the constants only (20_memory.md R85)? -/
def readableBusy (k : Nat) : Region → Bool
  | .reg => (regMap[k]?).elim false Reg.readableBusy
  | .ftCnt => false
  | .ftOrd => false
  | .node => false
  | .ct => false
  | .inBuf => false
  | .outBuf => false

/-- The host receives a value (log 4). -/
def State.deliver (s : State) (v : Word) : State := { s with hostReads := v :: s.hostReads }

/-- What a read returns that the busy lock hides: a fresh free value of the region's width (20_memory.md R85, log 10). -/
def State.hidden (s : State) : Region → Word
  | .reg => Config.freeWord s.draws 0
  | .ftCnt => Config.freeWord s.draws 0
  | .ftOrd => Config.freeWord s.draws 0
  | .node => Config.freeWord s.draws 0
  | .ct => Config.freeWord s.draws 0
  | .inBuf => (Config.freeByte s.draws 0).setWidth 32
  | .outBuf => (Config.freeByte s.draws 0).setWidth 32

/-- One access of the host port (20_memory.md R72, R78, R85). -/
def hostAccess (s : State) : HostOp → Host.Outcome State Fault Refusal
  | .read w off =>
    match locate s w off with
    | .error r => .refused r
    | .ok (r, k) =>
      if s.busy && !readableBusy k r then .next (s.deliver (s.hidden r)).drawn
      else .next (s.deliver (s.readUnit k r))
  | .write w off v =>
    match locate s w off with
    | .error r => .refused r
    | .ok (r, k) => if s.busy then .next s else .next (s.writeUnit k v r)

end Sys2Proof.Machine
end

