-- ==== Sys2Proof/Machine/Step.lean ====
section
/-!
DEFINITION. Sys2Proof/Machine/Step.lean: one step of the block with its surroundings (00_scope.md R14, 20_memory.md R87).

The agenda says who moves (log 2). A command is two events (log 1): the accepted write of CMD starts it (60_exceptions.md
R268), and the engine's turn runs the command that CMD spells to its completion, on the state as it stands; between the
two the busy lock holds (20_memory.md R85).
-/

namespace Sys2Proof.Machine

/-- The engine's turn: a running command completes, an idle engine does nothing (10_state.md R46, 60_exceptions.md R281). -/
def engineTurn (s : State) : Host.Outcome State Fault Refusal :=
  if s.busy then exec s.command s else .next s

/-- One event of the agenda (log 2). -/
def takeEvent (s : State) : Event → Host.Outcome State Fault Refusal
  | .host op => hostAccess s op
  | .engine => engineTurn s
  | .reset => .next s.pulseReset

/-- One step: the first event of the agenda, and with an empty agenda the engine's turn (log 2). -/
def step (s : State) : Host.Outcome State Fault Refusal :=
  match s.agenda with
  | [] => engineTurn s
  | e :: rest => takeEvent { s with agenda := rest } e

/-- The state in which the command word w has been accepted and the engine moves next: CMD holds the word, STATUS is BUSY
(60_exceptions.md R268). The block fetches its next command from CMD (10_state.md R46, log 3). -/
def State.withFetchWord (s : State) (_nbits w : Nat) : State :=
  { s.start (BitVec.ofNat 32 w) with agenda := .engine :: s.agenda }

end Sys2Proof.Machine
end

