-- ==== Sys2Proof/Machine/Sequences.lean ====
section
/-!
DEFINITION. Sys2Proof/Machine/Sequences.lean: the host sequences of 30_encoding.md R125 and 46_sequences.md R241, R243,
as agendas given to `step` one event at a time. They are host software, not commands of the block (46_sequences.md).

The store, the input source and the output sink are the host's (46_sequences.md R246, R247): they appear here only as the
bytes a sequence takes and gives (log 20).
-/

namespace Sys2Proof.Machine

/-- Why a host sequence stops: the machine stopped, a command ended with ERR ≠ 0 (46_sequences.md R244), or the store
held no tree (46_sequences.md R246, raised by the host before it touches the block). -/
inductive SeqStop where
  | fault (r : Fault)
  | refused (r : Refusal)
  | failed (err : Word)
  | noStoredTree
deriving DecidableEq, Repr

/-- The offset of a register (10_state.md R22). -/
def Reg.offset (r : Reg) : Nat := 4 * regMap.idxOf r

/-- `HostRegRead` (20_memory.md R72). -/
def regRead (r : Reg) : Event := .host (.read .b32 r.offset)

/-- `HostRegWrite` (20_memory.md R72). -/
def regWrite (r : Reg) (v : Word) : Event := .host (.write .b32 r.offset v)

/-- `HostTabRead` (20_memory.md R72). -/
def tabRead (off : Nat) : Event := .host (.read .b32 off)

/-- `HostBufWrite` (20_memory.md R72). -/
def bufWrite (i : Nat) (b : Byte) : Event := .host (.write .b8 (Region.base .inBuf + i) (b.setWidth 32))

/-- `HostInRead` (20_memory.md R72). -/
def inRead (i : Nat) : Event := .host (.read .b8 (Region.base .inBuf + i))

/-- `HostOutRead` (20_memory.md R72). -/
def outRead (i : Nat) : Event := .host (.read .b8 (Region.base .outBuf + i))

/-- `LOAD` (30_encoding.md R125): the bytes, then the length. -/
def loadEvents (bytes : List Byte) : List Event :=
  bytes.mapIdx bufWrite ++ [regWrite .inLen (BitVec.ofNat 32 bytes.length)]

/-- A command and the wait for it (30_encoding.md R125): the CMD write, `polls` reads of STATUS that still find it busy,
the completion, and the read that finds DONE. -/
def issueEvents (polls : Nat) (i : Instr) : List Event :=
  [regWrite .cmd (encode i)] ++ List.replicate polls (regRead .status) ++ [.engine, regRead .status]

/-- Let one event happen. -/
def feed (s : State) (e : Event) : Except SeqStop State :=
  match step { s with agenda := [e] } with
  | .next t => .ok t
  | .fault r => .error (.fault r)
  | .refused r => .error (.refused r)

/-- Let events happen in order (20_memory.md R87). -/
def feedAll : List Event → State → Except SeqStop State
  | [], s => .ok s
  | e :: es, s =>
    match feed s e with
    | .ok t => feedAll es t
    | .error r => .error r

/-- What the host's last read returned. -/
def State.lastRead (s : State) : Word := (s.hostReads.head?).getD 0

/-- `RD name` (30_encoding.md R125). -/
def readBack (r : Reg) (s : State) : Except SeqStop (Word × State) := do
  let s ← feed s (regRead r)
  return (s.lastRead, s)

/-- Issue a command, wait, read ERR, stop when it is not 0 (46_sequences.md R244). -/
def command (polls : Nat) (i : Instr) (s : State) : Except SeqStop State := do
  let s ← feedAll (issueEvents polls i) s
  let (e, s) ← readBack .err s
  if e = 0 then return s else throw (.failed e)

/-- `SAVE` (30_encoding.md R125): OUT_LEN, then that many bytes of OUT_BUF. -/
def save (s : State) : Except SeqStop (List Byte × State) := do
  let (n, s) ← readBack .outLen s
  let s ← feedAll ((List.range n.toNat).map outRead) s
  return ((s.hostReads.take n.toNat).reverse.map (·.setWidth 8), s)

/-- What the host holds after COMPRESS (46_sequences.md R241). -/
structure Saved where
  packed : List Byte
  bitLen : Word
  tree : List Byte
deriving DecidableEq, Repr

/-- `COMPRESS input` (46_sequences.md R241). -/
def compress (polls : Nat) (input : List Byte) (s : State) : Except SeqStop (Saved × State) := do
  let s ← feedAll (loadEvents input) s
  let s ← command polls .analyze s
  let s ← command polls .build s
  let s ← command polls .generate s
  let s ← command polls .pack s
  let (n, s) ← readBack .bitLen s
  let (packed, s) ← save s
  let s ← command polls .serialize s
  let (tree, s) ← save s
  return ({ packed := packed, bitLen := n, tree := tree }, s)

/-- `DECOMPRESS tree_bytes, packed_bytes, bit_len` (46_sequences.md R243); `none` is a store that holds no tree. -/
def decompress (polls : Nat) (tree : Option (List Byte)) (packed : List Byte) (bitLen : Word) (s : State) :
    Except SeqStop (List Byte × State) := do
  match tree with
  | none => throw .noStoredTree
  | some bytes =>
    let s ← feedAll (loadEvents bytes) s
    let s ← command polls .deserialize s
    let s ← feedAll (loadEvents packed) s
    let s ← feedAll [regWrite .nbits bitLen] s
    let s ← command polls .decode s
    save s

end Sys2Proof.Machine
end

