-- ==== Sys2Proof/Safety.lean ====
section
/-!
DEFINITION. Sys2Proof/Safety.lean: the invariants the spec states (00_scope.md R6, 10_state.md R27, R32, R38, R40, R42),
and the vocabulary of the claims: how a command ended, what two states share, where a tree's leaves lie.
-/

namespace Sys2Proof

/-- The subtree at the end of a path: left on 0, right on 1 (42_generate.md R166, 44_decode.md R202). -/
def Tree.follow : Tree → Bits → Option Tree
  | t, [] => some t
  | .leaf _ _, _ :: _ => none
  | .node _ l r, b :: bs => if b then Tree.follow r bs else Tree.follow l bs

/-- The leaf of symbol b is at the end of a path. -/
def Tree.HasLeaf (t : Tree) (path : Bits) (b : Byte) : Prop := ∃ w, t.follow path = some (.leaf b w)

/-- Is a tree one leaf? -/
def Tree.isLeaf : Tree → Bool
  | .leaf _ _ => true
  | .node _ _ _ => false

/-- BUILD's weight law (10_state.md R40 (d)): at every internal node the weight is the sum of the children's, at every
leaf at least 1. -/
def Tree.Weighted : Tree → Prop
  | .leaf _ w => 1 ≤ w.toNat
  | .node w l r => w.toNat = l.weight.toNat + r.weight.toNat ∧ Tree.Weighted l ∧ Tree.Weighted r

end Sys2Proof

namespace Sys2Proof.Machine

/-- The constraint on the two capacities (00_scope.md R6). -/
def State.Caps (s : State) : Prop :=
  Config.capMin ≤ s.inCap.toNat ∧ s.inCap.toNat ≤ Config.capMax ∧
    Config.capMin ≤ s.outCap.toNat ∧ s.outCap.toNat ≤ Config.capMax

/-- The sum of all counts. -/
def State.total (s : State) : Nat := (s.ftCnt.toList.map BitVec.toNat).sum

/-- 10_state.md R38 (a), (b), and the bound on the sum of counts that R38 (c) and 00_scope.md R12 give. -/
def State.TableInv (s : State) : Prop :=
  s.ftCnt.toList.countP (fun c => c != 0) = s.nsym.toNat ∧
    s.ftOrd.length = s.nsym.toNat ∧ s.ftOrd.Nodup ∧ (∀ b : Byte, b ∈ s.ftOrd ↔ s.cnt b ≠ 0) ∧
    s.total ≤ s.inCap.toNat

/-- The arena indexes met from index i by following L and R, `fuel` levels deep, each as often as it is met. -/
def visit (nodes : List Node) : Nat → Idx → List Nat
  | 0, _ => []
  | fuel + 1, i =>
    match nodes[i.toNat]? with
    | none => []
    | some n => i.toNat :: (if n.leaf then [] else visit nodes fuel n.l ++ visit nodes fuel n.r)

/-- 10_state.md R40 (b) for one entry of an arena with n entries in use, with R39's SYM = 0 of internal nodes. -/
def Node.Ok (n : Nat) (e : Node) : Prop :=
  if e.leaf then e.l = Config.nullIdx ∧ e.r = Config.nullIdx
  else e.sym = 0 ∧ e.l.toNat < n ∧ e.r.toNat < n

/-- 10_state.md R40: no tree, or a strict binary tree with distinct leaf symbols that fills the entries in use. -/
def State.TreeInv (s : State) : Prop :=
  (s.root = Config.nullIdx ∧ s.nnode = 0 ∧ s.nodes = []) ∨
    (s.root.toNat < s.nnode.toNat ∧ s.nnode.toNat ≤ Config.nodeCap ∧ s.nodes.length = s.nnode.toNat ∧
      (visit s.nodes Config.nodeCap s.root).Perm (List.range s.nnode.toNat) ∧
      (∀ e ∈ s.nodes, e.Ok s.nnode.toNat) ∧
      ∃ t, s.tree = some t ∧ t.syms.Nodup ∧ t.syms.length ≤ 256 ∧ s.nnode.toNat = 2 * t.syms.length - 1)

/-- 10_state.md R41, R42: no code of a symbol is a prefix of another symbol's, and no code is longer than CODE_MAX. -/
def State.CodeInv (s : State) : Prop :=
  (∀ a b : Byte, a ≠ b → s.code a ≠ [] → s.code b ≠ [] → ¬ s.code a <+: s.code b) ∧
    ∀ b : Byte, (s.code b).length ≤ Config.codeMax

/-- The buffers: canonical memories inside the capacities, OUT_BUF lists its first OUT_LEN bytes (10_state.md R32, R43,
R44), and BIT_LEN is at most 8 * OUT_CAP (43_pack.md R181). -/
def State.BufferInv (s : State) : Prop :=
  s.inBuf.wf ∧ (∀ c ∈ s.inBuf, c.1 < s.inCap.toNat) ∧ s.outBuf.wf ∧
    s.outBuf.map Prod.fst = List.range s.outLen.toNat ∧ s.outLen.toNat ≤ s.outCap.toNat ∧
    s.bitLen.toNat ≤ 8 * s.outCap.toNat

/-- STATUS, ERR and ERR_INFO (10_state.md R27, R28, R29; 93_implementation_defined.md U9): reserved bits 0, BUSY and DONE
never both 1, ERRF equal to ERR ≠ 0 when idle, ERR a code of R262 other than 3, ERR_INFO 0 with ERR 0. -/
def State.StatusInv (s : State) : Prop :=
  (s.status = 0 ∨ s.status = 1 ∨ s.status = 2 ∨ s.status = 6) ∧
    (s.busy = false → (s.errf = true ↔ s.err ≠ 0)) ∧
    (∃ e : ErrCode, e ≠ .noStoredTree ∧ s.err = e.code) ∧ (s.err = 0 → s.errInfo = 0)

/-- The invariant of the block. -/
def State.Inv (s : State) : Prop :=
  s.Caps ∧ s.TableInv ∧ s.TreeInv ∧ s.CodeInv ∧ s.BufferInv ∧ s.StatusInv

/-- A command has ended without error (60_exceptions.md R269). -/
def State.Succeeded (t : State) : Prop := t.status = 2 ∧ t.err = 0 ∧ t.errInfo = 0

/-- A command has ended with error e and detail info (60_exceptions.md R270). -/
def State.Failed (t : State) (e : ErrCode) (info : Word) : Prop :=
  t.status = 6 ∧ t.err = e.code ∧ t.errInfo = info

/-- The frequency table reads the same in two states. -/
def SameTable (s t : State) : Prop :=
  t.nsym = s.nsym ∧ (∀ b, t.cnt b = s.cnt b) ∧ ∀ k, t.ord k = s.ord k

/-- The arena, ROOT and NNODE read the same in two states. -/
def SameTree (s t : State) : Prop := t.root = s.root ∧ t.nnode = s.nnode ∧ ∀ i, t.node i = s.node i

/-- The code table reads the same in two states, unspecified bits too. -/
def SameCodes (s t : State) : Prop := ∀ b, t.code b = s.code b ∧ ∀ j, t.codeBit b j = s.codeBit b j

/-- OUT_BUF and OUT_LEN read the same in two states. -/
def SameOutput (s t : State) : Prop := t.outLen = s.outLen ∧ ∀ i, t.outByte i = s.outByte i

/-- What no command writes reads the same in two states: CMD, IN_LEN, NBITS, the capacities, every byte of IN_BUF
(10_state.md R22, R23, R43), and the model's record of the outside. -/
def SameHostSide (s t : State) : Prop :=
  t.cmd = s.cmd ∧ t.inLen = s.inLen ∧ t.nbits = s.nbits ∧ t.inCap = s.inCap ∧ t.outCap = s.outCap ∧
    (∀ i, t.inByte i = s.inByte i) ∧ t.agenda = s.agenda ∧ t.hostReads = s.hostReads

/-- The empty value of a destination (60_exceptions.md R271). -/
def State.Empty (t : State) : Dest → Prop
  | .table => t.nsym = 0 ∧ ∀ b, t.cnt b = 0
  | .tree => t.root = Config.nullIdx ∧ t.nnode = 0
  | .codes => ∀ b, t.code b = []
  | .packed => t.outLen = 0 ∧ t.bitLen = 0
  | .output => t.outLen = 0
  | .nothing => True

/-- The destination of each command (60_exceptions.md R271). -/
def destOf : Instr → Dest
  | .analyze => .table
  | .build => .tree
  | .generate => .codes
  | .pack => .packed
  | .decode => .output
  | .serialize => .output
  | .deserialize => .tree
  | .illegal _ => .nothing

/-- The codes each command can end with (60_exceptions.md R265). -/
def endings : Instr → List ErrCode
  | .analyze => [.ok, .badOperand]
  | .build => [.ok, .emptyInput]
  | .generate => [.ok, .corruptTree]
  | .pack => [.ok, .unknownSymbol, .badOperand, .outOverflow]
  | .decode => [.ok, .corruptTree, .truncatedStream, .badOperand, .outOverflow]
  | .serialize => [.ok]
  | .deserialize => [.ok, .corruptTree, .badOperand]
  | .illegal _ => [.illegalCmd]

/-- The accesses that are not refused (20_memory.md R73, R75, R78, R83), written from the address map. -/
def Mapped (s : State) (w : Width) (off : Nat) : Prop :=
  (w = .b32 ∧ off % 4 = 0 ∧
      (off < 0x3C ∨ (0x1000 ≤ off ∧ off < 0x1800) ∨ (0x2000 ≤ off ∧ off < 0x3FF0) ∨
        (0x4000 ≤ off ∧ off < 0x8000))) ∨
    (w = .b8 ∧
      ((0x20000000 ≤ off ∧ off < 0x20000000 + s.inCap.toNat) ∨
        (0x40000000 ≤ off ∧ off < 0x40000000 + s.outCap.toNat)))

/-- Index i is in BUILD's forest just before entry p is made, the first n entries being the leaves: it exists and no
internal entry before p has it as a child (41_build.md R151, R152). -/
def InForest (t : State) (n p i : Nat) : Prop :=
  i < p ∧ ∀ q, n ≤ q → q < p → (t.node q).l.toNat ≠ i ∧ (t.node q).r.toNat ≠ i

/-- The pair (W, index) of i is not greater than that of j (41_build.md R153). -/
def NotAfter (t : State) (i j : Nat) : Prop :=
  (t.node i).w.toNat < (t.node j).w.toNat ∨ ((t.node i).w = (t.node j).w ∧ i ≤ j)

end Sys2Proof.Machine
end

