-- ==== Sys2Proof/Certificates/Slice0/Obligations.lean ====
section
/-!
DEFINITION. Sys2Proof/Certificates/Slice0/Obligations.lean: the statements for the provers, from the rules of spec/.
-/

open Sys2Proof Sys2Proof.Machine

/-! ## Encodings and the step -/

/-- 30_encoding.md R100, R101, R103, R104: the encoder and the decoder are inverse to each other, on every well-formed
command and on every 32-bit word. -/
def Obligations.DecodeEncodeAgree : Prop :=
  (∀ i : Instr, i.wf = true → decode (encode i) = i) ∧
    ∀ w : Word, (decode w).wf = true ∧ encode (decode w) = w

/-- 30_encoding.md R103: the whole word is compared with the seven values; any other word is ILLEGAL (R104). -/
def Obligations.CommandWordsDecode : Prop :=
  decode 0x00000001 = .analyze ∧ decode 0x00000002 = .build ∧ decode 0x00000003 = .generate ∧
    decode 0x00000004 = .pack ∧ decode 0x00000005 = .decode ∧ decode 0x00000006 = .serialize ∧
    decode 0x00000007 = .deserialize ∧
    ∀ w : Word, w.toNat = 0 ∨ 8 ≤ w.toNat → decode w = .illegal w

/-- A step of a busy block in which the engine moves is the effect of the command that CMD spells, on the state as it
stands (10_state.md R46, 20_memory.md R85); the agenda's form is the model's (log 2, log 3). -/
def Obligations.StepRunsTheCommandInCmd : Prop :=
  (∀ s : State, s.busy = true → s.agenda = [] → step s = exec (decode s.cmd) s) ∧
    (∀ (s : State) (rest : List Event), s.busy = true → s.agenda = .engine :: rest →
      step s = exec (decode s.cmd) { s with agenda := rest }) ∧
    ∀ (s : State) (nbits w : Nat),
      step (s.withFetchWord nbits w) = exec (decode (BitVec.ofNat 32 w)) (s.start (BitVec.ofNat 32 w))

/-- 60_exceptions.md R268: a CMD write of an idle block stores the word, sets BUSY, clears DONE and ERRF; ERR and ERR_INFO
keep their old values; the command the word spells then runs on the state as it stands, when the engine moves (log 1). -/
def Obligations.CmdWriteStartsTheCommand : Prop :=
  ∀ (s : State) (rest : List Event) (w : Word),
    s.agenda = .host (.write .b32 0x08 w) :: rest → s.busy = false →
      ∃ t, step s = .next t ∧ t.cmd = w ∧ t.busy = true ∧ t.done = false ∧ t.errf = false ∧ t.err = s.err ∧
        t.errInfo = s.errInfo ∧ t = { s with agenda := rest, cmd := w, status := 1 } ∧
        ∀ later, rest = .engine :: later → step t = exec (decode w) { t with agenda := later }

/-- 70_reset_and_hazards.md R302: after reset the block is idle, an idle block left alone does not change, and the only
event that makes an idle block busy is a write of CMD; nothing else the host can do changes anything but IN_LEN, NBITS and
IN_BUF (and the model's record of the host's reads). -/
def Obligations.IdleUntilCmdWrite : Prop :=
  State.reset.busy = false ∧ (∀ s : State, s.busy = false → s.agenda = [] → step s = .next s) ∧
    ∀ (s t : State) (e : Event) (rest : List Event), s.busy = false → s.agenda = e :: rest → e ≠ .reset →
      step s = .next t →
        (t.busy = true ∧ ∃ w, e = .host (.write .b32 0x08 w)) ∨
          (t.busy = false ∧
            t = { s with agenda := rest, inLen := t.inLen, nbits := t.nbits, inBuf := t.inBuf, hostReads := t.hostReads })

/-- 20_memory.md R85: while BUSY every host write is discarded; STATUS (which reads 1), ID, VERSION, IN_CAP and OUT_CAP read
as their values; every other read returns some value and changes nothing (the model counts a draw, log 10). -/
def Obligations.BusyLock : Prop :=
  ∀ (s : State) (rest : List Event), s.status = 1 →
    (∀ w off v, Mapped s w off → s.agenda = .host (.write w off v) :: rest → step s = .next { s with agenda := rest }) ∧
      (∀ off v, (off, v) ∈ [(0x0C, (1 : Word)), (0x00, 0x48554646), (0x04, 0x00010000), (0x34, s.inCap),
          (0x38, s.outCap)] → s.agenda = .host (.read .b32 off) :: rest →
        step s = .next { s with agenda := rest, hostReads := v :: s.hostReads }) ∧
      ∀ w off, Mapped s w off → w = .b8 ∨ off ∉ [0x0C, 0x00, 0x04, 0x34, 0x38] →
        s.agenda = .host (.read w off) :: rest →
          ∃ v, step s = .next { s with agenda := rest, hostReads := v :: s.hostReads, draws := s.draws + 1 }

/-- 60_exceptions.md R281, 70_reset_and_hazards.md R307: no host access ends, changes or restarts a running command; a step
that ends it is the engine's completion or a reset. -/
def Obligations.OnlyCompletionOrResetEndsACommand : Prop :=
  ∀ s t : State, s.busy = true → step s = .next t →
    (s.agenda = [] ∧ exec (decode s.cmd) s = .next t) ∨
      (∃ rest, s.agenda = .engine :: rest ∧ exec (decode s.cmd) { s with agenda := rest } = .next t) ∨
      (∃ rest, s.agenda = .reset :: rest ∧ t = { s with agenda := rest }.pulseReset) ∨
      (t.busy = true ∧ t = { s with agenda := t.agenda, hostReads := t.hostReads, draws := t.draws })

/-! ## The host port -/

/-- 10_state.md R24, R25: ID and VERSION read as their constants in every state, busy or idle. -/
def Obligations.IdAndVersionAreConstant : Prop :=
  ∀ (s : State) (rest : List Event),
    (s.agenda = .host (.read .b32 0x00) :: rest →
      step s = .next { s with agenda := rest, hostReads := 0x48554646 :: s.hostReads }) ∧
      (s.agenda = .host (.read .b32 0x04) :: rest →
        step s = .next { s with agenda := rest, hostReads := 0x00010000 :: s.hostReads })

/-- 10_state.md R22, R26 to R36: the register map as an idle block answers it; reserved bits read 0. -/
def Obligations.RegisterMapReads : Prop :=
  ∀ (s : State) (rest : List Event) (off : Nat) (v : Word), s.busy = false →
    (off, v) ∈ [(0x08, s.cmd), (0x0C, s.status), (0x10, s.err), (0x14, s.errInfo), (0x18, s.inLen), (0x1C, s.nbits),
      (0x20, s.outLen), (0x24, s.bitLen), (0x28, s.nsym.setWidth 32), (0x2C, s.root.setWidth 32),
      (0x30, s.nnode.setWidth 32), (0x34, s.inCap), (0x38, s.outCap)] →
    s.agenda = .host (.read .b32 off) :: rest →
      step s = .next { s with agenda := rest, hostReads := v :: s.hostReads }

/-- 10_state.md R21, R22, R30, R31; 20_memory.md R76, R77, R79, R81: an idle block stores a write to IN_LEN and NBITS as it
is, and discards one to a read-only register, a table window or OUT_BUF. -/
def Obligations.HostWritesReachOnlyWritableRegisters : Prop :=
  ∀ (s : State) (rest : List Event) (v : Word), s.busy = false →
    (s.agenda = .host (.write .b32 0x18 v) :: rest → step s = .next { s with agenda := rest, inLen := v }) ∧
      (s.agenda = .host (.write .b32 0x1C v) :: rest → step s = .next { s with agenda := rest, nbits := v }) ∧
      ∀ w off, Mapped s w off → off ∉ [0x08, 0x18, 0x1C] → (w = .b8 → 0x40000000 ≤ off) →
        s.inCap.toNat ≤ Config.capMax → s.agenda = .host (.write w off v) :: rest →
          step s = .next { s with agenda := rest }

/-- 20_memory.md R72, R80: HostBufWrite(i, b) of an idle block stores b at IN_BUF[i] and leaves every other byte, and a
HostInRead(i) that follows returns it. -/
def Obligations.BufWriteThenInReadReturnsTheByte : Prop :=
  ∀ (s : State) (rest : List Event) (i : Nat) (b : Byte), s.busy = false → i < s.inCap.toNat →
    s.agenda = .host (.write .b8 (0x20000000 + i) (b.setWidth 32)) :: .host (.read .b8 (0x20000000 + i)) :: rest →
      ∃ t u, step s = .next t ∧ t.inByte i = b ∧ (∀ j, j ≠ i → t.inByte j = s.inByte j) ∧
        t = { s with agenda := t.agenda, inBuf := t.inBuf } ∧ step t = .next u ∧
        u = { t with agenda := rest, hostReads := b.setWidth 32 :: t.hostReads }

/-- 20_memory.md R73, R78, R83, R84: an access is refused exactly when it is unmapped, not of its region's width or not
aligned to it. That this holds while BUSY too is the model's inference (log 9): 70_reset_and_hazards.md R306 names the
refusal for an idle block and gives 20_memory.md R85 for a busy one. -/
def Obligations.RefusedExactlyOutsideTheMap : Prop :=
  ∀ (s : State) (rest : List Event) (w : Width) (off : Nat) (v : Word),
    (s.agenda = .host (.read w off) :: rest → ((∃ r, step s = .refused r) ↔ ¬ Mapped s w off)) ∧
      (s.agenda = .host (.write w off v) :: rest → ((∃ r, step s = .refused r) ↔ ¬ Mapped s w off))

/-- 20_memory.md R76: the FT windows; at and beyond NSYM the low 8 bits of an FT_ORD word are unspecified and bits 31:8 are
0; a write is discarded. -/
def Obligations.FrequencyWindows : Prop :=
  ∀ (s : State) (rest : List Event) (k : Nat), s.busy = false → k < 256 →
    (s.agenda = .host (.read .b32 (0x1000 + 4 * k)) :: rest →
      step s = .next { s with agenda := rest, hostReads := s.cnt (BitVec.ofNat 8 k) :: s.hostReads }) ∧
      (s.agenda = .host (.read .b32 (0x1400 + 4 * k)) :: rest →
        ∃ b : Byte, (∀ c, s.ftOrd[k]? = some c → b = c) ∧
          step s = .next { s with agenda := rest, hostReads := b.setWidth 32 :: s.hostReads }) ∧
      ∀ v off, (off = 0x1000 + 4 * k ∨ off = 0x1400 + 4 * k) → s.agenda = .host (.write .b32 off v) :: rest →
        step s = .next { s with agenda := rest }

/-- 20_memory.md R77: the four words of an arena entry; the bits beside the fields read 0, at and beyond NNODE too; entry
511 is unmapped; a write is discarded. -/
def Obligations.NodeWindow : Prop :=
  ∀ (s : State) (rest : List Event) (i w : Nat), s.busy = false → i ≤ 510 → w < 4 →
    (s.agenda = .host (.read .b32 (0x2000 + 16 * i + 4 * w)) :: rest →
      ∃ (n : Node) (v : Word), (∀ m, s.nodes[i]? = some m → n = m) ∧
        step s = .next { s with agenda := rest, hostReads := v :: s.hostReads } ∧
        (w = 0 → v = n.w) ∧
        (w = 1 → v.extractLsb' 0 8 = n.sym ∧ v.getLsbD 8 = n.leaf ∧ v.extractLsb' 9 23 = 0) ∧
        (w = 2 → v.extractLsb' 0 9 = n.l ∧ v.extractLsb' 9 23 = 0) ∧
        (w = 3 → v.extractLsb' 0 9 = n.r ∧ v.extractLsb' 9 23 = 0)) ∧
      (∀ v, s.agenda = .host (.write .b32 (0x2000 + 16 * i + 4 * w) v) :: rest →
        step s = .next { s with agenda := rest }) ∧
      (s.agenda = .host (.read .b32 (0x3FF0 + 4 * w)) :: rest → ∃ r, step s = .refused r)

/-- 20_memory.md R79: the sixteen words of a code: LEN, the code bits with bit j at bit 31 - (j mod 32) of word 1 + (j div
32), then zeros; bits at and beyond LEN are whatever they are; a write is discarded. -/
def Obligations.CodeWindow : Prop :=
  ∀ (s : State) (rest : List Event) (b : Byte) (w : Nat), s.busy = false → (s.code b).length ≤ Config.codeMax → w < 16 →
    (s.agenda = .host (.read .b32 (0x4000 + 64 * b.toNat + 4 * w)) :: rest →
      ∃ v : Word, step s = .next { s with agenda := rest, hostReads := v :: s.hostReads } ∧
        (w = 0 → v.toNat = (s.code b).length) ∧
        (∀ j, j < (s.code b).length → w = 1 + j / 32 → (s.code b)[j]? = some (v.getLsbD (31 - j % 32))) ∧
        (9 ≤ w → v = 0)) ∧
      ∀ v, s.agenda = .host (.write .b32 (0x4000 + 64 * b.toNat + 4 * w) v) :: rest →
        step s = .next { s with agenda := rest }

/-- 20_memory.md R72, R84: a read of an idle block changes nothing but what the host has received, and the same read again
returns the same value, unspecified locations included. -/
def Obligations.ReadsAreIdempotentWhileIdle : Prop :=
  ∀ (s : State) (rest : List Event) (w : Width) (off : Nat), s.busy = false → Mapped s w off →
    s.agenda = .host (.read w off) :: .host (.read w off) :: rest →
      ∃ v t, step s = .next t ∧ t = { s with agenda := .host (.read w off) :: rest, hostReads := v :: s.hostReads } ∧
        step t = .next { s with agenda := rest, hostReads := v :: v :: s.hostReads }

/-! ## Reset -/

/-- 10_state.md R49: the reset values. The spec's "unspecified" entries are not constrained: nothing is said of FT_ORD, NODE,
code bits, IN_BUF and OUT_BUF. The default capacities are 00_scope.md R6's. -/
def Obligations.ResetValues : Prop :=
  let s := State.reset
  s.readReg .id = 0x48554646 ∧ s.readReg .version = 0x00010000 ∧ s.inCap = 65536 ∧ s.outCap = 65536 ∧
    s.cmd = 0 ∧ s.status = 0 ∧ s.busy = false ∧ s.done = false ∧ s.errf = false ∧ s.err = 0 ∧ s.errInfo = 0 ∧
    s.inLen = 0 ∧ s.nbits = 0 ∧ s.outLen = 0 ∧ s.bitLen = 0 ∧ s.nsym = 0 ∧ (∀ b, s.cnt b = 0) ∧
    s.root = 0x1FF ∧ s.nnode = 0 ∧ ∀ b, s.code b = []

/-- 70_reset_and_hazards.md R300, R301: a reset in any state, a running command's too, leaves the reset values of 10_state.md
R49 and reports no error; the capacities are constants. -/
def Obligations.ResetAtAnyTime : Prop :=
  ∀ (s : State) (rest : List Event), s.agenda = .reset :: rest →
    ∃ t, step s = .next t ∧ t.inCap = s.inCap ∧ t.outCap = s.outCap ∧ t.cmd = 0 ∧ t.status = 0 ∧ t.err = 0 ∧
      t.errInfo = 0 ∧ t.inLen = 0 ∧ t.nbits = 0 ∧ t.outLen = 0 ∧ t.bitLen = 0 ∧ t.nsym = 0 ∧ (∀ b, t.cnt b = 0) ∧
      t.root = 0x1FF ∧ t.nnode = 0 ∧ ∀ b, t.code b = []

/-! ## Invariants -/

/-- The block's invariant holds at reset (10_state.md R27, R32, R38, R40, R42 "true after reset"). -/
def Obligations.InvAtReset : Prop := State.reset.Inv

/-- Every step keeps the block's invariant: R38, R40, R42 "and after every command", R32 "always", R27. -/
def Obligations.StepKeepsInv : Prop := ∀ s t : State, s.Inv → step s = .next t → t.Inv

/-- 10_state.md R38 (a), (b): NSYM counts the symbols with a count, FT_ORD lists exactly those, each once. -/
def Obligations.StepKeepsFrequencyTable : Prop :=
  ∀ s t : State, s.Caps → s.TableInv → step s = .next t → t.TableInv

/-- 10_state.md R40: no tree, or one strict binary tree with distinct leaf symbols that fills the entries in use. -/
def Obligations.StepKeepsTree : Prop :=
  ∀ s t : State, s.Caps → s.TableInv → s.TreeInv → step s = .next t → t.TreeInv

/-- 10_state.md R41, R42: the codes of distinct symbols are prefix-free and at most 255 bits long. -/
def Obligations.StepKeepsCodesPrefixFree : Prop :=
  ∀ s t : State, s.TreeInv → s.CodeInv → step s = .next t → t.CodeInv

/-- 10_state.md R32, R44; 20_memory.md R86: the buffers keep their canonical form and their bounds, 0 ≤ OUT_LEN ≤ OUT_CAP. -/
def Obligations.StepKeepsBuffers : Prop :=
  ∀ s t : State, s.Caps → s.TreeInv → s.BufferInv → step s = .next t → t.BufferInv

/-- 10_state.md R27, R28, R29; 60_exceptions.md R264: STATUS keeps a legal value, ERRF equals ERR ≠ 0 when idle, ERR is never
3 and never above 8, ERR_INFO is 0 with ERR 0. -/
def Obligations.StepKeepsStatus : Prop := ∀ s t : State, s.StatusInv → step s = .next t → t.StatusInv

/-- 60_exceptions.md R281: every command runs to completion. Under the tree invariant (10_state.md R40) no command sticks:
it answers a next state, and that state is idle with DONE set. -/
def Obligations.EveryCommandCompletes : Prop :=
  ∀ (i : Instr) (s : State), s.TreeInv → ∃ t, exec i s = .next t ∧ t.busy = false ∧ t.done = true

/-! ## ANALYZE and BUILD -/

/-- 40_analyze.md R142 with R141's completion: after a successful ANALYZE the counts are the numbers of occurrences and sum
to IN_LEN, and FT_ORD lists the symbols that occur, each once, in order of first occurrence. -/
def Obligations.AnalyzeCountsTheInput : Prop :=
  ∀ s : State, s.Caps → s.inLen.toNat ≤ s.inCap.toNat →
    ∃ t, exec .analyze s = .next t ∧ t.Succeeded ∧ t.total = s.inLen.toNat ∧
      (∀ b, (t.cnt b).toNat = s.input.count b) ∧ (∀ b, 1 ≤ (t.cnt b).toNat ↔ b ∈ s.input) ∧
      t.ftOrd.length = t.nsym.toNat ∧ t.ftOrd.Nodup ∧ (∀ b, b ∈ t.ftOrd ↔ b ∈ s.input) ∧
      t.ftOrd.Pairwise (fun a b => s.input.idxOf a < s.input.idxOf b)

/-- 60_exceptions.md R267: each command that reads IN_BUF ends with BAD_OPERAND, ERR_INFO = IN_LEN, when IN_LEN exceeds
IN_CAP, and only then. -/
def Obligations.BadOperandExactlyBeyondInCap : Prop :=
  ∀ (s : State) (i : Instr), i ∈ [Instr.analyze, .pack, .decode, .deserialize] →
    (s.inCap.toNat < s.inLen.toNat →
      ∃ t, exec i s = .next t ∧ t.Failed .badOperand s.inLen ∧ t.Empty (destOf i)) ∧
      (s.inLen.toNat ≤ s.inCap.toNat → ∀ t, exec i s = .next t → t.err ≠ ErrCode.badOperand.code)

/-- 41_build.md R152, 60_exceptions.md R271: BUILD of the empty table raises EMPTY_INPUT and clears the tree, whatever was
there before. -/
def Obligations.BuildRejectsTheEmptyTable : Prop :=
  ∀ s : State, s.nsym = 0 →
    ∃ t, exec .build s = .next t ∧ t.Failed .emptyInput 0 ∧ t.root = 0x1FF ∧ t.nnode = 0

/-- 41_build.md R156: the shape of BUILD's result; the root's weight is the sum of all counts, which after ANALYZE is the
length of the input; clause (d) of 10_state.md R40 holds. -/
def Obligations.BuildShape : Prop :=
  ∀ s : State, s.TableInv → 1 ≤ s.nsym.toNat →
    ∃ t, exec .build s = .next t ∧ t.Succeeded ∧ t.nnode.toNat = 2 * s.nsym.toNat - 1 ∧
      t.root.toNat = 2 * s.nsym.toNat - 2 ∧
      (∀ k, k < s.nsym.toNat → ∃ b, s.ftOrd[k]? = some b ∧ t.nodes[k]? =
        some { leaf := true, sym := b, w := s.cnt b, l := 0x1FF, r := 0x1FF }) ∧
      (∀ p, s.nsym.toNat ≤ p → p ≤ 2 * s.nsym.toNat - 2 →
        (t.node p).leaf = false ∧ (t.node p).l.toNat < p ∧ (t.node p).r.toNat < p) ∧
      (t.node t.root.toNat).w.toNat = s.total ∧ t.TreeInv ∧ (∃ tree, t.tree = some tree ∧ tree.Weighted) ∧
      ∀ r : State, r.Caps → r.inLen.toNat ≤ r.inCap.toNat → exec .analyze r = .next s → s.total = r.inLen.toNat

/-- 41_build.md R152, R153, R154: every internal entry was made from the two members of the forest with the smallest pairs
(W, index), the first as left child, and has the sum of their weights. -/
def Obligations.BuildMergesTheTwoLightest : Prop :=
  ∀ s : State, s.TableInv → 1 ≤ s.nsym.toNat →
    ∃ t, exec .build s = .next t ∧ t.Succeeded ∧
      ∀ p, s.nsym.toNat ≤ p → p ≤ 2 * s.nsym.toNat - 2 →
        let a := (t.node p).l.toNat
        let b := (t.node p).r.toNat
        InForest t s.nsym.toNat p a ∧ InForest t s.nsym.toNat p b ∧ a ≠ b ∧
          (∀ i, InForest t s.nsym.toNat p i → NotAfter t a i) ∧
          (∀ i, InForest t s.nsym.toNat p i → i ≠ a → NotAfter t b i) ∧
          (t.node p).w.toNat = (t.node a).w.toNat + (t.node b).w.toNat

/-- 40_analyze.md R143: ANALYZE is a function of IN_LEN and the bytes (and the capacity), whatever the block did before. -/
def Obligations.AnalyzeIsAFunctionOfTheInput : Prop :=
  ∀ s s' t t' : State, s.inLen = s'.inLen → s.inCap = s'.inCap → s.input = s'.input →
    exec .analyze s = .next t → exec .analyze s' = .next t' →
      t.ftCnt = t'.ftCnt ∧ t.ftOrd = t'.ftOrd ∧ t.nsym = t'.nsym ∧ t.err = t'.err ∧ t.errInfo = t'.errInfo

/-- 41_build.md R157: BUILD is a function of NSYM, FT_ORD[0..NSYM-1] and the counts of those symbols: the same operands give
the same arena entry for entry, so the same tree and the same codes; the same counts in another insertion order can give
another tree. -/
def Obligations.BuildIsAFunctionOfTheOrderedTable : Prop :=
  (∀ s s' t t' : State, s.nsym = s'.nsym → (∀ k, k < s.nsym.toNat → s.ord k = s'.ord k) →
    (∀ k, k < s.nsym.toNat → s.cnt (s.ord k) = s'.cnt (s'.ord k)) →
    exec .build s = .next t → exec .build s' = .next t' →
      t.nodes = t'.nodes ∧ t.root = t'.root ∧ t.nnode = t'.nnode ∧ t.err = t'.err ∧ t.errInfo = t'.errInfo ∧
        t.tree = t'.tree ∧
        ∀ g g', exec .generate t = .next g → exec .generate t' = .next g' → g.ct = g'.ct) ∧
    ∃ s s' t t' : State, s.TableInv ∧ s'.TableInv ∧ s.ftCnt = s'.ftCnt ∧ exec .build s = .next t ∧
      exec .build s' = .next t' ∧ t.tree ≠ t'.tree

/-! ## GENERATE -/

/-- 42_generate.md R169 with R166's completion: codes exactly for the leaves' symbols, each its leaf's path, prefix-free and,
for an internal root, complete. -/
def Obligations.GenerateRecordsThePaths : Prop :=
  ∀ (s : State) (tree : Tree), s.TreeInv → s.noTree = false → s.tree = some tree →
    ∃ t, exec .generate s = .next t ∧ t.Succeeded ∧ (∀ b, t.code b ≠ [] ↔ b ∈ tree.syms) ∧
      (tree.isLeaf = false → ∀ (b : Byte) (p : Bits), tree.HasLeaf p b ↔ b ∈ tree.syms ∧ t.code b = p) ∧
      (∀ a b, a ≠ b → t.code a ≠ [] → t.code b ≠ [] → ¬ t.code a <+: t.code b) ∧
      (tree.isLeaf = false → ∀ f : Nat → Bool, ∃ b, t.code b ≠ [] ∧ t.code b = (List.range (t.code b).length).map f ∧
        ∀ c, t.code c ≠ [] → t.code c = (List.range (t.code c).length).map f → c = b)

/-- 42_generate.md R167: the tree that is one leaf gets the one-bit code "0"; every other symbol has no code. -/
def Obligations.GenerateSingleLeafCode : Prop :=
  ∀ (s : State) (b : Byte) (w : Word), s.noTree = false → s.tree = some (.leaf b w) →
    ∃ t, exec .generate s = .next t ∧ t.Succeeded ∧ t.code b = [false] ∧ ∀ c, c ≠ b → t.code c = []

/-- 42_generate.md R168: a null root raises CORRUPT_TREE and the code table is cleared. -/
def Obligations.GenerateNullRoot : Prop :=
  ∀ s : State, s.root = 0x1FF →
    ∃ t, exec .generate s = .next t ∧ t.Failed .corruptTree 0 ∧ ∀ b, t.code b = []

/-! ## PACK -/

/-- 43_pack.md R184, 30_encoding.md R107, with R181's completion: the result is the concatenation of the codes in input
order, most significant bit first, with zero pad bits. -/
def Obligations.PackWritesTheBitstream : Prop :=
  ∀ s : State, s.Caps → s.inLen.toNat ≤ s.inCap.toNat → (∀ b ∈ s.input, s.code b ≠ []) →
    (s.input.flatMap s.code).length ≤ 8 * s.outCap.toNat →
    ∃ t, exec .pack s = .next t ∧ t.Succeeded ∧ t.bitLen.toNat = (s.input.flatMap s.code).length ∧
      t.outLen.toNat = ((s.input.flatMap s.code).length + 7) / 8 ∧
      (∀ j, j < t.bitLen.toNat →
        (s.input.flatMap s.code)[j]? = some ((t.outByte (j / 8)).getLsbD (7 - j % 8))) ∧
      ∀ j, t.bitLen.toNat ≤ j → j < 8 * t.outLen.toNat → (t.outByte (j / 8)).getLsbD (7 - j % 8) = false

/-- 43_pack.md R182, R183, 60_exceptions.md R272: the first failing test in input order decides; UNKNOWN_SYMBOL is tested
before OUT_OVERFLOW at one index; ERR_INFO is the index; OUT_LEN and BIT_LEN are 0. -/
def Obligations.PackReportsTheFirstFailure : Prop :=
  ∀ (s : State) (i : Nat) (b : Byte), s.inLen.toNat ≤ s.inCap.toNat → s.input[i]? = some b →
    (∀ c ∈ s.input.take i, s.code c ≠ []) → ((s.input.take i).flatMap s.code).length ≤ 8 * s.outCap.toNat →
    (s.code b = [] →
      ∃ t, exec .pack s = .next t ∧ t.Failed .unknownSymbol (BitVec.ofNat 32 i) ∧ t.outLen = 0 ∧ t.bitLen = 0) ∧
      (s.code b ≠ [] → 8 * s.outCap.toNat < ((s.input.take i).flatMap s.code).length + (s.code b).length →
        ∃ t, exec .pack s = .next t ∧ t.Failed .outOverflow (BitVec.ofNat 32 i) ∧ t.outLen = 0 ∧ t.bitLen = 0)

/-- 43_pack.md R185: PACK reads IN_LEN, the bytes and the code table (and the capacities), not the tree nor the frequency
table nor what it did before: the same operands give the same result. -/
def Obligations.PackDependsOnlyOnItsOperands : Prop :=
  ∀ s s' t t' : State, s.inLen = s'.inLen → s.inCap = s'.inCap → s.outCap = s'.outCap → s.input = s'.input →
    s.ct = s'.ct → exec .pack s = .next t → exec .pack s' = .next t' →
      t.outBuf = t'.outBuf ∧ t.outLen = t'.outLen ∧ t.bitLen = t'.bitLen ∧ t.err = t'.err ∧ t.errInfo = t'.errInfo

/-! ## DECODE -/

/-- 44_decode.md R197, R202: with an internal root, NBITS bits that are the paths of leaves in a row decode to those leaves'
symbols. -/
def Obligations.DecodeEmitsTheLeavesOnThePaths : Prop :=
  ∀ (s : State) (tree : Tree) (xs : List (Byte × Bits)), s.TreeInv → s.noTree = false → s.tree = some tree →
    tree.isLeaf = false → s.inLen.toNat ≤ s.inCap.toNat → s.nbits.toNat ≤ 8 * s.inLen.toNat →
    (∀ x ∈ xs, tree.HasLeaf x.2 x.1) → s.inBits s.nbits.toNat = xs.flatMap Prod.snd → xs.length ≤ s.outCap.toNat →
      ∃ t, exec .decode s = .next t ∧ t.Succeeded ∧ t.outLen.toNat = xs.length ∧ t.output = xs.map Prod.fst

/-- 44_decode.md R198: with a leaf root DECODE emits the root's symbol once for each of the NBITS bits, whatever they are;
OUT_OVERFLOW at bit OUT_CAP when they are more than OUT_CAP. -/
def Obligations.DecodeSingleLeaf : Prop :=
  ∀ (s : State) (b : Byte) (w : Word), s.noTree = false → s.tree = some (.leaf b w) →
    s.inLen.toNat ≤ s.inCap.toNat → s.nbits.toNat ≤ 8 * s.inLen.toNat →
    (s.nbits.toNat ≤ s.outCap.toNat →
      ∃ t, exec .decode s = .next t ∧ t.Succeeded ∧ t.outLen = s.nbits ∧ t.output = List.replicate s.nbits.toNat b) ∧
      (s.outCap.toNat < s.nbits.toNat →
        ∃ t, exec .decode s = .next t ∧ t.Failed .outOverflow s.outCap ∧ t.outLen = 0)

/-- 44_decode.md R199: (a) more bits asked for than the buffer holds; (b) bits that end in the middle of a code. Nothing is
delivered in either case. -/
def Obligations.DecodeTruncatedStream : Prop :=
  (∀ s : State, s.noTree = false → s.inLen.toNat ≤ s.inCap.toNat → s.inCap.toNat ≤ Config.capMax →
    8 * s.inLen.toNat < s.nbits.toNat →
      ∃ t, exec .decode s = .next t ∧ t.outLen = 0 ∧ t.status = 6 ∧ t.err = 5 ∧ t.errInfo.toNat = 8 * s.inLen.toNat) ∧
    ∀ (s : State) (tree : Tree) (xs : List (Byte × Bits)) (p q : Bits) (b : Byte), s.TreeInv → s.noTree = false →
      s.tree = some tree → tree.isLeaf = false → s.inLen.toNat ≤ s.inCap.toNat → s.nbits.toNat ≤ 8 * s.inLen.toNat →
      (∀ x ∈ xs, tree.HasLeaf x.2 x.1) → tree.HasLeaf (p ++ q) b → p ≠ [] → q ≠ [] →
      s.inBits s.nbits.toNat = xs.flatMap Prod.snd ++ p → xs.length ≤ s.outCap.toNat →
        ∃ t, exec .decode s = .next t ∧ t.Failed .truncatedStream s.nbits ∧ t.outLen = 0

/-- 44_decode.md R197, 60_exceptions.md R263: with an internal root, the bit that completes symbol number OUT_CAP + 1 raises
OUT_OVERFLOW with its index, whatever follows it. -/
def Obligations.DecodeOverflowAtTheCompletingBit : Prop :=
  ∀ (s : State) (tree : Tree) (xs : List (Byte × Bits)) (rest : Bits), s.TreeInv → s.noTree = false →
    s.tree = some tree → tree.isLeaf = false → s.inLen.toNat ≤ s.inCap.toNat → s.nbits.toNat ≤ 8 * s.inLen.toNat →
    (∀ x ∈ xs, tree.HasLeaf x.2 x.1) → s.inBits s.nbits.toNat = xs.flatMap Prod.snd ++ rest →
    xs.length = s.outCap.toNat + 1 →
      ∃ t, exec .decode s = .next t ∧ t.err = ErrCode.outOverflow.code ∧ t.status = 6 ∧ t.outLen = 0 ∧
        t.errInfo.toNat + 1 = (xs.flatMap Prod.snd).length

/-- 60_exceptions.md R272, 44_decode.md R201: DECODE tests BAD_OPERAND, then the null root, then NBITS. -/
def Obligations.DecodeTestsInOrder : Prop :=
  ∀ s : State,
    (s.inCap.toNat < s.inLen.toNat →
      ∃ t, exec .decode s = .next t ∧ t.Failed .badOperand s.inLen ∧ t.outLen = 0) ∧
      (s.inLen.toNat ≤ s.inCap.toNat → s.root = 0x1FF →
        ∃ t, exec .decode s = .next t ∧ t.Failed .corruptTree 0 ∧ t.outLen = 0) ∧
      (s.inLen.toNat ≤ s.inCap.toNat → s.root ≠ 0x1FF → 8 * s.inLen.toNat < s.nbits.toNat →
        ∃ t, exec .decode s = .next t ∧ t.Failed .truncatedStream (BitVec.ofNat 32 (8 * s.inLen.toNat)) ∧ t.outLen = 0)

/-- 30_encoding.md R108, 44_decode.md R197 (c), (d): bits of IN_BUF at positions at and beyond NBITS do not matter to
DECODE. -/
def Obligations.DecodeIgnoresPadBits : Prop :=
  ∀ (s : State) (buf : Memory) (fill : Nat),
    (∀ j, j < s.nbits.toNat → { s with inBuf := buf, inFill := fill }.inBit j = s.inBit j) →
      ∀ t t', exec .decode s = .next t → exec .decode { s with inBuf := buf, inFill := fill } = .next t' →
        t' = { t with inBuf := buf, inFill := fill }

/-! ## SERIALIZE and DESERIALIZE -/

/-- 45_treecodec.md R216, 30_encoding.md R115 to R119: SERIALIZE writes the pre-order records of the tree, 15n - 6 bytes for
n leaves. -/
def Obligations.SerializeWritesTheRecords : Prop :=
  ∀ (s : State) (tree : Tree), s.Caps → s.TreeInv → s.noTree = false → s.tree = some tree →
    ∃ t, exec .serialize s = .next t ∧ t.Succeeded ∧ t.output = tree.bytes ∧
      t.outLen.toNat = 15 * tree.syms.length - 6 ∧ t.outLen.toNat ≤ s.outCap.toNat ∧
      (∀ b w, tree = .leaf b w → tree.bytes =
        [0x01, 0x01, b, w.extractLsb' 24 8, w.extractLsb' 16 8, w.extractLsb' 8 8, w.extractLsb' 0 8, 0x00, 0x00]) ∧
      ∀ w l r, tree = .node w l r → tree.bytes =
        [0x01, 0x00, w.extractLsb' 24 8, w.extractLsb' 16 8, w.extractLsb' 8 8, w.extractLsb' 0 8] ++ l.bytes ++ r.bytes

/-- 45_treecodec.md R217: the serialization of no tree is the one byte 00. -/
def Obligations.SerializeNullRoot : Prop :=
  ∀ s : State, s.root = 0x1FF →
    ∃ t, exec .serialize s = .next t ∧ t.Succeeded ∧ t.outLen = 1 ∧ t.outByte 0 = 0x00

/-- 45_treecodec.md R221, R222, R225: DESERIALIZE accepts exactly the serializations of the null tree and of the trees with
distinct leaf symbols; anything else raises CORRUPT_TREE and leaves no tree. -/
def Obligations.DeserializeAcceptsExactlyTrees : Prop :=
  ∀ s : State, s.inLen.toNat ≤ s.inCap.toNat →
    (∀ tree : Tree, tree.syms.Nodup → s.input = tree.bytes →
      ∃ t, exec .deserialize s = .next t ∧ t.Succeeded ∧ t.noTree = false ∧ t.tree = some tree ∧ t.TreeInv) ∧
      (s.input = [0x00] →
        ∃ t, exec .deserialize s = .next t ∧ t.Succeeded ∧ t.root = 0x1FF ∧ t.nnode = 0) ∧
      (s.input ≠ [0x00] → (∀ tree : Tree, tree.syms.Nodup → s.input ≠ tree.bytes) →
        ∃ t, exec .deserialize s = .next t ∧ t.Failed .corruptTree 0 ∧ t.root = 0x1FF ∧ t.nnode = 0)

/-- 45_treecodec.md R223: after DESERIALIZE the root is entry 0 and an internal entry i has L = i + 1 and R = i + 1 + the
number of nodes of its left subtree; and GENERATE, DECODE and SERIALIZE give the same results for structurally equal trees,
wherever the arena has them. -/
def Obligations.ArenaPlacement : Prop :=
  (∀ s t : State, exec .deserialize s = .next t → t.err = 0 → t.noTree = false →
    t.root = 0 ∧ ∀ i n, t.nodes[i]? = some n → n.leaf = false →
      ∃ l, treeAt t.nodes Config.nodeCap n.l = some l ∧ n.l.toNat = i + 1 ∧ n.r.toNat = i + 1 + l.size) ∧
    ∀ (s : State) (nodes : List Node) (root : Idx) (nnode : BitVec 10) (fill : Nat),
      let s' := { s with nodes := nodes, root := root, nnode := nnode, nodeFill := fill }
      s.TreeInv → s'.TreeInv → s.noTree = s'.noTree → (s.noTree = false → s.tree = s'.tree) →
        ∀ i ∈ [Instr.generate, .decode, .serialize], ∃ t t', exec i s = .next t ∧ exec i s' = .next t' ∧
          t' = { t with nodes := nodes, root := root, nnode := nnode, nodeFill := fill }

/-- 45_treecodec.md R226: SERIALIZE, then DESERIALIZE of the output bytes, gives a structurally equal tree (or none for none),
and a second SERIALIZE the same bytes. -/
def Obligations.TreeRoundTrip : Prop :=
  ∀ s : State, s.Caps → s.TreeInv →
    ∃ t, exec .serialize s = .next t ∧ t.Succeeded ∧
      ∀ u : State, u.Caps → u.inLen = t.outLen → u.input = t.output →
        ∃ v, exec .deserialize u = .next v ∧ v.Succeeded ∧ v.TreeInv ∧ v.noTree = s.noTree ∧
          (s.noTree = false → v.tree = s.tree) ∧
          ∃ x, exec .serialize v = .next x ∧ x.Succeeded ∧ x.outLen = t.outLen ∧ x.output = t.output

/-! ## ILLEGAL, frames, errors -/

/-- 30_encoding.md R104: every other word, written to CMD, completes with ILLEGAL_CMD and the word; CMD holds it; nothing is
cleared and nothing else is written. -/
def Obligations.IllegalCommandWord : Prop :=
  ∀ (s : State) (w : Word),
    exec (.illegal w) s = .next { s with status := 6, err := 6, errInfo := w } ∧
      (w.toNat = 0 ∨ 8 ≤ w.toNat → decode w = .illegal w ∧
        ∀ later, s.busy = false → s.agenda = .host (.write .b32 0x08 w) :: .engine :: later →
          ∃ t, step s = .next t ∧
            step t = .next { s with agenda := later, cmd := w, status := 6, err := 6, errInfo := w })

/-- What ANALYZE, BUILD, GENERATE and DESERIALIZE leave unchanged (30_encoding.md R102): each writes its table or tree,
STATUS, ERR, ERR_INFO, and no byte of either buffer. -/
def Obligations.TableCommandsFrame : Prop :=
  ∀ (s t : State),
    (exec .analyze s = .next t →
      SameHostSide s t ∧ SameTree s t ∧ SameCodes s t ∧ SameOutput s t ∧ t.bitLen = s.bitLen) ∧
      ((exec .build s = .next t ∨ exec .deserialize s = .next t) →
        SameHostSide s t ∧ SameTable s t ∧ SameCodes s t ∧ SameOutput s t ∧ t.bitLen = s.bitLen) ∧
      (exec .generate s = .next t →
        SameHostSide s t ∧ SameTable s t ∧ SameTree s t ∧ SameOutput s t ∧ t.bitLen = s.bitLen)

/-- What PACK, DECODE and SERIALIZE leave unchanged (30_encoding.md R102): no byte of IN_BUF is written, no table, no tree;
BIT_LEN is PACK's alone (10_state.md R33). They store to OUT_BUF from index 0 on, OUT_LEN bytes, the bytes listed after them
are none: OUT_BUF at and beyond OUT_LEN is unspecified (10_state.md R44), so nothing is said of it. -/
def Obligations.OutputCommandsFrame : Prop :=
  ∀ (s t : State),
    (exec .pack s = .next t → SameHostSide s t ∧ SameTable s t ∧ SameTree s t ∧ SameCodes s t) ∧
      ((exec .decode s = .next t ∨ exec .serialize s = .next t) →
        SameHostSide s t ∧ SameTable s t ∧ SameTree s t ∧ SameCodes s t ∧ t.bitLen = s.bitLen)

/-- 10_state.md R23: a register the core never writes keeps its value through every command, failing ones too, and a result
register is written only by the commands listed for it in R22. -/
def Obligations.RegistersAreWrittenOnlyByTheirCommands : Prop :=
  ∀ (i : Instr) (s t : State), exec i s = .next t →
    t.cmd = s.cmd ∧ t.inLen = s.inLen ∧ t.nbits = s.nbits ∧ t.inCap = s.inCap ∧ t.outCap = s.outCap ∧
      t.readReg .id = s.readReg .id ∧ t.readReg .version = s.readReg .version ∧
      (i ∉ [Instr.pack, .decode, .serialize] → t.outLen = s.outLen) ∧ (i ≠ .pack → t.bitLen = s.bitLen) ∧
      (i ≠ .analyze → t.nsym = s.nsym) ∧
      (i ∉ [Instr.build, .deserialize] → t.root = s.root ∧ t.nnode = s.nnode)

/-- 60_exceptions.md R271, R274: a failing command clears its destination and leaves everything else as it was before it,
except STATUS, ERR and ERR_INFO. -/
def Obligations.FailureClearsTheDestinationOnly : Prop :=
  ∀ (i : Instr) (s t : State), exec i s = .next t → t.err ≠ 0 →
    t.status = 6 ∧ t.Empty (destOf i) ∧ SameHostSide s t ∧ (destOf i ≠ .table → SameTable s t) ∧
      (destOf i ≠ .tree → SameTree s t) ∧ (destOf i ≠ .codes → SameCodes s t) ∧
      (destOf i ≠ .packed → t.bitLen = s.bitLen) ∧ (destOf i ≠ .packed → destOf i ≠ .output → SameOutput s t)

/-- 60_exceptions.md R265: which command can end with which code, and every entry of the table occurs with legal
capacities. -/
def Obligations.EndingsOfEachCommand : Prop :=
  (∀ (i : Instr) (s t : State), exec i s = .next t → ∃ e ∈ endings i, t.err = e.code) ∧
    ∀ (i : Instr) (e : ErrCode), e ∈ endings i → ∃ s t : State, s.Caps ∧ exec i s = .next t ∧ t.err = e.code

/-- 10_state.md R47, 60_exceptions.md R273: no command reads STATUS, ERR or ERR_INFO: an earlier error does not change what a
command does. -/
def Obligations.CommandsDoNotReadStatusOrErrors : Prop :=
  ∀ (i : Instr) (s : State) (st e info : Word), exec i { s with status := st, err := e, errInfo := info } = exec i s

/-! ## End to end -/

/-- 44_decode.md R203: if ANALYZE, BUILD, GENERATE and PACK succeed on a nonempty input, DECODE of the packed bytes with NBITS
= BIT_LEN and a structurally equal tree gives the input back. -/
def Obligations.PackedInputDecodesToItself : Prop :=
  ∀ s t₁ t₂ t₃ t₄ u : State, s.Caps → 1 ≤ s.inLen.toNat →
    exec .analyze s = .next t₁ → t₁.Succeeded → exec .build t₁ = .next t₂ → t₂.Succeeded →
    exec .generate t₂ = .next t₃ → t₃.Succeeded → exec .pack t₃ = .next t₄ → t₄.Succeeded →
    u.Caps → u.TreeInv → u.noTree = false → u.tree = t₂.tree → u.inLen = t₄.outLen → u.inLen.toNat ≤ u.inCap.toNat →
    u.input = t₄.output → u.nbits = t₄.bitLen → s.inLen.toNat ≤ u.outCap.toNat →
      ∃ v, exec .decode u = .next v ∧ v.Succeeded ∧ v.outLen = s.inLen ∧ v.output = s.input

/-- 46_sequences.md R241, R243: DECOMPRESS of the three results of one successful COMPRESS gives the input back, on any idle
block in any legal state, however long the host polls. -/
def Obligations.DecompressInvertsCompress : Prop :=
  ∀ (m n : Nat) (input : List Byte) (s s' u : State) (saved : Saved), s.Inv → s.busy = false →
    1 ≤ input.length → input.length ≤ s.inCap.toNat → compress m input s = .ok (saved, s') →
    u.Inv → u.busy = false → saved.packed.length ≤ u.inCap.toNat → input.length ≤ u.outCap.toNat →
      ∃ u', decompress n (some saved.tree) saved.packed saved.bitLen u = .ok (input, u')
end

