-- ==== Sys2Proof/Laws/Bits.lean ====
section
/-!
SUPPORT. Sys2Proof/Laws/Bits.lean: the bit order of packed bytes (00_scope.md R9, 30_encoding.md R107) and the byte order of
frequencies (R116).
-/

namespace Sys2Proof.Machine

/-- Stream bit m of a byte made from eight bits is the m-th of them. -/
theorem streamBit_byteOfBits (bits : Bits) (h : bits.length = 8) (m : Nat) (hm : m < 8) :
    bits[m]? = some (streamBitOfByte (byteOfBits bits) m) := by
  match bits, h with
  | [b0, b1, b2, b3, b4, b5, b6, b7], _ =>
    have all : ∀ b0 b1 b2 b3 b4 b5 b6 b7 : Bool, ∀ m : Fin 8, [b0, b1, b2, b3, b4, b5, b6, b7][m.val]? =
        some (streamBitOfByte (byteOfBits [b0, b1, b2, b3, b4, b5, b6, b7]) m.val) := by decide
    exact all b0 b1 b2 b3 b4 b5 b6 b7 ⟨m, hm⟩

@[simp] theorem length_bytesOfBits (n : Nat) (bits : Bits) : (bytesOfBits n bits).length = n := by
  induction n generalizing bits with
  | zero => rfl
  | succ n ih => simp [bytesOfBits, ih]

/-- Stream bit j of n packed bytes is the j-th bit, when there are 8n bits. -/
theorem streamBit_bytesOfBits (n : Nat) (bits : Bits) (h : bits.length = 8 * n) (j : Nat) (hj : j < 8 * n) :
    ∃ b, (bytesOfBits n bits)[j / 8]? = some b ∧ bits[j]? = some (streamBitOfByte b (j % 8)) := by
  induction n generalizing bits j with
  | zero => omega
  | succ n ih =>
    rcases Nat.lt_or_ge j 8 with h8 | h8
    · refine ⟨byteOfBits (bits.take 8), by simp [bytesOfBits, Nat.div_eq_of_lt h8], ?_⟩
      rw [Nat.mod_eq_of_lt h8, ← streamBit_byteOfBits _ (by simp; omega) j h8, List.getElem?_take_of_lt h8]
    · obtain ⟨b, hb, hbit⟩ := ih (bits.drop 8) (by simp; omega) (j - 8) (by omega)
      have hdiv : j / 8 = (j - 8) / 8 + 1 := by omega
      have hmod : (j - 8) % 8 = j % 8 := by omega
      have hidx : 8 + (j - 8) = j := by omega
      refine ⟨b, by rw [hdiv]; simpa [bytesOfBits] using hb, ?_⟩
      rwa [List.getElem?_drop, hidx, hmod] at hbit

/-- The padded length is the next multiple of 8 (43_pack.md R181). -/
theorem length_padBits (stream : Bits) : (padBits stream).length = 8 * ((stream.length + 7) / 8) := by
  simp only [padBits, List.length_append, List.length_replicate]; omega

/-- The number of packed bytes (30_encoding.md R107). -/
@[simp] theorem length_packBits (stream : Bits) : (packBits stream).length = (stream.length + 7) / 8 := by
  rw [packBits, length_bytesOfBits, length_padBits]; omega

/-- Stream bit j of the packed bytes: the stream, then zeros (43_pack.md R184). -/
theorem streamBit_packBits (stream : Bits) (j : Nat) (hj : j < 8 * ((stream.length + 7) / 8)) :
    ∃ b, (packBits stream)[j / 8]? = some b ∧ streamBitOfByte b (j % 8) = (stream[j]?).getD false := by
  obtain ⟨b, hb, hbit⟩ := streamBit_bytesOfBits ((padBits stream).length / 8) (padBits stream)
    (by rw [length_padBits]; omega) j (by rw [length_padBits]; omega)
  refine ⟨b, hb, ?_⟩
  rcases Nat.lt_or_ge j stream.length with h | h
  · rw [padBits, List.getElem?_append_left h] at hbit
    simp [hbit]
  · rw [padBits, List.getElem?_append_right h, List.getElem?_replicate] at hbit
    rw [List.getElem?_eq_none h]
    split at hbit <;> simp_all

/-- Four frequency bytes spell the weight they come from (30_encoding.md R116). -/
theorem freqOf_bytes (w : Word) :
    freqOf (w.extractLsb' 24 8) (w.extractLsb' 16 8) (w.extractLsb' 8 8) (w.extractLsb' 0 8) = w := by
  refine BitVec.eq_of_getLsbD_eq fun i hi => ?_
  simp only [freqOf, BitVec.getLsbD_or, BitVec.getLsbD_shiftLeft, BitVec.getLsbD_setWidth, BitVec.getLsbD_extractLsb']
  interval_cases i <;> simp

/-- The bytes of the weight that four bytes spell are those bytes (30_encoding.md R116). -/
theorem freqBytes_freqOf (b3 b2 b1 b0 : Byte) : freqBytes (freqOf b3 b2 b1 b0) = [b3, b2, b1, b0] := by
  simp only [freqBytes, List.cons.injEq, and_true]
  refine ⟨?_, ?_, ?_, ?_⟩ <;> refine BitVec.eq_of_getLsbD_eq fun i hi => ?_ <;>
    simp only [freqOf, BitVec.getLsbD_or, BitVec.getLsbD_shiftLeft, BitVec.getLsbD_setWidth, BitVec.getLsbD_extractLsb'] <;>
    interval_cases i <;> simp

end Sys2Proof.Machine
end

