-- ==== Sys2Proof/Laws/Memory.lean ====
section
/-!
SUPPORT. Sys2Proof/Laws/Memory.lean: the laws of the byte memories: a read after a write, the canonical form kept by every
operation, and what a memory made from a list of bytes lists.
-/

namespace Sys2Proof.Machine

/-- A read of an empty memory finds no byte. -/
@[simp] theorem Memory.read_nil (a : Nat) : Memory.read [] a = none := rfl

/-- A read after a write: the byte written at its index, what was there before elsewhere. -/
theorem Memory.read_write (m : Memory) (a b : Nat) (v : Byte) :
    (m.write a v).read b = if b = a then some v else m.read b := by
  induction m with
  | nil => simp [Memory.write, Memory.read, eq_comm]
  | cons c m ih =>
    obtain ⟨k, w⟩ := c
    simp only [Memory.write]
    split_ifs with h₁ h₂ <;> simp only [Memory.read, ih] <;> split_ifs <;> first | rfl | omega

@[simp] theorem Memory.read_write_same (m : Memory) (a : Nat) (v : Byte) : (m.write a v).read a = some v := by
  simp [Memory.read_write]

theorem Memory.read_write_other (m : Memory) {a b : Nat} (v : Byte) (h : b ≠ a) : (m.write a v).read b = m.read b := by
  simp [Memory.read_write, h]

/-- The entries after a write are the old ones and the new one. -/
theorem Memory.mem_write {m : Memory} {a : Nat} {v : Byte} {c : Host.Cell} (h : c ∈ m.write a v) :
    c = (a, v) ∨ c ∈ m := by
  induction m with
  | nil => simpa [Memory.write] using h
  | cons d m ih =>
    obtain ⟨k, w⟩ := d
    simp only [Memory.write] at h
    split_ifs at h with h₁ h₂ <;> simp only [List.mem_cons] at h ⊢ <;> tauto

/-- A write keeps the canonical form. -/
theorem Memory.wf_write {m : Memory} (a : Nat) (v : Byte) (h : m.wf) : Memory.wf (m.write a v) := by
  induction m with
  | nil => simp [Memory.wf, Memory.write]
  | cons d m ih =>
    obtain ⟨k, w⟩ := d
    have hd := (List.pairwise_cons.mp h).1
    have hm := (List.pairwise_cons.mp h).2
    simp only [Memory.write]
    split_ifs with h₁ h₂
    · refine List.pairwise_cons.mpr ⟨fun c hc => ?_, h⟩
      rcases List.mem_cons.mp hc with rfl | hc
      · exact h₁
      · exact lt_trans h₁ (hd c hc)
    · subst h₂; exact List.pairwise_cons.mpr ⟨hd, hm⟩
    · refine List.pairwise_cons.mpr ⟨fun c hc => ?_, ih hm⟩
      rcases Memory.mem_write hc with rfl | hc
      · simp only; omega
      · exact hd c hc

/-- The indexes of a memory made from bytes. -/
@[simp] theorem Memory.map_fst_ofBytes (i : Nat) (bs : List Byte) :
    (Memory.ofBytes i bs).map Prod.fst = List.range' i bs.length := by
  induction bs generalizing i with
  | nil => rfl
  | cons b bs ih => simp [Memory.ofBytes, ih, List.range'_succ]

/-- A memory made from bytes lists them from its first index on. -/
theorem Memory.read_ofBytes (i : Nat) (bs : List Byte) (a : Nat) :
    (Memory.ofBytes i bs).read (i + a) = bs[a]? := by
  induction bs generalizing i a with
  | nil => simp [Memory.ofBytes]
  | cons b bs ih =>
    cases a with
    | zero => simp [Memory.ofBytes, Memory.read]
    | succ a =>
      have h := ih (i + 1) a
      have hne : ¬ i + (a + 1) = i := by omega
      have hadd : i + (a + 1) = i + 1 + a := by omega
      simp only [Memory.ofBytes, Memory.read, hne, if_false, List.getElem?_cons_succ]
      rw [hadd]; exact h

/-- A memory made from bytes has the canonical form. -/
theorem Memory.wf_ofBytes (i : Nat) (bs : List Byte) : Memory.wf (Memory.ofBytes i bs) := by
  have h : ((Memory.ofBytes i bs).map Prod.fst).Pairwise (· < ·) := by
    rw [Memory.map_fst_ofBytes]; exact List.pairwise_lt_range'
  exact List.pairwise_map.mp h

/-- The memories right after reset have the canonical form. -/
theorem reset_memories_wf : Memory.wf State.reset.inBuf ∧ Memory.wf State.reset.outBuf :=
  ⟨List.Pairwise.nil, List.Pairwise.nil⟩

end Sys2Proof.Machine
end

