-- ==== Sys2Proof/Laws/State.lean ====
section
/-!
SUPPORT. Sys2Proof/Laws/State.lean: what each named update of State does to each field, true by definition.

A lemma `State.<update>_<field>` gives the field after the update; later proofs cite these and unfold no record update.
-/

namespace Sys2Proof.Machine

variable (s : State)

@[simp] theorem State.drawn_cmd : s.drawn.cmd = s.cmd := rfl
@[simp] theorem State.drawn_status : s.drawn.status = s.status := rfl
@[simp] theorem State.drawn_err : s.drawn.err = s.err := rfl
@[simp] theorem State.drawn_errInfo : s.drawn.errInfo = s.errInfo := rfl
@[simp] theorem State.drawn_inLen : s.drawn.inLen = s.inLen := rfl
@[simp] theorem State.drawn_nbits : s.drawn.nbits = s.nbits := rfl
@[simp] theorem State.drawn_outLen : s.drawn.outLen = s.outLen := rfl
@[simp] theorem State.drawn_bitLen : s.drawn.bitLen = s.bitLen := rfl
@[simp] theorem State.drawn_nsym : s.drawn.nsym = s.nsym := rfl
@[simp] theorem State.drawn_root : s.drawn.root = s.root := rfl
@[simp] theorem State.drawn_nnode : s.drawn.nnode = s.nnode := rfl
@[simp] theorem State.drawn_inCap : s.drawn.inCap = s.inCap := rfl
@[simp] theorem State.drawn_outCap : s.drawn.outCap = s.outCap := rfl
@[simp] theorem State.drawn_ftCnt : s.drawn.ftCnt = s.ftCnt := rfl
@[simp] theorem State.drawn_ftOrd : s.drawn.ftOrd = s.ftOrd := rfl
@[simp] theorem State.drawn_nodes : s.drawn.nodes = s.nodes := rfl
@[simp] theorem State.drawn_ct : s.drawn.ct = s.ct := rfl
@[simp] theorem State.drawn_inBuf : s.drawn.inBuf = s.inBuf := rfl
@[simp] theorem State.drawn_outBuf : s.drawn.outBuf = s.outBuf := rfl
@[simp] theorem State.drawn_agenda : s.drawn.agenda = s.agenda := rfl
@[simp] theorem State.drawn_hostReads : s.drawn.hostReads = s.hostReads := rfl
@[simp] theorem State.drawn_draws : s.drawn.draws = s.draws + 1 := rfl
@[simp] theorem State.drawn_inFill : s.drawn.inFill = s.inFill := rfl
@[simp] theorem State.drawn_ftFill : s.drawn.ftFill = s.ftFill := rfl
@[simp] theorem State.drawn_nodeFill : s.drawn.nodeFill = s.nodeFill := rfl
@[simp] theorem State.drawn_ctFill : s.drawn.ctFill = s.ctFill := rfl
@[simp] theorem State.drawn_outFill : s.drawn.outFill = s.outFill := rfl

@[simp] theorem State.setTable_cmd (c : Vector Word 256) (o : List Byte) : (s.setTable c o).cmd = s.cmd := rfl
@[simp] theorem State.setTable_status (c : Vector Word 256) (o : List Byte) : (s.setTable c o).status = s.status := rfl
@[simp] theorem State.setTable_err (c : Vector Word 256) (o : List Byte) : (s.setTable c o).err = s.err := rfl
@[simp] theorem State.setTable_errInfo (c : Vector Word 256) (o : List Byte) : (s.setTable c o).errInfo = s.errInfo := rfl
@[simp] theorem State.setTable_inLen (c : Vector Word 256) (o : List Byte) : (s.setTable c o).inLen = s.inLen := rfl
@[simp] theorem State.setTable_nbits (c : Vector Word 256) (o : List Byte) : (s.setTable c o).nbits = s.nbits := rfl
@[simp] theorem State.setTable_outLen (c : Vector Word 256) (o : List Byte) : (s.setTable c o).outLen = s.outLen := rfl
@[simp] theorem State.setTable_bitLen (c : Vector Word 256) (o : List Byte) : (s.setTable c o).bitLen = s.bitLen := rfl
@[simp] theorem State.setTable_nsym (c : Vector Word 256) (o : List Byte) : (s.setTable c o).nsym = BitVec.ofNat 9 o.length := rfl
@[simp] theorem State.setTable_root (c : Vector Word 256) (o : List Byte) : (s.setTable c o).root = s.root := rfl
@[simp] theorem State.setTable_nnode (c : Vector Word 256) (o : List Byte) : (s.setTable c o).nnode = s.nnode := rfl
@[simp] theorem State.setTable_inCap (c : Vector Word 256) (o : List Byte) : (s.setTable c o).inCap = s.inCap := rfl
@[simp] theorem State.setTable_outCap (c : Vector Word 256) (o : List Byte) : (s.setTable c o).outCap = s.outCap := rfl
@[simp] theorem State.setTable_ftCnt (c : Vector Word 256) (o : List Byte) : (s.setTable c o).ftCnt = c := rfl
@[simp] theorem State.setTable_ftOrd (c : Vector Word 256) (o : List Byte) : (s.setTable c o).ftOrd = o := rfl
@[simp] theorem State.setTable_nodes (c : Vector Word 256) (o : List Byte) : (s.setTable c o).nodes = s.nodes := rfl
@[simp] theorem State.setTable_ct (c : Vector Word 256) (o : List Byte) : (s.setTable c o).ct = s.ct := rfl
@[simp] theorem State.setTable_inBuf (c : Vector Word 256) (o : List Byte) : (s.setTable c o).inBuf = s.inBuf := rfl
@[simp] theorem State.setTable_outBuf (c : Vector Word 256) (o : List Byte) : (s.setTable c o).outBuf = s.outBuf := rfl
@[simp] theorem State.setTable_agenda (c : Vector Word 256) (o : List Byte) : (s.setTable c o).agenda = s.agenda := rfl
@[simp] theorem State.setTable_hostReads (c : Vector Word 256) (o : List Byte) : (s.setTable c o).hostReads = s.hostReads := rfl
@[simp] theorem State.setTable_draws (c : Vector Word 256) (o : List Byte) : (s.setTable c o).draws = s.draws + 1 := rfl
@[simp] theorem State.setTable_inFill (c : Vector Word 256) (o : List Byte) : (s.setTable c o).inFill = s.inFill := rfl
@[simp] theorem State.setTable_ftFill (c : Vector Word 256) (o : List Byte) : (s.setTable c o).ftFill = s.draws := rfl
@[simp] theorem State.setTable_nodeFill (c : Vector Word 256) (o : List Byte) : (s.setTable c o).nodeFill = s.nodeFill := rfl
@[simp] theorem State.setTable_ctFill (c : Vector Word 256) (o : List Byte) : (s.setTable c o).ctFill = s.ctFill := rfl
@[simp] theorem State.setTable_outFill (c : Vector Word 256) (o : List Byte) : (s.setTable c o).outFill = s.outFill := rfl

@[simp] theorem State.setTree_cmd (ns : List Node) (r : Idx) : (s.setTree ns r).cmd = s.cmd := rfl
@[simp] theorem State.setTree_status (ns : List Node) (r : Idx) : (s.setTree ns r).status = s.status := rfl
@[simp] theorem State.setTree_err (ns : List Node) (r : Idx) : (s.setTree ns r).err = s.err := rfl
@[simp] theorem State.setTree_errInfo (ns : List Node) (r : Idx) : (s.setTree ns r).errInfo = s.errInfo := rfl
@[simp] theorem State.setTree_inLen (ns : List Node) (r : Idx) : (s.setTree ns r).inLen = s.inLen := rfl
@[simp] theorem State.setTree_nbits (ns : List Node) (r : Idx) : (s.setTree ns r).nbits = s.nbits := rfl
@[simp] theorem State.setTree_outLen (ns : List Node) (r : Idx) : (s.setTree ns r).outLen = s.outLen := rfl
@[simp] theorem State.setTree_bitLen (ns : List Node) (r : Idx) : (s.setTree ns r).bitLen = s.bitLen := rfl
@[simp] theorem State.setTree_nsym (ns : List Node) (r : Idx) : (s.setTree ns r).nsym = s.nsym := rfl
@[simp] theorem State.setTree_root (ns : List Node) (r : Idx) : (s.setTree ns r).root = r := rfl
@[simp] theorem State.setTree_nnode (ns : List Node) (r : Idx) : (s.setTree ns r).nnode = BitVec.ofNat 10 ns.length := rfl
@[simp] theorem State.setTree_inCap (ns : List Node) (r : Idx) : (s.setTree ns r).inCap = s.inCap := rfl
@[simp] theorem State.setTree_outCap (ns : List Node) (r : Idx) : (s.setTree ns r).outCap = s.outCap := rfl
@[simp] theorem State.setTree_ftCnt (ns : List Node) (r : Idx) : (s.setTree ns r).ftCnt = s.ftCnt := rfl
@[simp] theorem State.setTree_ftOrd (ns : List Node) (r : Idx) : (s.setTree ns r).ftOrd = s.ftOrd := rfl
@[simp] theorem State.setTree_nodes (ns : List Node) (r : Idx) : (s.setTree ns r).nodes = ns := rfl
@[simp] theorem State.setTree_ct (ns : List Node) (r : Idx) : (s.setTree ns r).ct = s.ct := rfl
@[simp] theorem State.setTree_inBuf (ns : List Node) (r : Idx) : (s.setTree ns r).inBuf = s.inBuf := rfl
@[simp] theorem State.setTree_outBuf (ns : List Node) (r : Idx) : (s.setTree ns r).outBuf = s.outBuf := rfl
@[simp] theorem State.setTree_agenda (ns : List Node) (r : Idx) : (s.setTree ns r).agenda = s.agenda := rfl
@[simp] theorem State.setTree_hostReads (ns : List Node) (r : Idx) : (s.setTree ns r).hostReads = s.hostReads := rfl
@[simp] theorem State.setTree_draws (ns : List Node) (r : Idx) : (s.setTree ns r).draws = s.draws + 1 := rfl
@[simp] theorem State.setTree_inFill (ns : List Node) (r : Idx) : (s.setTree ns r).inFill = s.inFill := rfl
@[simp] theorem State.setTree_ftFill (ns : List Node) (r : Idx) : (s.setTree ns r).ftFill = s.ftFill := rfl
@[simp] theorem State.setTree_nodeFill (ns : List Node) (r : Idx) : (s.setTree ns r).nodeFill = s.draws := rfl
@[simp] theorem State.setTree_ctFill (ns : List Node) (r : Idx) : (s.setTree ns r).ctFill = s.ctFill := rfl
@[simp] theorem State.setTree_outFill (ns : List Node) (r : Idx) : (s.setTree ns r).outFill = s.outFill := rfl

@[simp] theorem State.setCodes_cmd (c : Vector Bits 256) : (s.setCodes c).cmd = s.cmd := rfl
@[simp] theorem State.setCodes_status (c : Vector Bits 256) : (s.setCodes c).status = s.status := rfl
@[simp] theorem State.setCodes_err (c : Vector Bits 256) : (s.setCodes c).err = s.err := rfl
@[simp] theorem State.setCodes_errInfo (c : Vector Bits 256) : (s.setCodes c).errInfo = s.errInfo := rfl
@[simp] theorem State.setCodes_inLen (c : Vector Bits 256) : (s.setCodes c).inLen = s.inLen := rfl
@[simp] theorem State.setCodes_nbits (c : Vector Bits 256) : (s.setCodes c).nbits = s.nbits := rfl
@[simp] theorem State.setCodes_outLen (c : Vector Bits 256) : (s.setCodes c).outLen = s.outLen := rfl
@[simp] theorem State.setCodes_bitLen (c : Vector Bits 256) : (s.setCodes c).bitLen = s.bitLen := rfl
@[simp] theorem State.setCodes_nsym (c : Vector Bits 256) : (s.setCodes c).nsym = s.nsym := rfl
@[simp] theorem State.setCodes_root (c : Vector Bits 256) : (s.setCodes c).root = s.root := rfl
@[simp] theorem State.setCodes_nnode (c : Vector Bits 256) : (s.setCodes c).nnode = s.nnode := rfl
@[simp] theorem State.setCodes_inCap (c : Vector Bits 256) : (s.setCodes c).inCap = s.inCap := rfl
@[simp] theorem State.setCodes_outCap (c : Vector Bits 256) : (s.setCodes c).outCap = s.outCap := rfl
@[simp] theorem State.setCodes_ftCnt (c : Vector Bits 256) : (s.setCodes c).ftCnt = s.ftCnt := rfl
@[simp] theorem State.setCodes_ftOrd (c : Vector Bits 256) : (s.setCodes c).ftOrd = s.ftOrd := rfl
@[simp] theorem State.setCodes_nodes (c : Vector Bits 256) : (s.setCodes c).nodes = s.nodes := rfl
@[simp] theorem State.setCodes_ct (c : Vector Bits 256) : (s.setCodes c).ct = c := rfl
@[simp] theorem State.setCodes_inBuf (c : Vector Bits 256) : (s.setCodes c).inBuf = s.inBuf := rfl
@[simp] theorem State.setCodes_outBuf (c : Vector Bits 256) : (s.setCodes c).outBuf = s.outBuf := rfl
@[simp] theorem State.setCodes_agenda (c : Vector Bits 256) : (s.setCodes c).agenda = s.agenda := rfl
@[simp] theorem State.setCodes_hostReads (c : Vector Bits 256) : (s.setCodes c).hostReads = s.hostReads := rfl
@[simp] theorem State.setCodes_draws (c : Vector Bits 256) : (s.setCodes c).draws = s.draws + 1 := rfl
@[simp] theorem State.setCodes_inFill (c : Vector Bits 256) : (s.setCodes c).inFill = s.inFill := rfl
@[simp] theorem State.setCodes_ftFill (c : Vector Bits 256) : (s.setCodes c).ftFill = s.ftFill := rfl
@[simp] theorem State.setCodes_nodeFill (c : Vector Bits 256) : (s.setCodes c).nodeFill = s.nodeFill := rfl
@[simp] theorem State.setCodes_ctFill (c : Vector Bits 256) : (s.setCodes c).ctFill = s.draws := rfl
@[simp] theorem State.setCodes_outFill (c : Vector Bits 256) : (s.setCodes c).outFill = s.outFill := rfl

@[simp] theorem State.setOutput_cmd (bs : List Byte) : (s.setOutput bs).cmd = s.cmd := rfl
@[simp] theorem State.setOutput_status (bs : List Byte) : (s.setOutput bs).status = s.status := rfl
@[simp] theorem State.setOutput_err (bs : List Byte) : (s.setOutput bs).err = s.err := rfl
@[simp] theorem State.setOutput_errInfo (bs : List Byte) : (s.setOutput bs).errInfo = s.errInfo := rfl
@[simp] theorem State.setOutput_inLen (bs : List Byte) : (s.setOutput bs).inLen = s.inLen := rfl
@[simp] theorem State.setOutput_nbits (bs : List Byte) : (s.setOutput bs).nbits = s.nbits := rfl
@[simp] theorem State.setOutput_outLen (bs : List Byte) : (s.setOutput bs).outLen = BitVec.ofNat 32 bs.length := rfl
@[simp] theorem State.setOutput_bitLen (bs : List Byte) : (s.setOutput bs).bitLen = s.bitLen := rfl
@[simp] theorem State.setOutput_nsym (bs : List Byte) : (s.setOutput bs).nsym = s.nsym := rfl
@[simp] theorem State.setOutput_root (bs : List Byte) : (s.setOutput bs).root = s.root := rfl
@[simp] theorem State.setOutput_nnode (bs : List Byte) : (s.setOutput bs).nnode = s.nnode := rfl
@[simp] theorem State.setOutput_inCap (bs : List Byte) : (s.setOutput bs).inCap = s.inCap := rfl
@[simp] theorem State.setOutput_outCap (bs : List Byte) : (s.setOutput bs).outCap = s.outCap := rfl
@[simp] theorem State.setOutput_ftCnt (bs : List Byte) : (s.setOutput bs).ftCnt = s.ftCnt := rfl
@[simp] theorem State.setOutput_ftOrd (bs : List Byte) : (s.setOutput bs).ftOrd = s.ftOrd := rfl
@[simp] theorem State.setOutput_nodes (bs : List Byte) : (s.setOutput bs).nodes = s.nodes := rfl
@[simp] theorem State.setOutput_ct (bs : List Byte) : (s.setOutput bs).ct = s.ct := rfl
@[simp] theorem State.setOutput_inBuf (bs : List Byte) : (s.setOutput bs).inBuf = s.inBuf := rfl
@[simp] theorem State.setOutput_outBuf (bs : List Byte) : (s.setOutput bs).outBuf = Memory.ofBytes 0 bs := rfl
@[simp] theorem State.setOutput_agenda (bs : List Byte) : (s.setOutput bs).agenda = s.agenda := rfl
@[simp] theorem State.setOutput_hostReads (bs : List Byte) : (s.setOutput bs).hostReads = s.hostReads := rfl
@[simp] theorem State.setOutput_draws (bs : List Byte) : (s.setOutput bs).draws = s.draws + 1 := rfl
@[simp] theorem State.setOutput_inFill (bs : List Byte) : (s.setOutput bs).inFill = s.inFill := rfl
@[simp] theorem State.setOutput_ftFill (bs : List Byte) : (s.setOutput bs).ftFill = s.ftFill := rfl
@[simp] theorem State.setOutput_nodeFill (bs : List Byte) : (s.setOutput bs).nodeFill = s.nodeFill := rfl
@[simp] theorem State.setOutput_ctFill (bs : List Byte) : (s.setOutput bs).ctFill = s.ctFill := rfl
@[simp] theorem State.setOutput_outFill (bs : List Byte) : (s.setOutput bs).outFill = s.draws := rfl

@[simp] theorem State.setBitLen_cmd (n : Nat) : (s.setBitLen n).cmd = s.cmd := rfl
@[simp] theorem State.setBitLen_status (n : Nat) : (s.setBitLen n).status = s.status := rfl
@[simp] theorem State.setBitLen_err (n : Nat) : (s.setBitLen n).err = s.err := rfl
@[simp] theorem State.setBitLen_errInfo (n : Nat) : (s.setBitLen n).errInfo = s.errInfo := rfl
@[simp] theorem State.setBitLen_inLen (n : Nat) : (s.setBitLen n).inLen = s.inLen := rfl
@[simp] theorem State.setBitLen_nbits (n : Nat) : (s.setBitLen n).nbits = s.nbits := rfl
@[simp] theorem State.setBitLen_outLen (n : Nat) : (s.setBitLen n).outLen = s.outLen := rfl
@[simp] theorem State.setBitLen_bitLen (n : Nat) : (s.setBitLen n).bitLen = BitVec.ofNat 32 n := rfl
@[simp] theorem State.setBitLen_nsym (n : Nat) : (s.setBitLen n).nsym = s.nsym := rfl
@[simp] theorem State.setBitLen_root (n : Nat) : (s.setBitLen n).root = s.root := rfl
@[simp] theorem State.setBitLen_nnode (n : Nat) : (s.setBitLen n).nnode = s.nnode := rfl
@[simp] theorem State.setBitLen_inCap (n : Nat) : (s.setBitLen n).inCap = s.inCap := rfl
@[simp] theorem State.setBitLen_outCap (n : Nat) : (s.setBitLen n).outCap = s.outCap := rfl
@[simp] theorem State.setBitLen_ftCnt (n : Nat) : (s.setBitLen n).ftCnt = s.ftCnt := rfl
@[simp] theorem State.setBitLen_ftOrd (n : Nat) : (s.setBitLen n).ftOrd = s.ftOrd := rfl
@[simp] theorem State.setBitLen_nodes (n : Nat) : (s.setBitLen n).nodes = s.nodes := rfl
@[simp] theorem State.setBitLen_ct (n : Nat) : (s.setBitLen n).ct = s.ct := rfl
@[simp] theorem State.setBitLen_inBuf (n : Nat) : (s.setBitLen n).inBuf = s.inBuf := rfl
@[simp] theorem State.setBitLen_outBuf (n : Nat) : (s.setBitLen n).outBuf = s.outBuf := rfl
@[simp] theorem State.setBitLen_agenda (n : Nat) : (s.setBitLen n).agenda = s.agenda := rfl
@[simp] theorem State.setBitLen_hostReads (n : Nat) : (s.setBitLen n).hostReads = s.hostReads := rfl
@[simp] theorem State.setBitLen_draws (n : Nat) : (s.setBitLen n).draws = s.draws := rfl
@[simp] theorem State.setBitLen_inFill (n : Nat) : (s.setBitLen n).inFill = s.inFill := rfl
@[simp] theorem State.setBitLen_ftFill (n : Nat) : (s.setBitLen n).ftFill = s.ftFill := rfl
@[simp] theorem State.setBitLen_nodeFill (n : Nat) : (s.setBitLen n).nodeFill = s.nodeFill := rfl
@[simp] theorem State.setBitLen_ctFill (n : Nat) : (s.setBitLen n).ctFill = s.ctFill := rfl
@[simp] theorem State.setBitLen_outFill (n : Nat) : (s.setBitLen n).outFill = s.outFill := rfl

@[simp] theorem State.complete_cmd (e : ErrCode) (i : Word) : (s.complete e i).cmd = s.cmd := rfl
@[simp] theorem State.complete_status (e : ErrCode) (i : Word) : (s.complete e i).status = statusWord false true (e ≠ .ok) := rfl
@[simp] theorem State.complete_err (e : ErrCode) (i : Word) : (s.complete e i).err = e.code := rfl
@[simp] theorem State.complete_errInfo (e : ErrCode) (i : Word) : (s.complete e i).errInfo = i := rfl
@[simp] theorem State.complete_inLen (e : ErrCode) (i : Word) : (s.complete e i).inLen = s.inLen := rfl
@[simp] theorem State.complete_nbits (e : ErrCode) (i : Word) : (s.complete e i).nbits = s.nbits := rfl
@[simp] theorem State.complete_outLen (e : ErrCode) (i : Word) : (s.complete e i).outLen = s.outLen := rfl
@[simp] theorem State.complete_bitLen (e : ErrCode) (i : Word) : (s.complete e i).bitLen = s.bitLen := rfl
@[simp] theorem State.complete_nsym (e : ErrCode) (i : Word) : (s.complete e i).nsym = s.nsym := rfl
@[simp] theorem State.complete_root (e : ErrCode) (i : Word) : (s.complete e i).root = s.root := rfl
@[simp] theorem State.complete_nnode (e : ErrCode) (i : Word) : (s.complete e i).nnode = s.nnode := rfl
@[simp] theorem State.complete_inCap (e : ErrCode) (i : Word) : (s.complete e i).inCap = s.inCap := rfl
@[simp] theorem State.complete_outCap (e : ErrCode) (i : Word) : (s.complete e i).outCap = s.outCap := rfl
@[simp] theorem State.complete_ftCnt (e : ErrCode) (i : Word) : (s.complete e i).ftCnt = s.ftCnt := rfl
@[simp] theorem State.complete_ftOrd (e : ErrCode) (i : Word) : (s.complete e i).ftOrd = s.ftOrd := rfl
@[simp] theorem State.complete_nodes (e : ErrCode) (i : Word) : (s.complete e i).nodes = s.nodes := rfl
@[simp] theorem State.complete_ct (e : ErrCode) (i : Word) : (s.complete e i).ct = s.ct := rfl
@[simp] theorem State.complete_inBuf (e : ErrCode) (i : Word) : (s.complete e i).inBuf = s.inBuf := rfl
@[simp] theorem State.complete_outBuf (e : ErrCode) (i : Word) : (s.complete e i).outBuf = s.outBuf := rfl
@[simp] theorem State.complete_agenda (e : ErrCode) (i : Word) : (s.complete e i).agenda = s.agenda := rfl
@[simp] theorem State.complete_hostReads (e : ErrCode) (i : Word) : (s.complete e i).hostReads = s.hostReads := rfl
@[simp] theorem State.complete_draws (e : ErrCode) (i : Word) : (s.complete e i).draws = s.draws := rfl
@[simp] theorem State.complete_inFill (e : ErrCode) (i : Word) : (s.complete e i).inFill = s.inFill := rfl
@[simp] theorem State.complete_ftFill (e : ErrCode) (i : Word) : (s.complete e i).ftFill = s.ftFill := rfl
@[simp] theorem State.complete_nodeFill (e : ErrCode) (i : Word) : (s.complete e i).nodeFill = s.nodeFill := rfl
@[simp] theorem State.complete_ctFill (e : ErrCode) (i : Word) : (s.complete e i).ctFill = s.ctFill := rfl
@[simp] theorem State.complete_outFill (e : ErrCode) (i : Word) : (s.complete e i).outFill = s.outFill := rfl

@[simp] theorem State.start_cmd (w : Word) : (s.start w).cmd = w := rfl
@[simp] theorem State.start_status (w : Word) : (s.start w).status = statusWord true false false := rfl
@[simp] theorem State.start_err (w : Word) : (s.start w).err = s.err := rfl
@[simp] theorem State.start_errInfo (w : Word) : (s.start w).errInfo = s.errInfo := rfl
@[simp] theorem State.start_inLen (w : Word) : (s.start w).inLen = s.inLen := rfl
@[simp] theorem State.start_nbits (w : Word) : (s.start w).nbits = s.nbits := rfl
@[simp] theorem State.start_outLen (w : Word) : (s.start w).outLen = s.outLen := rfl
@[simp] theorem State.start_bitLen (w : Word) : (s.start w).bitLen = s.bitLen := rfl
@[simp] theorem State.start_nsym (w : Word) : (s.start w).nsym = s.nsym := rfl
@[simp] theorem State.start_root (w : Word) : (s.start w).root = s.root := rfl
@[simp] theorem State.start_nnode (w : Word) : (s.start w).nnode = s.nnode := rfl
@[simp] theorem State.start_inCap (w : Word) : (s.start w).inCap = s.inCap := rfl
@[simp] theorem State.start_outCap (w : Word) : (s.start w).outCap = s.outCap := rfl
@[simp] theorem State.start_ftCnt (w : Word) : (s.start w).ftCnt = s.ftCnt := rfl
@[simp] theorem State.start_ftOrd (w : Word) : (s.start w).ftOrd = s.ftOrd := rfl
@[simp] theorem State.start_nodes (w : Word) : (s.start w).nodes = s.nodes := rfl
@[simp] theorem State.start_ct (w : Word) : (s.start w).ct = s.ct := rfl
@[simp] theorem State.start_inBuf (w : Word) : (s.start w).inBuf = s.inBuf := rfl
@[simp] theorem State.start_outBuf (w : Word) : (s.start w).outBuf = s.outBuf := rfl
@[simp] theorem State.start_agenda (w : Word) : (s.start w).agenda = s.agenda := rfl
@[simp] theorem State.start_hostReads (w : Word) : (s.start w).hostReads = s.hostReads := rfl
@[simp] theorem State.start_draws (w : Word) : (s.start w).draws = s.draws := rfl
@[simp] theorem State.start_inFill (w : Word) : (s.start w).inFill = s.inFill := rfl
@[simp] theorem State.start_ftFill (w : Word) : (s.start w).ftFill = s.ftFill := rfl
@[simp] theorem State.start_nodeFill (w : Word) : (s.start w).nodeFill = s.nodeFill := rfl
@[simp] theorem State.start_ctFill (w : Word) : (s.start w).ctFill = s.ctFill := rfl
@[simp] theorem State.start_outFill (w : Word) : (s.start w).outFill = s.outFill := rfl

@[simp] theorem State.deliver_cmd (w : Word) : (s.deliver w).cmd = s.cmd := rfl
@[simp] theorem State.deliver_status (w : Word) : (s.deliver w).status = s.status := rfl
@[simp] theorem State.deliver_err (w : Word) : (s.deliver w).err = s.err := rfl
@[simp] theorem State.deliver_errInfo (w : Word) : (s.deliver w).errInfo = s.errInfo := rfl
@[simp] theorem State.deliver_inLen (w : Word) : (s.deliver w).inLen = s.inLen := rfl
@[simp] theorem State.deliver_nbits (w : Word) : (s.deliver w).nbits = s.nbits := rfl
@[simp] theorem State.deliver_outLen (w : Word) : (s.deliver w).outLen = s.outLen := rfl
@[simp] theorem State.deliver_bitLen (w : Word) : (s.deliver w).bitLen = s.bitLen := rfl
@[simp] theorem State.deliver_nsym (w : Word) : (s.deliver w).nsym = s.nsym := rfl
@[simp] theorem State.deliver_root (w : Word) : (s.deliver w).root = s.root := rfl
@[simp] theorem State.deliver_nnode (w : Word) : (s.deliver w).nnode = s.nnode := rfl
@[simp] theorem State.deliver_inCap (w : Word) : (s.deliver w).inCap = s.inCap := rfl
@[simp] theorem State.deliver_outCap (w : Word) : (s.deliver w).outCap = s.outCap := rfl
@[simp] theorem State.deliver_ftCnt (w : Word) : (s.deliver w).ftCnt = s.ftCnt := rfl
@[simp] theorem State.deliver_ftOrd (w : Word) : (s.deliver w).ftOrd = s.ftOrd := rfl
@[simp] theorem State.deliver_nodes (w : Word) : (s.deliver w).nodes = s.nodes := rfl
@[simp] theorem State.deliver_ct (w : Word) : (s.deliver w).ct = s.ct := rfl
@[simp] theorem State.deliver_inBuf (w : Word) : (s.deliver w).inBuf = s.inBuf := rfl
@[simp] theorem State.deliver_outBuf (w : Word) : (s.deliver w).outBuf = s.outBuf := rfl
@[simp] theorem State.deliver_agenda (w : Word) : (s.deliver w).agenda = s.agenda := rfl
@[simp] theorem State.deliver_hostReads (w : Word) : (s.deliver w).hostReads = w :: s.hostReads := rfl
@[simp] theorem State.deliver_draws (w : Word) : (s.deliver w).draws = s.draws := rfl
@[simp] theorem State.deliver_inFill (w : Word) : (s.deliver w).inFill = s.inFill := rfl
@[simp] theorem State.deliver_ftFill (w : Word) : (s.deliver w).ftFill = s.ftFill := rfl
@[simp] theorem State.deliver_nodeFill (w : Word) : (s.deliver w).nodeFill = s.nodeFill := rfl
@[simp] theorem State.deliver_ctFill (w : Word) : (s.deliver w).ctFill = s.ctFill := rfl
@[simp] theorem State.deliver_outFill (w : Word) : (s.deliver w).outFill = s.outFill := rfl

@[simp] theorem State.pulseReset_cmd : s.pulseReset.cmd = 0 := rfl
@[simp] theorem State.pulseReset_status : s.pulseReset.status = 0 := rfl
@[simp] theorem State.pulseReset_err : s.pulseReset.err = 0 := rfl
@[simp] theorem State.pulseReset_errInfo : s.pulseReset.errInfo = 0 := rfl
@[simp] theorem State.pulseReset_inLen : s.pulseReset.inLen = 0 := rfl
@[simp] theorem State.pulseReset_nbits : s.pulseReset.nbits = 0 := rfl
@[simp] theorem State.pulseReset_outLen : s.pulseReset.outLen = 0 := rfl
@[simp] theorem State.pulseReset_bitLen : s.pulseReset.bitLen = 0 := rfl
@[simp] theorem State.pulseReset_nsym : s.pulseReset.nsym = 0 := rfl
@[simp] theorem State.pulseReset_root : s.pulseReset.root = Config.nullIdx := rfl
@[simp] theorem State.pulseReset_nnode : s.pulseReset.nnode = 0 := rfl
@[simp] theorem State.pulseReset_inCap : s.pulseReset.inCap = s.inCap := rfl
@[simp] theorem State.pulseReset_outCap : s.pulseReset.outCap = s.outCap := rfl
@[simp] theorem State.pulseReset_ftCnt : s.pulseReset.ftCnt = noCounts := rfl
@[simp] theorem State.pulseReset_ftOrd : s.pulseReset.ftOrd = [] := rfl
@[simp] theorem State.pulseReset_nodes : s.pulseReset.nodes = [] := rfl
@[simp] theorem State.pulseReset_ct : s.pulseReset.ct = noCodes := rfl
@[simp] theorem State.pulseReset_inBuf : s.pulseReset.inBuf = [] := rfl
@[simp] theorem State.pulseReset_outBuf : s.pulseReset.outBuf = [] := rfl
@[simp] theorem State.pulseReset_agenda : s.pulseReset.agenda = s.agenda := rfl
@[simp] theorem State.pulseReset_hostReads : s.pulseReset.hostReads = s.hostReads := rfl
@[simp] theorem State.pulseReset_draws : s.pulseReset.draws = s.draws + 5 := rfl
@[simp] theorem State.pulseReset_inFill : s.pulseReset.inFill = s.draws := rfl
@[simp] theorem State.pulseReset_ftFill : s.pulseReset.ftFill = s.draws + 1 := rfl
@[simp] theorem State.pulseReset_nodeFill : s.pulseReset.nodeFill = s.draws + 2 := rfl
@[simp] theorem State.pulseReset_ctFill : s.pulseReset.ctFill = s.draws + 3 := rfl
@[simp] theorem State.pulseReset_outFill : s.pulseReset.outFill = s.draws + 4 := rfl

end Sys2Proof.Machine
end

