-- ==== Sys2Proof/Laws/Ops.lean ====
section
/-!
SUPPORT. Sys2Proof/Laws/Ops.lean: what the shared operations do: start, the two completions, clearing a destination, reset.
-/

namespace Sys2Proof.Machine

@[simp] theorem statusWord_start : statusWord true false false = 1 := by decide
@[simp] theorem statusWord_done : statusWord false true false = 2 := by decide
@[simp] theorem statusWord_failed : statusWord false true true = 6 := by decide

/-- The flags after a start (60_exceptions.md R268). -/
theorem start_flags (s : State) (w : Word) :
    (s.start w).busy = true ∧ (s.start w).done = false ∧ (s.start w).errf = false := by
  simp only [State.busy, State.done, State.errf, State.start_status]; decide

/-- The flags after a completion (60_exceptions.md R269, R270). -/
theorem complete_flags (s : State) (e : ErrCode) (info : Word) :
    (s.complete e info).busy = false ∧ (s.complete e info).done = true ∧
      ((s.complete e info).errf = true ↔ e ≠ .ok) := by
  simp only [State.busy, State.done, State.errf, State.complete_status]
  cases e <;> decide

/-- Only OK has number 0 (60_exceptions.md R262). -/
theorem code_eq_zero_iff (e : ErrCode) : e.code = 0 ↔ e = .ok := by cases e <;> decide

/-- Two result codes with one number are one code (60_exceptions.md R262). -/
theorem code_injective {e f : ErrCode} (h : e.code = f.code) : e = f := by
  cases e <;> cases f <;> first | rfl | exact absurd h (by decide)

/-- `done` (60_exceptions.md R269). -/
theorem succeed_succeeded (s : State) : s.succeed.Succeeded := ⟨statusWord_done, rfl, rfl⟩

/-- A failing completion (60_exceptions.md R270) reports its code and detail and empties its destination (R271). -/
theorem raise_failed (s : State) (d : Dest) (e : ErrCode) (info : Word) (he : e ≠ .ok) :
    (s.raise d e info).Failed e info ∧ (s.raise d e info).Empty d := by
  refine ⟨⟨?_, rfl, rfl⟩, ?_⟩
  · show statusWord false true (decide (e ≠ .ok)) = 6
    rw [decide_eq_true he, statusWord_failed]
  · cases d
    · exact ⟨rfl, fun b => by simp [State.raise, State.clear, State.cnt, noCounts]⟩
    · exact ⟨rfl, rfl⟩
    · exact fun b => by simp [State.raise, State.clear, State.code, noCodes]
    · exact ⟨rfl, rfl⟩
    · exact rfl
    · trivial

/-- A completion changes STATUS, ERR and ERR_INFO only (60_exceptions.md R269). -/
theorem complete_frame (s : State) (e : ErrCode) (info : Word) :
    s.complete e info = { s with status := (s.complete e info).status, err := e.code, errInfo := info } := rfl

/-- A failing completion leaves the host's side as it was (60_exceptions.md R271). -/
theorem raise_sameHostSide (s : State) (d : Dest) (e : ErrCode) (info : Word) : SameHostSide s (s.raise d e info) := by
  cases d <;> exact ⟨rfl, rfl, rfl, rfl, rfl, fun _ => rfl, rfl, rfl⟩

/-- A failing completion leaves what is not its destination (60_exceptions.md R271). -/
theorem raise_frame (s : State) (d : Dest) (e : ErrCode) (info : Word) :
    (d ≠ .table → SameTable s (s.raise d e info)) ∧ (d ≠ .tree → SameTree s (s.raise d e info)) ∧
      (d ≠ .codes → SameCodes s (s.raise d e info)) ∧ (d ≠ .packed → (s.raise d e info).bitLen = s.bitLen) ∧
      (d ≠ .packed → d ≠ .output → SameOutput s (s.raise d e info)) := by
  refine ⟨fun h => ?_, fun h => ?_, fun h => ?_, fun h => ?_, fun h h' => ?_⟩ <;> cases d <;>
    first
    | exact absurd rfl h
    | exact absurd rfl h'
    | exact ⟨rfl, fun _ => rfl, fun _ => rfl⟩
    | exact ⟨rfl, rfl, fun _ => rfl⟩
    | exact fun _ => ⟨rfl, fun _ => rfl⟩
    | exact ⟨rfl, fun _ => rfl⟩
    | rfl

/-- The result bytes after an output is written: exactly these, if their number fits OUT_LEN (10_state.md R44). -/
theorem setOutput_output (s : State) (bs : List Byte) (h : bs.length < 2 ^ 32) :
    (s.setOutput bs).outLen.toNat = bs.length ∧ (s.setOutput bs).output = bs := by
  have hl : (s.setOutput bs).outLen.toNat = bs.length := by
    simp only [State.setOutput_outLen, BitVec.toNat_ofNat]; exact Nat.mod_eq_of_lt h
  refine ⟨hl, ?_⟩
  rw [State.output, hl]
  refine List.ext_getElem (by simp) fun i h₁ h₂ => ?_
  have hr := Memory.read_ofBytes 0 bs i
  rw [Nat.zero_add, List.getElem?_eq_getElem h₂] at hr
  simp [State.outByte, hr]

end Sys2Proof.Machine
end

