-- ==== Sys2Proof/Laws/Tree.lean ====
section
/-!
SUPPORT. Sys2Proof/Laws/Tree.lean: trees, their serialization and parsing, and the arena DESERIALIZE lays out
(30_encoding.md R115 to R120, 45_treecodec.md R216 to R223).
-/

namespace Sys2Proof

/-- The number of levels of a tree below its root. -/
def Tree.depth : Tree → Nat
  | .leaf _ _ => 0
  | .node _ l r => 1 + max (Tree.depth l) (Tree.depth r)

theorem Tree.syms_pos (t : Tree) : 1 ≤ t.syms.length := by
  induction t with
  | leaf b w => simp [Tree.syms]
  | node w l r ihl _ => simp only [Tree.syms, List.length_append]; omega

/-- A strict binary tree has one internal node less than leaves (10_state.md R40 (c)). -/
theorem Tree.size_eq (t : Tree) : t.size + 1 = 2 * t.syms.length := by
  induction t with
  | leaf b w => simp [Tree.syms, Tree.size]
  | node w l r ihl ihr => simp only [Tree.syms, Tree.size, List.length_append]; omega

theorem Tree.depth_lt_syms (t : Tree) : t.depth < t.syms.length := by
  induction t with
  | leaf b w => simp [Tree.syms, Tree.depth]
  | node w l r ihl ihr =>
    have := l.syms_pos
    have := r.syms_pos
    simp only [Tree.syms, Tree.depth, List.length_append]; omega

/-- Distinct symbols are at most 256 (00_scope.md R6). -/
theorem length_le_of_nodup {l : List Byte} (h : l.Nodup) : l.length ≤ 256 := by
  have hc := h.length_le_card
  have hcard : Fintype.card Byte = 256 := by
    rw [Fintype.card_congr (α := Byte) (β := Fin 256) ⟨fun b => b.toFin, fun i => ⟨i⟩, fun _ => rfl, fun _ => rfl⟩]
    simp
  omega

/-- The size of a serialized tree: 15n - 6 bytes for n leaves (30_encoding.md R119). -/
theorem Tree.length_bytes (t : Tree) : t.bytes.length + 6 = 15 * t.syms.length := by
  induction t with
  | leaf b w => simp [Tree.bytes, Tree.syms, Machine.freqBytes]
  | node w l r ihl ihr =>
    simp only [Tree.bytes, Tree.syms, List.length_append, Machine.freqBytes, List.length_cons, List.length_nil]
    omega

end Sys2Proof

namespace Sys2Proof.Machine

/-- Parsing a serialization followed by anything reads exactly the serialization (45_treecodec.md R221). -/
theorem parseTree_bytes (t : Tree) (fuel : Nat) (p : Parser) (rest : List Byte) (hr : p.rest = t.bytes ++ rest)
    (hf : t.depth + 1 < fuel) (hc : p.cnt + t.size ≤ Config.nodeCap) (hs : (t.syms ++ p.seen).Nodup) :
    parseTree fuel p = some (some t, { rest := rest, cnt := p.cnt + t.size, seen := t.syms.reverse ++ p.seen }) := by
  induction t generalizing fuel p rest with
  | leaf b w =>
    match fuel, hf with
    | fuel + 2, _ =>
      have hb : b ∉ p.seen := by simpa [Tree.syms] using (List.nodup_cons.mp (by simpa [Tree.syms] using hs)).1
      have hcap : p.cnt ≠ Config.nodeCap := by simp only [Tree.size] at hc; omega
      have hfreq := freqOf_bytes w
      simp [parseTree, hr, Tree.bytes, freqBytes, parseSym, parseFreq, hcap, closeRecord, hb, hfreq, Tree.size, Tree.syms]
  | node w l r ihl ihr =>
    match fuel, hf with
    | fuel + 1, hf =>
      have hcap : p.cnt ≠ Config.nodeCap := by simp only [Tree.size] at hc; omega
      have hfreq := freqOf_bytes w
      simp only [Tree.size] at hc
      simp only [Tree.depth] at hf
      simp only [Tree.syms] at hs
      have hl := ihl fuel { p with rest := l.bytes ++ (r.bytes ++ rest), cnt := p.cnt + 1 } (r.bytes ++ rest) rfl
        (by omega) (by simp only; omega)
        (by
          refine hs.sublist ?_
          rw [List.append_assoc]
          exact List.Sublist.append_left (List.sublist_append_right _ _) _)
      have hr' := ihr fuel { rest := r.bytes ++ rest, cnt := p.cnt + 1 + l.size, seen := l.syms.reverse ++ p.seen } rest rfl
        (by omega) (by simp only; omega)
        (by
          have hperm : (r.syms ++ (l.syms.reverse ++ p.seen)).Perm (l.syms ++ r.syms ++ p.seen) := by
            rw [← List.append_assoc]
            refine List.Perm.append_right _ ?_
            exact (List.perm_append_comm).trans (List.Perm.append_right _ (List.reverse_perm _))
          exact hperm.nodup_iff.mpr hs)
      simp [parseTree, hr, Tree.bytes, freqBytes, parseSym, parseFreq, hcap, hfreq, hl, hr', closeRecord, Tree.size,
        Tree.syms]
      omega

/-- Serializations of a tree or of the null tree, with the symbols of the tree. -/
def symsOf : Option Tree → List Byte
  | none => []
  | some t => t.syms

/-- The number of nodes of a tree or of the null tree. -/
def treeSize : Option Tree → Nat
  | none => 0
  | some t => t.size

theorem parseSym_some {bs rest : List Byte} {sym : Option Byte} (h : parseSym bs = some (sym, rest)) :
    (sym = none ∧ bs = 0x00 :: rest) ∨ ∃ b, sym = some b ∧ bs = 0x01 :: b :: rest := by
  match bs with
  | [] => simp [parseSym] at h
  | m :: bs =>
    simp only [parseSym] at h
    split_ifs at h with h0 h1
    · simp only [Option.some.injEq, Prod.mk.injEq] at h
      exact .inl ⟨h.1.symm, by rw [h0, h.2]⟩
    · match bs with
      | [] => simp at h
      | b :: bs =>
        simp only [Option.some.injEq, Prod.mk.injEq] at h
        exact .inr ⟨b, h.1.symm, by rw [h1, h.2]⟩

theorem parseFreq_some {bs rest : List Byte} {w : Word} (h : parseFreq bs = some (w, rest)) :
    bs = freqBytes w ++ rest := by
  match bs with
  | b3 :: b2 :: b1 :: b0 :: bs =>
    simp only [parseFreq, Option.some.injEq, Prod.mk.injEq] at h
    rw [← h.1, freqBytes_freqOf, ← h.2]; rfl
  | [] => simp [parseFreq] at h
  | [_] => simp [parseFreq] at h
  | [_, _] => simp [parseFreq] at h
  | [_, _, _] => simp [parseFreq] at h

/-- What the parser accepts is a serialization, with symbols it had not seen and no more than NODE_CAP nodes in all
(45_treecodec.md R221, R222). -/
theorem parseTree_sound (fuel : Nat) (p p' : Parser) (ot : Option Tree) (h : parseTree fuel p = some (ot, p'))
    (hc : p.cnt ≤ Config.nodeCap) (hs : p.seen.Nodup) :
    p.rest = serialBytes ot ++ p'.rest ∧ p'.cnt = p.cnt + treeSize ot ∧ p'.cnt ≤ Config.nodeCap ∧
      p'.seen = (symsOf ot).reverse ++ p.seen ∧ p'.seen.Nodup := by
  induction fuel generalizing p p' ot with
  | zero => simp [parseTree] at h
  | succ fuel ih =>
    simp only [parseTree] at h
    split at h
    · simp at h
    next tag bs hrest =>
      split_ifs at h with h0 h1 hcap
      · simp only [Option.some.injEq, Prod.mk.injEq] at h
        obtain ⟨rfl, rfl⟩ := h
        exact ⟨by rw [hrest, h0]; rfl, rfl, hc, rfl, hs⟩
      · push Not at h1
        split at h
        · simp at h
        next sym bs₁ hsym =>
          split at h
          · simp at h
          next w bs₂ hfreq =>
            split at h
            · simp at h
            next l p₁ hl =>
              split at h
              · simp at h
              next r p₂ hr =>
                have hlt : p.cnt + 1 ≤ Config.nodeCap := by omega
                obtain ⟨el, cl, ul, sl, nl⟩ := ih _ _ _ hl hlt hs
                obtain ⟨er, cr, ur, sr, nr⟩ := ih _ _ _ hr ul nl
                have ebs₁ := parseFreq_some hfreq
                simp only [closeRecord] at h
                split at h
                · next b =>
                  split_ifs at h with hb
                  simp only [Option.some.injEq, Prod.mk.injEq] at h
                  obtain ⟨rfl, rfl⟩ := h
                  rcases parseSym_some hsym with ⟨hn, _⟩ | ⟨b', hb', ebs⟩
                  · simp at hn
                  · obtain rfl := Option.some.inj hb'
                    refine ⟨?_, ?_, ur, ?_, List.nodup_cons.mpr ⟨hb, nr⟩⟩
                    · simp only [serialBytes] at el er ⊢
                      rw [hrest, h1, ebs, ebs₁, el, er]; simp [Tree.bytes]
                    · simp only [treeSize, Tree.size] at cl cr ⊢; omega
                    · simp only [symsOf, Tree.syms] at sl sr ⊢; simp [sl, sr]
                · next lt rt =>
                  simp only [Option.some.injEq, Prod.mk.injEq] at h
                  obtain ⟨rfl, rfl⟩ := h
                  rcases parseSym_some hsym with ⟨_, ebs⟩ | ⟨b', hb', _⟩
                  · refine ⟨?_, ?_, ur, ?_, nr⟩
                    · simp only [serialBytes] at el er ⊢
                      rw [hrest, h1, ebs, ebs₁, el, er]; simp [Tree.bytes]
                    · simp only [treeSize, Tree.size] at cl cr ⊢; omega
                    · simp only [symsOf, Tree.syms] at sl sr ⊢; simp [sl, sr]
                  · simp at hb'
                · simp at h

@[simp] theorem length_layTree (i : Nat) (t : Tree) : (layTree i t).length = t.size := by
  induction t generalizing i with
  | leaf b w => rfl
  | node w l r ihl ihr => simp [layTree, ihl, ihr, Tree.size]; omega

/-- An arena that holds a tree's pre-order layout from index i on has that tree at i (45_treecodec.md R223). -/
theorem treeAt_layTree (t : Tree) (nodes : List Node) (i fuel : Nat) (hf : t.depth < fuel) (hi : i + t.size ≤ 512)
    (hn : ∀ k, k < t.size → nodes[i + k]? = (layTree i t)[k]?) : treeAt nodes fuel (BitVec.ofNat 9 i) = some t := by
  induction t generalizing i fuel with
  | leaf b w =>
    match fuel, hf with
    | fuel + 1, _ =>
      simp only [Tree.size] at hi
      have hidx : (BitVec.ofNat 9 i).toNat = i := by simp only [BitVec.toNat_ofNat]; omega
      have h0 := hn 0 (by simp [Tree.size])
      simp only [Nat.add_zero, layTree, List.getElem?_cons_zero] at h0
      simp [treeAt, hidx, h0]
  | node w l r ihl ihr =>
    match fuel, hf with
    | fuel + 1, hf =>
      simp only [Tree.size] at hi
      simp only [Tree.depth] at hf
      have hidx : (BitVec.ofNat 9 i).toNat = i := by simp only [BitVec.toNat_ofNat]; omega
      have h0 := hn 0 (by simp only [Tree.size]; omega)
      simp only [Nat.add_zero, layTree, List.getElem?_cons_zero] at h0
      have hl := ihl (i + 1) fuel (by omega) (by omega) (fun k hk => by
        have := hn (k + 1) (by simp only [Tree.size]; omega)
        rw [show i + 1 + k = i + (k + 1) by omega, this]
        simp only [layTree, List.getElem?_cons_succ]
        rw [List.getElem?_append_left (by simpa using hk)])
      have hr := ihr (i + 1 + l.size) fuel (by omega) (by omega) (fun k hk => by
        have := hn (l.size + k + 1) (by simp only [Tree.size]; omega)
        rw [show i + 1 + l.size + k = i + (l.size + k + 1) by omega, this]
        simp only [layTree, List.getElem?_cons_succ]
        rw [List.getElem?_append_right (by simp)]; simp)
      simp [treeAt, hidx, h0, hl, hr]

end Sys2Proof.Machine
end

