-- ==== Sys2Proof/Laws/Commands.lean ====
section
/-!
SUPPORT. Sys2Proof/Laws/Commands.lean: one lemma for each loop a command runs: the tally of ANALYZE, the selection of BUILD,
the paths of GENERATE, the symbol loop of PACK, the bit loops of DECODE.
-/

namespace Sys2Proof.Machine

/-- One tally counts one occurrence (40_analyze.md R141). -/
theorem tally_cnt (t : Freq) (a b : Byte) :
    ((t.tally b).cnt[a.toNat]'(a.isLt)) = (t.cnt[a.toNat]'(a.isLt)) + (if a = b then 1 else 0) := by
  simp only [Freq.tally, Vector.getElem_set]
  by_cases h : a = b
  · subst h; simp
  · have : ¬ b.toNat = a.toNat := fun e => h (BitVec.eq_of_toNat_eq e.symm)
    simp [h, this]

/-- The counts after a loop over more input (40_analyze.md R141); the sum is modulo 2^32. -/
theorem foldl_tally_cnt (input : List Byte) (t : Freq) (a : Byte) :
    ((input.foldl Freq.tally t).cnt[a.toNat]'(a.isLt)) = (t.cnt[a.toNat]'(a.isLt)) + BitVec.ofNat 32 (input.count a) := by
  induction input generalizing t with
  | nil => simp
  | cons b bs ih =>
    rw [List.foldl_cons, ih, tally_cnt, List.count_cons]
    by_cases h : a = b
    · subst h
      simp only [if_true, beq_self_eq_true, BitVec.ofNat_add, BitVec.add_assoc]
      rw [BitVec.add_comm 1]; rfl
    · have : (b == a) = false := by simpa using fun e => h e.symm
      simp [h, this]

/-- `select` answers a member that no other comes before, and the others (41_build.md R153). -/
theorem selectMin_perm (m : Member) (xs : List Member) :
    ((selectMin m xs).1 :: (selectMin m xs).2).Perm (m :: xs) := by
  induction xs generalizing m with
  | nil => simp [selectMin]
  | cons x xs ih =>
    simp only [selectMin]
    split
    · exact ((List.Perm.swap _ _ _).trans ((ih x).cons m))
    · exact ((List.Perm.swap _ _ _).trans ((ih m).cons x)).trans (List.Perm.swap _ _ _)

/-- The order of 41_build.md R153 as numbers. -/
theorem before_iff (a b : Member) :
    a.before b = true ↔ a.w.toNat < b.w.toNat ∨ (a.w.toNat = b.w.toNat ∧ a.i < b.i) := by
  simp only [Member.before, Bool.or_eq_true, decide_eq_true_eq, Bool.and_eq_true, beq_iff_eq, BitVec.toNat_eq]

/-- The selected member comes before or is level with every other (41_build.md R153). -/
theorem selectMin_least (m : Member) (xs : List Member) (x : Member) (h : x ∈ m :: xs) :
    x.before (selectMin m xs).1 = false := by
  induction xs generalizing m x with
  | nil =>
    have : x = m := by simpa using h
    subst this
    rw [Bool.eq_false_iff]; intro hb
    rw [selectMin, before_iff] at hb
    simp only at hb
    omega
  | cons y ys ih =>
    simp only [selectMin]
    split
    · next hy =>
      rcases List.mem_cons.mp h with rfl | h
      · have h1 := ih y y (by simp)
        rw [Bool.eq_false_iff, ne_eq, before_iff] at h1 ⊢
        rw [before_iff] at hy
        simp only at h1 ⊢
        omega
      · exact ih y x h
    · next hy =>
      rcases List.mem_cons.mp h with rfl | h
      · exact ih x x (by simp)
      · rcases List.mem_cons.mp h with rfl | h
        · have h1 := ih m m (by simp)
          rw [before_iff] at hy
          rw [Bool.eq_false_iff, ne_eq, before_iff] at h1 ⊢
          simp only at h1 ⊢
          omega
        · exact ih m x (by simp [h])

/-- Each turn of the merge loop makes one entry (41_build.md R158). -/
theorem length_mergeForest (fuel next : Nat) (m : Member) (ms : List Member) (h : fuel ≤ ms.length) :
    (mergeForest fuel next m ms).length = fuel := by
  induction fuel generalizing next m ms with
  | zero => rfl
  | succ fuel ih =>
    have hlen := (selectMin_perm m ms).length_eq
    simp only [List.length_cons] at hlen
    simp only [mergeForest]
    split
    · next hnil => rw [hnil, List.length_nil] at hlen; omega
    · next x xs hcons =>
      have hlen' := (selectMin_perm x xs).length_eq
      simp only [List.length_cons, hcons] at hlen hlen'
      simp only [List.length_cons]
      rw [ih]; omega

/-- The arena of n leaves has 2n - 1 entries (41_build.md R156). -/
theorem length_buildArena (leaves : List Node) : (buildArena leaves).length = 2 * leaves.length - 1 := by
  have hlen : (forestOf leaves).length = leaves.length := by simp [forestOf]
  simp only [buildArena]
  split
  · next h => rw [h] at hlen; simp at hlen; simp [hlen.symm]
  · next m ms h =>
    rw [h] at hlen; simp only [List.length_cons] at hlen
    rw [List.length_append, length_mergeForest _ _ _ _ (le_refl _)]; omega

/-- `walk` lists each leaf's symbol with its path behind the code so far (42_generate.md R166). -/
theorem mem_walk_iff (t : Tree) (code : Bits) (b : Byte) (c : Bits) :
    (b, c) ∈ t.walk code ↔ ∃ p, c = code ++ p ∧ t.HasLeaf p b := by
  induction t generalizing code with
  | leaf a w =>
    simp only [Tree.walk, List.mem_singleton, Prod.mk.injEq]
    constructor
    · rintro ⟨rfl, rfl⟩; exact ⟨[], by simp, w, rfl⟩
    · rintro ⟨p, rfl, w', hp⟩
      cases p with
      | nil => simp only [Tree.follow, Option.some.injEq, Tree.leaf.injEq] at hp; simp [hp.1]
      | cons x p => simp [Tree.follow] at hp
  | node w l r ihl ihr =>
    simp only [Tree.walk, List.mem_append, ihl, ihr]
    constructor
    · rintro (⟨p, rfl, w', hp⟩ | ⟨p, rfl, w', hp⟩)
      · exact ⟨false :: p, by simp, w', by simpa [Tree.follow] using hp⟩
      · exact ⟨true :: p, by simp, w', by simpa [Tree.follow] using hp⟩
    · rintro ⟨p, rfl, w', hp⟩
      cases p with
      | nil => simp [Tree.follow] at hp
      | cons x p =>
        cases x
        · exact .inl ⟨p, by simp, w', by simpa [Tree.follow] using hp⟩
        · exact .inr ⟨p, by simp, w', by simpa [Tree.follow] using hp⟩

/-- The symbol loop of PACK succeeds when every symbol has a code and all of it fits (43_pack.md R181). -/
theorem packStream_ok (s : State) (i len : Nat) (bs : List Byte) (hc : ∀ b ∈ bs, s.code b ≠ [])
    (hl : len + (bs.flatMap s.code).length ≤ 8 * s.outCap.toNat) : packStream s i len bs = .ok (bs.flatMap s.code) := by
  induction bs generalizing i len with
  | nil => rfl
  | cons b bs ih =>
    have hb : (s.code b).length ≠ 0 := fun h => hc b (by simp) (List.length_eq_zero_iff.mp h)
    simp only [List.flatMap_cons, List.length_append] at hl
    have hle : ¬ 8 * s.outCap.toNat < len + (s.code b).length := by omega
    simp [packStream, hb, hle, ih (i + 1) (len + (s.code b).length) (fun b h => hc b (by simp [h])) (by omega)]

/-- The symbol loop of PACK passes a prefix whose symbols have codes that fit, and goes on behind it (43_pack.md R181). -/
theorem packStream_append_error (s : State) (i len : Nat) (bs cs : List Byte) (e : ErrCode × Nat)
    (hc : ∀ b ∈ bs, s.code b ≠ []) (hl : len + (bs.flatMap s.code).length ≤ 8 * s.outCap.toNat)
    (he : packStream s (i + bs.length) (len + (bs.flatMap s.code).length) cs = .error e) :
    packStream s i len (bs ++ cs) = .error e := by
  induction bs generalizing i len with
  | nil => simpa using he
  | cons b bs ih =>
    have hb : (s.code b).length ≠ 0 := fun h => hc b (by simp) (List.length_eq_zero_iff.mp h)
    simp only [List.flatMap_cons, List.length_append, List.length_cons] at hl he
    have hle : ¬ 8 * s.outCap.toNat < len + (s.code b).length := by omega
    have := ih (i + 1) (len + (s.code b).length) (fun b h => hc b (by simp [h])) (by omega)
      (by rw [show i + 1 + bs.length = i + (bs.length + 1) by omega, Nat.add_assoc]; exact he)
    simp [packStream, hb, hle, this]

/-- Every error of PACK's symbol loop is UNKNOWN_SYMBOL or OUT_OVERFLOW (43_pack.md R181). -/
theorem packStream_error {s : State} {i len : Nat} {bs : List Byte} {e : ErrCode × Nat}
    (h : packStream s i len bs = .error e) : e.1 = .unknownSymbol ∨ e.1 = .outOverflow := by
  induction bs generalizing i len with
  | nil => simp [packStream] at h
  | cons b bs ih =>
    simp only [packStream] at h
    split_ifs at h
    · exact .inl (by rw [← Except.error.inj h])
    · exact .inr (by rw [← Except.error.inj h])
    · split at h
      · simp at h
      · next heq => exact ih (by rw [heq, Except.error.inj h])

/-- The loop of DECODE for a leaf root that does not overflow (44_decode.md R198). -/
theorem repeatLeaf_ok (s : State) (n k : Nat) (h : n + k ≤ s.outCap.toNat) :
    repeatLeaf s n k = .ok (List.replicate k (s.node s.root.toNat).sym) := by
  induction k generalizing n with
  | zero => rfl
  | succ k ih =>
    have hn : n ≠ s.outCap.toNat := by omega
    simp [repeatLeaf, hn, ih (n + 1) (by omega), List.replicate_succ]

/-- The loop of DECODE for a leaf root that overflows does so at bit OUT_CAP (44_decode.md R197). -/
theorem repeatLeaf_error (s : State) (n k : Nat) (hn : n ≤ s.outCap.toNat) (h : s.outCap.toNat < n + k) :
    repeatLeaf s n k = .error (.outOverflow, s.outCap.toNat) := by
  induction k generalizing n with
  | zero => omega
  | succ k ih =>
    by_cases he : n = s.outCap.toNat
    · simp [repeatLeaf, he]
    · simp [repeatLeaf, he, ih (n + 1) (by omega) (by omega)]

/-- What DECODE's walk of the bits can answer: at most OUT_CAP symbols, or the overflow at a bit it was given. -/
theorem walkBits_bound (s : State) (j n : Nat) (cur : Idx) (bits : Bits) (hn : n ≤ s.outCap.toNat) :
    (∀ r, walkBits s j n cur bits = .ok r → n + r.1.length ≤ s.outCap.toNat) ∧
      ∀ e, walkBits s j n cur bits = .error e → e.1 = .outOverflow ∧ j ≤ e.2 ∧ e.2 < j + bits.length := by
  induction bits generalizing j n cur with
  | nil =>
    refine ⟨fun r h => ?_, fun e h => ?_⟩
    · simp only [walkBits, Except.ok.injEq] at h; subst h; simpa using hn
    · simp [walkBits] at h
  | cons b bs ih =>
    refine ⟨fun r h => ?_, fun e h => ?_⟩
    · simp only [walkBits] at h
      split_ifs at h with h1 h2
      · split at h
        · next r' hr =>
          have := (ih (j + 1) (n + 1) s.root (by omega)).1 r' hr
          simp only [Except.ok.injEq] at h; subst h; simp only [List.length_cons]; omega
        · simp at h
      · exact (ih (j + 1) n _ hn).1 r h
    · simp only [walkBits] at h
      split_ifs at h with h1 h2
      · simp only [Except.error.injEq] at h; subst h; simp
      · split at h
        · simp at h
        · next e' he =>
          have := (ih (j + 1) (n + 1) s.root (by omega)).2 e' he
          simp only [Except.error.injEq] at h; subst h
          simp only [List.length_cons]; exact ⟨this.1, by omega, by omega⟩
      · have := (ih (j + 1) n _ hn).2 e h
        simp only [List.length_cons]; exact ⟨this.1, by omega, by omega⟩

end Sys2Proof.Machine
end

