-- ==== Sys2Proof/Laws/Decode.lean ====
section
/-!
SUPPORT. Sys2Proof/Laws/Decode.lean: the command table has one row for a word, and what the decoder answers beside it.
-/

namespace Sys2Proof

/-- The table's patterns are the seven command words of 30_encoding.md R101. -/
theorem opTable_patterns : opTable.map OpRow.pattern = commandWords := by decide

/-- No two rows of the command table match one word: all compare the whole word, with different patterns. -/
theorem opTable_disjoint : opTable.Pairwise (fun a b => a.mask = 0xFFFFFFFF ∧ b.mask = 0xFFFFFFFF ∧ a.pattern ≠ b.pattern) := by
  decide

/-- A row with the full mask matches its pattern only. -/
theorem opRow_fits (op : Byte) (i : Instr) (w : Word) : (opRow op i).fits w = true ↔ w = formatC op := by
  have h : w &&& 0xFFFFFFFF = w := by
    have : (0xFFFFFFFF : Word) = BitVec.allOnes 32 := by decide
    rw [this, BitVec.and_allOnes]
  simp only [OpRow.fits, opRow, h, beq_iff_eq]

/-- A word that is none of the seven is ILLEGAL (30_encoding.md R104). -/
theorem decode_of_not_mem {w : Word} (h : w ∉ commandWords) : decode w = .illegal w := by
  have hn : opTable.find? (·.fits w) = none := by
    rw [List.find?_eq_none]
    intro r hr hf
    refine h (opTable_patterns ▸ List.mem_map.mpr ⟨r, hr, ?_⟩)
    have hm : r.mask = 0xFFFFFFFF := by
      have : ∀ r ∈ opTable, r.mask = 0xFFFFFFFF := by decide
      exact this r hr
    have hw : w &&& 0xFFFFFFFF = w := by
      have : (0xFFFFFFFF : Word) = BitVec.allOnes 32 := by decide
      rw [this, BitVec.and_allOnes]
    have := hf
    simp only [OpRow.fits, hm, hw, beq_iff_eq] at this
    exact this.symm
  simp [decode, hn]

end Sys2Proof
end

