-- ==== Sys2Proof/Laws/Step.lean ====
section
/-!
SUPPORT. Sys2Proof/Laws/Step.lean: what one step can do, said once, and what one access of the host port can do.
-/

namespace Sys2Proof.Machine

/-- What a host access that is not refused does (20_memory.md R72, R85). -/
theorem hostAccess_cases {s t : State} {op : HostOp} (h : hostAccess s op = .next t) :
    (∃ w off r k, op = .read w off ∧ locate s w off = .ok (r, k) ∧
      ((s.busy = true ∧ readableBusy k r = false ∧ t = (s.deliver (s.hidden r)).drawn) ∨
        ((s.busy = false ∨ readableBusy k r = true) ∧ t = s.deliver (s.readUnit k r)))) ∨
      ∃ w off v r k, op = .write w off v ∧ locate s w off = .ok (r, k) ∧
        ((s.busy = true ∧ t = s) ∨ (s.busy = false ∧ t = s.writeUnit k v r)) := by
  cases op with
  | read w off =>
    left
    cases hl : locate s w off with
    | error r => simp [hostAccess, hl] at h
    | ok p =>
      obtain ⟨r, k⟩ := p
      refine ⟨w, off, r, k, rfl, hl, ?_⟩
      simp only [hostAccess, hl] at h
      split at h
      · next hb =>
        simp only [Bool.and_eq_true, Bool.not_eq_true'] at hb
        exact .inl ⟨hb.1, hb.2, (Host.Outcome.next.inj h).symm⟩
      · next hb =>
        refine .inr ⟨?_, (Host.Outcome.next.inj h).symm⟩
        cases hbusy : s.busy <;> cases hr : readableBusy k r <;> simp_all
  | write w off v =>
    right
    cases hl : locate s w off with
    | error r => simp [hostAccess, hl] at h
    | ok p =>
      obtain ⟨r, k⟩ := p
      refine ⟨w, off, v, r, k, rfl, hl, ?_⟩
      simp only [hostAccess, hl] at h
      split at h
      · next hb => exact .inl ⟨hb, (Host.Outcome.next.inj h).symm⟩
      · next hb => exact .inr ⟨by simpa using hb, (Host.Outcome.next.inj h).symm⟩

/-- What a write of an idle block's unit does: one of five things (20_memory.md R72). -/
theorem writeUnit_cases (s : State) (k : Nat) (v : Word) (r : Region) :
    s.writeUnit k v r = s ∨ (r = .reg ∧ regMap[k]? = some .cmd ∧ s.writeUnit k v r = s.start v) ∨
      (r = .reg ∧ regMap[k]? = some .inLen ∧ s.writeUnit k v r = { s with inLen := v }) ∨
      (r = .reg ∧ regMap[k]? = some .nbits ∧ s.writeUnit k v r = { s with nbits := v }) ∨
      (r = .inBuf ∧ s.writeUnit k v r = { s with inBuf := s.inBuf.write k (v.setWidth 8) }) := by
  cases r with
  | reg =>
    cases h : regMap[k]? with
    | none => simp [State.writeUnit, h]
    | some g => cases g <;> simp [State.writeUnit, h, State.writeReg]
  | inBuf => simp [State.writeUnit]
  | ftCnt => exact .inl rfl
  | ftOrd => exact .inl rfl
  | node => exact .inl rfl
  | ct => exact .inl rfl
  | outBuf => exact .inl rfl

/-- What a step that answers a next state is (00_scope.md R14): the engine's completion of the running command, nothing,
a host access, or a reset. -/
theorem step_cases {s t : State} (h : step s = .next t) :
    (∃ s', (s' = s ∧ s.agenda = [] ∨ ∃ rest, s.agenda = .engine :: rest ∧ s' = { s with agenda := rest }) ∧
      ((s.busy = true ∧ exec s'.command s' = .next t) ∨ (s.busy = false ∧ t = s'))) ∨
      (∃ op rest, s.agenda = .host op :: rest ∧ hostAccess { s with agenda := rest } op = .next t) ∨
      ∃ rest, s.agenda = .reset :: rest ∧ t = { s with agenda := rest }.pulseReset := by
  have engine : ∀ s' : State, s'.busy = s.busy → engineTurn s' = .next t →
      (s.busy = true ∧ exec s'.command s' = .next t) ∨ (s.busy = false ∧ t = s') := by
    intro s' hb he
    simp only [engineTurn, hb] at he
    split at he
    · next hbusy => exact .inl ⟨hbusy, he⟩
    · next hbusy => exact .inr ⟨by simpa using hbusy, (Host.Outcome.next.inj he).symm⟩
  unfold step at h
  split at h
  · next ha => exact .inl ⟨s, .inl ⟨rfl, ha⟩, engine s rfl h⟩
  · next e rest ha =>
    cases e with
    | host op => exact .inr (.inl ⟨op, rest, ha, h⟩)
    | engine => exact .inl ⟨_, .inr ⟨rest, ha, rfl⟩, engine _ rfl h⟩
    | reset => exact .inr (.inr ⟨rest, ha, (Host.Outcome.next.inj h).symm⟩)

end Sys2Proof.Machine
end

