-- ==== Sys2Proof/Laws/HostPort.lean ====
section
/-!
SUPPORT. Sys2Proof/Laws/HostPort.lean: the address map said once: which accesses the port accepts and where they go
(20_memory.md R73, R78, R83, R84).
-/

namespace Sys2Proof.Machine

/-- The offsets of each region (20_memory.md R73). -/
def Region.holds (s : State) (off : Nat) : Region → Prop
  | .reg => off < 0x3C
  | .ftCnt => 0x1000 ≤ off ∧ off < 0x1400
  | .ftOrd => 0x1400 ≤ off ∧ off < 0x1800
  | .node => 0x2000 ≤ off ∧ off < 0x3FF0
  | .ct => 0x4000 ≤ off ∧ off < 0x8000
  | .inBuf => 0x20000000 ≤ off ∧ off < 0x20000000 + s.inCap.toNat
  | .outBuf => 0x40000000 ≤ off ∧ off < 0x40000000 + s.outCap.toNat

/-- The region answered for an offset holds it. -/
theorem regionOf_holds {s : State} {off : Nat} {r : Region} (h : regionOf s off = some r) : r.holds s off := by
  simp only [regionOf] at h
  split_ifs at h <;> simp only [Option.some.injEq] at h <;> subst h <;> assumption

/-- An offset that some region holds is mapped. -/
theorem regionOf_isSome {s : State} {off : Nat} (r : Region) (h : r.holds s off) : ∃ r', regionOf s off = some r' := by
  simp only [regionOf]
  split_ifs with h1 h2 h3 h4 h5 h6 h7
  all_goals first
    | exact ⟨_, rfl⟩
    | (exfalso; cases r <;> simp only [Region.holds] at h <;> contradiction)

/-- An accepted access has its region's width, is aligned, and goes to the unit at its distance from the base. -/
theorem locate_ok {s : State} {w : Width} {off k : Nat} {r : Region} (h : locate s w off = .ok (r, k)) :
    regionOf s off = some r ∧ w = r.width ∧ off % w.bytes = 0 ∧ k = (off - r.base) / w.bytes := by
  simp only [locate] at h
  split at h
  · simp at h
  next r' hr =>
    split_ifs at h with hw ha
    simp only [Except.ok.injEq, Prod.mk.injEq] at h
    obtain ⟨rfl, rfl⟩ := h
    exact ⟨hr, by push Not at hw; exact hw, by push Not at ha; exact ha, rfl⟩

/-- The port accepts an access exactly when the address map has it (20_memory.md R78). -/
theorem locate_ok_iff_mapped (s : State) (w : Width) (off : Nat) : (∃ p, locate s w off = .ok p) ↔ Mapped s w off := by
  constructor
  · rintro ⟨⟨r, k⟩, h⟩
    obtain ⟨hr, hw, ha, _⟩ := locate_ok h
    have hh := regionOf_holds hr
    subst hw
    cases r <;> simp only [Region.holds] at hh <;> simp only [Region.width, Width.bytes] at ha <;>
      first
      | exact .inl ⟨rfl, ha, by omega⟩
      | exact .inr ⟨rfl, .inl hh⟩
      | exact .inr ⟨rfl, .inr hh⟩
  · intro h
    rcases h with ⟨rfl, ha, h⟩ | ⟨rfl, h⟩
    · have hsome : ∃ r, regionOf s off = some r ∧ r.width = .b32 := by
        simp only [regionOf]
        split_ifs with h1 h2 h3 h4 h5 h6 h7
        all_goals first
          | exact ⟨_, rfl, rfl⟩
          | omega
      obtain ⟨r, hr, hw⟩ := hsome
      exact ⟨_, by simp only [locate, hr, hw, Width.bytes, ha, ne_eq, not_true_eq_false, if_false]; rfl⟩
    · have hsome : ∃ r, regionOf s off = some r ∧ r.width = .b8 := by
        simp only [regionOf]
        split_ifs with h1 h2 h3 h4 h5 h6 h7
        all_goals first
          | exact ⟨_, rfl, rfl⟩
          | omega
      obtain ⟨r, hr, hw⟩ := hsome
      exact ⟨_, by simp only [locate, hr, hw, Width.bytes, Nat.mod_one, ne_eq, not_true_eq_false, if_false]; rfl⟩

end Sys2Proof.Machine
end

