-- ==== Sys2Proof/Laws/PerInstr.lean ====
section
/-!
SUPPORT. Sys2Proof/Laws/PerInstr.lean: the statements made command by command. RoundTrip: the decoder gives back the encoded
command (30_encoding.md R101, R103, R104).
-/

namespace Sys2Proof.Laws.RoundTrip

/-- The decoder gives back a well-formed command from its word. -/
def Statement (i : Instr) : Prop := i.wf = true → Sys2Proof.decode (encode i) = i

theorem analyze : Statement .analyze := fun _ => by decide
theorem build : Statement .build := fun _ => by decide
theorem generate : Statement .generate := fun _ => by decide
theorem pack : Statement .pack := fun _ => by decide
theorem decode : Statement .decode := fun _ => by decide
theorem serialize : Statement .serialize := fun _ => by decide
theorem deserialize : Statement .deserialize := fun _ => by decide
theorem illegal (word : Word) : Statement (.illegal word) := fun h =>
  decode_of_not_mem (show word ∉ commandWords by simpa [Instr.wf] using h)

end Sys2Proof.Laws.RoundTrip
end

