-- ==== Sys2Proof/Tests/Slice0.lean ====
section
/-!
SUPPORT. Sys2Proof/Tests/Slice0.lean: the model's own tests. Expected values come from spec/95_test_vectors.md (the vector is
named) or from the rule named; then one witness for each statement that has hypotheses.
-/

namespace Sys2Proof.Tests
open Sys2Proof Sys2Proof.Machine

/-! ## Helpers -/

/-- A state right after reset into which the host has loaded bytes (30_encoding.md R125, LOAD). -/
def loaded (bytes : List Byte) : State :=
  { State.reset with inBuf := Memory.ofBytes 0 bytes, inLen := BitVec.ofNat 32 bytes.length }

/-- The state after a command, or the state itself if the command does not complete. -/
def after (i : Instr) (s : State) : State :=
  match exec i s with
  | .next t => t
  | .fault _ => s
  | .refused _ => s

/-- Does a command complete? -/
def completes (i : Instr) (s : State) : Bool :=
  match exec i s with
  | .next _ => true
  | .fault _ => false
  | .refused _ => false

theorem exec_after {i : Instr} {s : State} (h : completes i s = true) : exec i s = .next (after i s) := by
  simp only [completes, after] at h ⊢
  split at h <;> simp_all

/-- The state after a step, or the state itself if the step stops. -/
def stepped (s : State) : State :=
  match step s with
  | .next t => t
  | .fault _ => s
  | .refused _ => s

/-- Does a step answer a next state? -/
def steps (s : State) : Bool :=
  match step s with
  | .next _ => true
  | .fault _ => false
  | .refused _ => false

theorem step_stepped {s : State} (h : steps s = true) : step s = .next (stepped s) := by
  simp only [steps, stepped] at h ⊢
  split at h <;> simp_all

/-- The reason of a refused step. -/
def refusalOf (s : State) : Option Refusal :=
  match step s with
  | .next _ => none
  | .fault _ => none
  | .refused r => some r

/-- A state with one event to come. -/
def withEvent (s : State) (e : Event) : State := { s with agenda := [e] }

/-- "abacabad" (95_test_vectors.md V-ANA-1). -/
def abacabad : List Byte := [0x61, 0x62, 0x61, 0x63, 0x61, 0x62, 0x61, 0x64]

/-- A block that holds a tree in the given entries. -/
def treeIn (nodes : List Node) (root : Idx) : State :=
  { State.reset with nodes := nodes, root := root, nnode := BitVec.ofNat 10 nodes.length }

/-- The arena of 95_test_vectors.md V-BUILD-1. -/
def arena1 : List Node :=
  [leafNode 0x61 4, leafNode 0x62 2, leafNode 0x63 1, leafNode 0x64 1, innerNode 2 2 3, innerNode 4 1 4, innerNode 8 0 5]

/-- The arena of 95_test_vectors.md V-DES-1: the same tree, placed by DESERIALIZE. -/
def arenaDes1 : List Node :=
  [innerNode 8 1 2, leafNode 0x61 4, innerNode 4 3 4, leafNode 0x62 2, innerNode 2 5 6, leafNode 0x63 1, leafNode 0x64 1]

/-- The tree of both. -/
def tree1 : Tree := .node 8 (.leaf 0x61 4) (.node 4 (.leaf 0x62 2) (.node 2 (.leaf 0x63 1) (.leaf 0x64 1)))

/-- The codes of 95_test_vectors.md V-GEN-1. -/
def codes1 : Vector Bits 256 :=
  (((noCodes.set 0x61 [false]).set 0x62 [true, false]).set 0x63 [true, true, false]).set 0x64 [true, true, true]

/-- The bytes of 95_test_vectors.md V-SER-1 (30_encoding.md R121). -/
def bytes1 : List Byte :=
  [0x01, 0x00, 0, 0, 0, 8] ++ [0x01, 0x01, 0x61, 0, 0, 0, 4, 0, 0] ++ [0x01, 0x00, 0, 0, 0, 4] ++
    [0x01, 0x01, 0x62, 0, 0, 0, 2, 0, 0] ++ [0x01, 0x00, 0, 0, 0, 2] ++ [0x01, 0x01, 0x63, 0, 0, 0, 1, 0, 0] ++
    [0x01, 0x01, 0x64, 0, 0, 0, 1, 0, 0]

/-- Every legal state of V-BUILD-1's tree, with an input. -/
def deep (input : List Byte) (nbits : Word) : State :=
  { treeIn arena1 6 with inBuf := Memory.ofBytes 0 input, inLen := BitVec.ofNat 32 input.length, nbits := nbits }

/-- A block whose tree is the leaf 'a' of weight 4 (V-BUILD-2). -/
def single (input : List Byte) (nbits : Word) : State :=
  { treeIn [leafNode 0x61 4] 0 with inBuf := Memory.ofBytes 0 input, inLen := BitVec.ofNat 32 input.length, nbits := nbits }

/-! ## Well-formedness -/

/-- Each of the seven words is refused as an ILLEGAL's word (30_encoding.md R104). -/
theorem test_wf_refuses_illegal_with_a_command_word :
    [1, 2, 3, 4, 5, 6, 7].map (fun w => (Instr.illegal w).wf) = List.replicate 7 false := by decide

theorem test_wf_accepts_other_words : (Instr.illegal 0).wf = true ∧ (Instr.illegal 8).wf = true ∧
    (Instr.illegal 0x101).wf = true := by decide

/-! ## Decoding: words written out from 30_encoding.md R100, R101 (ZERO = bits 31:8, OP = bits 7:0) -/

theorem test_decode_ANALYZE : decode 0b00000000000000000000000000000001 = .analyze := by decide
theorem test_decode_BUILD : decode 0b00000000000000000000000000000010 = .build := by decide
theorem test_decode_GENERATE : decode 0b00000000000000000000000000000011 = .generate := by decide
theorem test_decode_PACK : decode 0b00000000000000000000000000000100 = .pack := by decide
theorem test_decode_DECODE : decode 0b00000000000000000000000000000101 = .decode := by decide
theorem test_decode_SERIALIZE : decode 0b00000000000000000000000000000110 = .serialize := by decide
theorem test_decode_DESERIALIZE : decode 0b00000000000000000000000000000111 = .deserialize := by decide

/-- V-CMD-1, V-CMD-2, V-CMD-3, V-CMD-4. -/
theorem test_decode_ILLEGAL : decode 0 = .illegal 0 ∧ decode 8 = .illegal 8 ∧ decode 0x101 = .illegal 0x101 ∧
    decode 0xFFFFFFFF = .illegal 0xFFFFFFFF := by decide

theorem test_decodeTableWord : decodeTableWord 32 5 = some .decode ∧ decodeTableWord 32 (2 ^ 32) = none := by decide

/-! ## Commands (95_test_vectors.md) -/

/-- V-ANA-1. -/
theorem test_analyze_abacabad :
    let t := after .analyze (loaded abacabad)
    t.nsym = 4 ∧ t.ftOrd = [0x61, 0x62, 0x63, 0x64] ∧ t.ftOrd.map t.cnt = [4, 2, 1, 1] ∧ t.status = 2 := by decide

/-- V-ANA-8. -/
theorem test_analyze_bad_operand :
    let t := after .analyze { loaded [] with inLen := 65537, nsym := 3, ftOrd := [1, 2, 3] }
    t.nsym = 0 ∧ t.err = 7 ∧ t.errInfo = 65537 ∧ t.status = 6 := by decide

/-- A block that holds a frequency table in the given insertion order. -/
def tabled (pairs : List (Byte × Word)) : State :=
  { State.reset with
    nsym := BitVec.ofNat 9 pairs.length
    ftOrd := pairs.map Prod.fst
    ftCnt := pairs.foldl (fun v p => v.set p.1.toNat p.2 p.1.isLt) noCounts }

/-- V-BUILD-4: an internal entry lighter than a leaf goes left, a tie goes to the older entry. -/
theorem test_build_mississippi :
    let t := after .build (tabled [(0x6D, 1), (0x69, 4), (0x73, 4), (0x70, 2)])
    t.nodes = [leafNode 0x6D 1, leafNode 0x69 4, leafNode 0x73 4, leafNode 0x70 2, innerNode 3 0 3, innerNode 7 4 1,
      innerNode 11 2 5] ∧ t.root = 6 ∧ t.nnode = 7 ∧ t.status = 2 := by decide +kernel

/-- V-BUILD-1, then V-BUILD-3: the empty table is rejected and the tree is gone. -/
theorem test_build_abacabad_then_empty :
    (after .build (tabled [(0x61, 4), (0x62, 2), (0x63, 1), (0x64, 1)])).nodes = arena1 ∧
      (after .build (treeIn arena1 6)).err = 1 ∧ (after .build (treeIn arena1 6)).root = 0x1FF := by decide

/-- V-GEN-1. -/
theorem test_generate_abacabad :
    [0x60, 0x61, 0x62, 0x63, 0x64, 0x65].map (after .generate (treeIn arena1 6)).code =
      [[], [false], [true, false], [true, true, false], [true, true, true], []] := by decide

/-- V-GEN-2, V-GEN-3. -/
theorem test_generate_single_and_null :
    (after .generate (single [] 0)).code 0x61 = [false] ∧ (after .generate (loaded [])).err = 4 := by decide

/-- V-PACK-1. -/
theorem test_pack_abacabad :
    let t := after .pack { loaded abacabad with ct := codes1 }
    t.bitLen = 14 ∧ t.outLen = 2 ∧ t.output = [0x4C, 0x9C] ∧ t.status = 2 := by decide

/-- V-PACK-6. -/
theorem test_pack_unknown_symbol :
    let t := after .pack { loaded [0x61, 0x62, 0x65, 0x61] with ct := codes1, bitLen := 14, outLen := 2 }
    t.err = 2 ∧ t.errInfo = 2 ∧ t.bitLen = 0 ∧ t.outLen = 0 := by decide

/-- V-DEC-1, V-DEC-3. -/
theorem test_decode_abacabad_and_pad :
    (after .decode (deep [0x4C, 0x9C] 14)).output = abacabad ∧
      (after .decode (deep [0x4C, 0x9C] 16)).output = abacabad ++ [0x61, 0x61] := by decide

/-- V-DEC-4, V-DEC-7, V-DEC-10. -/
theorem test_decode_truncated_and_single_leaf :
    ((after .decode (deep [0x4C, 0x9C] 13)).err = 5 ∧ (after .decode (deep [0x4C, 0x9C] 13)).errInfo = 13) ∧
      ((after .decode (deep [0x4C, 0x9C] 17)).err = 5 ∧ (after .decode (deep [0x4C, 0x9C] 17)).errInfo = 16) ∧
      (after .decode (single [0xFF] 3)).output = [0x61, 0x61, 0x61] := by decide

/-- V-SER-1. -/
theorem test_serialize_abacabad :
    let t := after .serialize (treeIn arena1 6)
    t.output = bytes1 ∧ t.outLen = 54 ∧ t.err = 0 := by decide

/-- V-SER-3, and the byte order of V-SER-7. -/
theorem test_serialize_null_and_byte_order :
    (after .serialize (loaded [])).output = [0x00] ∧
      (after .serialize (treeIn [leafNode 0x41 65536] 0)).output = [1, 1, 0x41, 0x00, 0x01, 0x00, 0x00, 0, 0] := by decide

/-- V-DES-1. -/
theorem test_deserialize_abacabad :
    let t := after .deserialize (loaded bytes1)
    t.nodes = arenaDes1 ∧ t.root = 0 ∧ t.nnode = 7 ∧ t.err = 0 := by decide

/-- V-DES-3 (accepted), V-DES-4, V-DES-5, V-DES-7, V-DES-8, V-DES-9, V-DES-10, V-DES-11, V-DES-12 (rejected). -/
theorem test_deserialize_accepts_and_rejects :
    (after .deserialize (loaded [0])).err = 0 ∧
      ([[], [2], bytes1 ++ [0], [1, 1, 0x61, 0, 0, 0, 4, 1, 1, 0x62, 0, 0, 0, 1, 0, 0, 0],
        [1, 0, 0, 0, 0, 4, 1, 1, 0x61, 0, 0, 0, 4, 0, 0, 0], [1, 0, 0, 0, 0, 4, 0, 0],
        [1, 0, 0, 0, 0, 2, 1, 1, 0x61, 0, 0, 0, 1, 0, 0, 1, 1, 0x61, 0, 0, 0, 1, 0, 0],
        [1, 2, 0x61, 0, 0, 0, 4, 0, 0]].map fun b => (after .deserialize (loaded b)).err) = List.replicate 8 4 := by decide

/-- V-CMD-4. -/
theorem test_illegal_clears_nothing :
    let t := after (.illegal 0xFFFFFFFF) (treeIn arena1 6)
    t.err = 6 ∧ t.errInfo = 0xFFFFFFFF ∧ t.status = 6 ∧ t.root = 6 ∧ t.nnode = 7 := by decide

/-! ## The host port, start, reset -/

/-- V-REG-1, V-REG-3, V-REG-4. -/
theorem test_registers :
    (stepped (withEvent (loaded []) (.host (.read .b32 0x00)))).hostReads = [0x48554646] ∧
      (stepped (withEvent (loaded []) (.host (.write .b32 0x18 0xFFFFFFFF)))).inLen = 0xFFFFFFFF ∧
      (stepped (withEvent (loaded []) (.host (.write .b32 0x20 5)))).outLen = 0 := by decide

/-- The host view of V-GEN-1: LEN of 'b' at 0x5880; the arena word 1 of V-BUILD-1's leaf 'a' (20_memory.md R77). -/
theorem test_windows :
    (stepped (withEvent { loaded [] with ct := codes1 } (.host (.read .b32 0x5880)))).hostReads = [2] ∧
      (stepped (withEvent (treeIn arena1 6) (.host (.read .b32 0x2004)))).hostReads = [0x161] := by decide

/-- 20_memory.md R78, R83: REG 0x3C, entry 511, a byte access to REG, a misaligned word. -/
theorem test_refused_accesses :
    [(.read .b32 0x3C), (.read .b32 0x3FF0), (.read .b8 0x0C), (.write .b32 0x19 0)].map
        (fun op => refusalOf (withEvent (loaded []) (.host op))) =
      [some (.unmapped 0x3C), some (.unmapped 0x3FF0), some (.wrongWidth 0x0C), some (.misaligned 0x19)] := by decide

/-- 60_exceptions.md R268: a CMD write starts; the engine's turn completes (V-CMD-5). -/
theorem test_start_then_completion :
    let s := stepped (withEvent { loaded [] with err := 6, errInfo := 9, status := 6 } (.host (.write .b32 0x08 1)))
    s.status = 1 ∧ s.cmd = 1 ∧ s.err = 6 ∧ (stepped s).status = 2 ∧ (stepped s).err = 0 := by decide

/-- 70_reset_and_hazards.md R301: a reset ends a running command. -/
theorem test_reset_ends_a_command :
    let t := stepped (withEvent ((treeIn arena1 6).start 6) .reset)
    t.status = 0 ∧ t.err = 0 ∧ t.root = 0x1FF ∧ t.outLen = 0 := by decide

/-- The fetch place of the block is CMD: the very next step runs the word (log 3). -/
theorem test_withFetchWord :
    (stepped (State.reset.withFetchWord 32 5)).err = 4 ∧ (stepped (State.reset.withFetchWord 32 6)).outLen = 1 ∧
      (stepped (State.reset.withFetchWord 32 0)).err = 6 := by decide

/-- The results of COMPRESS "aaaa" (46_sequences.md R242). -/
theorem test_compress_aaaa :
    (match compress 1 [0x61, 0x61, 0x61, 0x61] State.reset with
      | .ok (x, _) => some x
      | .error _ => none) =
      some { packed := [0x00], bitLen := 4, tree := [1, 1, 0x61, 0, 0, 0, 4, 0, 0] } := by decide

/-- DECOMPRESS with no stored tree stops before it touches the block; with an empty store's bytes the block answers
CORRUPT_TREE (46_sequences.md R246, 45_treecodec.md R221). -/
theorem test_decompress_without_tree :
    decompress 0 none [] 0 State.reset = .error .noStoredTree ∧
      decompress 0 (some []) [] 0 State.reset = .error (.failed 4) := by
  exact ⟨rfl, by decide⟩

/-! ## Witnesses: for each statement with hypotheses, states and operands that meet them -/

theorem arena1_tree : (treeIn arena1 6).TreeInv := by
  refine .inr ⟨by decide, by decide, by decide, by decide, ?_, tree1, by decide, by decide, by decide, by decide⟩
  intro e he
  simp only [treeIn, arena1, List.mem_cons, List.not_mem_nil, or_false] at he
  rcases he with rfl | rfl | rfl | rfl | rfl | rfl | rfl <;> (unfold Node.Ok; decide)

/-- A block whose tree is V-BUILD-1's holds a legal tree, whatever its input. -/
theorem deep_tree (input : List Byte) (nbits : Word) : (deep input nbits).TreeInv := arena1_tree

theorem des_tree : (treeIn arenaDes1 0).TreeInv := by
  refine .inr ⟨by decide, by decide, by decide, by decide, ?_, tree1, by decide, by decide, by decide, by decide⟩
  intro e he
  simp only [treeIn, arenaDes1, List.mem_cons, List.not_mem_nil, or_false] at he
  rcases he with rfl | rfl | rfl | rfl | rfl | rfl | rfl <;> (unfold Node.Ok; decide)

theorem leaf_tree : (treeIn [leafNode 0x61 4] 0).TreeInv := by
  refine .inr ⟨by decide, by decide, by decide, by decide, ?_, .leaf 0x61 4, by decide, by decide, by decide, by decide⟩
  intro e he
  simp only [treeIn, List.mem_cons, List.not_mem_nil, or_false] at he
  subst he
  unfold Node.Ok
  decide

theorem single_tree (input : List Byte) (nbits : Word) : (single input nbits).TreeInv := leaf_tree

theorem arena1_caps : (treeIn arena1 6).Caps := by
  unfold State.Caps; decide

theorem arena1_table : (treeIn arena1 6).TableInv := by
  unfold State.TableInv State.total; decide +kernel

theorem deep_caps (input : List Byte) (nbits : Word) : (deep input nbits).Caps := arena1_caps

theorem deep_table (input : List Byte) (nbits : Word) : (deep input nbits).TableInv := arena1_table

theorem deep_codes (input : List Byte) (nbits : Word) : (deep input nbits).CodeInv := by
  have h : ∀ b, (deep input nbits).code b = [] := fun b => by simp [State.code, deep, treeIn, State.reset, State.resetWith]
  exact ⟨fun a b _ ha => absurd (h a) ha, fun b => by simp [h b]⟩

/-- The block of `deep` with two stream bytes, DECODE running. -/
def decoding : State := (deep [0x4C, 0x9C] 14).start 5

theorem decoding_buffers : decoding.BufferInv := by
  unfold State.BufferInv; decide

theorem decoding_status : decoding.StatusInv :=
  ⟨by decide, by decide, ⟨.ok, by decide, by decide⟩, by decide⟩

theorem decoding_inv : decoding.Inv :=
  ⟨deep_caps [0x4C, 0x9C] 14, deep_table [0x4C, 0x9C] 14, deep_tree [0x4C, 0x9C] 14, deep_codes [0x4C, 0x9C] 14, decoding_buffers, decoding_status⟩

theorem witness_StepKeepsInv : decoding.Inv ∧ step decoding = .next (stepped decoding) :=
  ⟨decoding_inv, step_stepped (by decide)⟩

theorem witness_StepKeepsFrequencyTable :
    decoding.Caps ∧ decoding.TableInv ∧ step decoding = .next (stepped decoding) :=
  ⟨deep_caps [0x4C, 0x9C] 14, deep_table [0x4C, 0x9C] 14, step_stepped (by decide)⟩

theorem witness_StepKeepsTree :
    decoding.Caps ∧ decoding.TableInv ∧ decoding.TreeInv ∧ step decoding = .next (stepped decoding) :=
  ⟨deep_caps [0x4C, 0x9C] 14, deep_table [0x4C, 0x9C] 14, deep_tree [0x4C, 0x9C] 14, step_stepped (by decide)⟩

/-- GENERATE running on a legal tree. -/
theorem witness_StepKeepsCodesPrefixFree :
    let s := (deep [] 0).start 3
    s.TreeInv ∧ s.CodeInv ∧ step s = .next (stepped s) :=
  ⟨deep_tree [] 0, deep_codes [] 0, step_stepped (by decide)⟩

theorem witness_StepKeepsBuffers :
    decoding.Caps ∧ decoding.TreeInv ∧ decoding.BufferInv ∧ step decoding = .next (stepped decoding) :=
  ⟨deep_caps [0x4C, 0x9C] 14, deep_tree [0x4C, 0x9C] 14, decoding_buffers, step_stepped (by decide)⟩

theorem witness_StepKeepsStatus : decoding.StatusInv ∧ step decoding = .next (stepped decoding) :=
  ⟨decoding_status, step_stepped (by decide)⟩

theorem witness_EveryCommandCompletes : (deep [0x4C] 3).TreeInv ∧ (treeIn arenaDes1 0).TreeInv :=
  ⟨deep_tree [0x4C] 3, des_tree⟩

theorem witness_DecodeEncodeAgree : ([.analyze, .build, .generate, .pack, .decode, .serialize, .deserialize, .illegal 0,
    .illegal 8, .illegal 0xFFFFFFFF] : List Instr).all Instr.wf = true := by decide

theorem witness_CommandWordsDecode : (0 : Word).toNat = 0 ∧ 8 ≤ (8 : Word).toNat ∧ 8 ≤ (0xFFFFFFFF : Word).toNat := by
  decide

theorem witness_StepRunsTheCommandInCmd :
    decoding.busy = true ∧ decoding.agenda = [] ∧ (withEvent decoding .engine).busy = true ∧
      (withEvent decoding .engine).agenda = .engine :: [] := by decide

theorem witness_CmdWriteStartsTheCommand :
    let s := { loaded [] with agenda := [.host (.write .b32 0x08 7), .engine] }
    s.agenda = .host (.write .b32 0x08 7) :: [.engine] ∧ s.busy = false ∧ [Event.engine] = .engine :: [] := by decide

theorem witness_IdleUntilCmdWrite :
    (loaded []).busy = false ∧ (loaded []).agenda = [] ∧
      ∀ e ∈ [Event.host (.write .b32 0x08 0), .host (.write .b32 0x18 9), .host (.read .b32 0x0C),
          .host (.write .b8 0x20000000 1), .engine],
        (withEvent (loaded []) e).busy = false ∧ (withEvent (loaded []) e).agenda = e :: [] ∧ e ≠ .reset ∧
          step (withEvent (loaded []) e) = .next (stepped (withEvent (loaded []) e)) := by
  refine ⟨by decide, by decide, ?_⟩
  simp only [List.forall_mem_cons, List.not_mem_nil, false_implies, implies_true, and_true]
  exact ⟨⟨by decide, rfl, by decide, step_stepped (by decide)⟩, ⟨by decide, rfl, by decide, step_stepped (by decide)⟩,
    ⟨by decide, rfl, by decide, step_stepped (by decide)⟩, ⟨by decide, rfl, by decide, step_stepped (by decide)⟩,
    ⟨by decide, rfl, by decide, step_stepped (by decide)⟩⟩

/-- Accesses at the edges of every region are mapped; the next units are not. -/
theorem witness_mapped :
    (∀ off ∈ [0x00, 0x08, 0x0C, 0x38, 0x1000, 0x13FC, 0x1400, 0x17FC, 0x2000, 0x3FEC, 0x4000, 0x7FFC],
      Mapped decoding .b32 off) ∧
      (∀ off ∈ [0x20000000, 0x2000FFFF, 0x40000000, 0x4000FFFF], Mapped decoding .b8 off) ∧
      (∀ off ∈ [0x3C, 0x3D, 0x1800, 0x3FF0, 0x8000, 0x20000000], ¬ Mapped decoding .b32 off) ∧
      ∀ off ∈ [0x00, 0x20010000, 0x40010000], ¬ Mapped decoding .b8 off := by
  unfold Mapped; decide

theorem witness_BusyLock :
    let s := withEvent decoding (.host (.write .b32 0x08 1))
    let u := withEvent decoding (.host (.read .b32 0x0C))
    let v := withEvent decoding (.host (.read .b8 0x40000000))
    let x := withEvent decoding (.host (.read .b32 0x38))
    (s.status = 1 ∧ Mapped s .b32 0x08 ∧ s.agenda = .host (.write .b32 0x08 1) :: []) ∧
      (u.status = 1 ∧ u.agenda = .host (.read .b32 0x0C) :: []) ∧
      (x.status = 1 ∧ ((0x38, x.outCap) : Nat × Word) ∈ [(0x38, x.outCap)] ∧ x.agenda = .host (.read .b32 0x38) :: []) ∧
      v.status = 1 ∧ Mapped v .b8 0x40000000 ∧ v.agenda = .host (.read .b8 0x40000000) :: [] := by
  unfold Mapped; decide

theorem witness_OnlyCompletionOrResetEndsACommand :
    ∀ s ∈ [decoding, withEvent decoding .engine, withEvent decoding .reset,
        withEvent decoding (.host (.write .b32 0x08 1))], s.busy = true ∧ step s = .next (stepped s) := by
  simp only [List.forall_mem_cons, List.not_mem_nil, false_implies, implies_true, and_true]
  exact ⟨⟨by decide, step_stepped (by decide)⟩, ⟨by decide, step_stepped (by decide)⟩,
    ⟨by decide, step_stepped (by decide)⟩, ⟨by decide, step_stepped (by decide)⟩⟩

theorem witness_IdAndVersionAreConstant :
    (withEvent decoding (.host (.read .b32 0x00))).agenda = .host (.read .b32 0x00) :: [] ∧
      (withEvent decoding (.host (.read .b32 0x04))).agenda = .host (.read .b32 0x04) :: [] := by decide

theorem witness_RegisterMapReads :
    let s := withEvent (treeIn arena1 6) (.host (.read .b32 0x2C))
    s.busy = false ∧ ((0x2C, 6) : Nat × Word) ∈ [(0x2C, s.root.setWidth 32)] ∧ s.agenda = .host (.read .b32 0x2C) :: [] := by
  decide

theorem witness_HostWritesReachOnlyWritableRegisters :
    (∀ off ∈ [0x18, 0x1C], (withEvent (loaded []) (.host (.write .b32 off 1))).busy = false ∧
      (withEvent (loaded []) (.host (.write .b32 off 1))).agenda = .host (.write .b32 off 1) :: []) ∧
      (∀ off ∈ [0x00, 0x38, 0x1000, 0x7FFC],
        let s := withEvent (loaded []) (.host (.write .b32 off 1))
        s.busy = false ∧ Mapped s .b32 off ∧ off ∉ [0x08, 0x18, 0x1C] ∧ (Width.b32 = .b8 → 0x40000000 ≤ off) ∧
          s.inCap.toNat ≤ Config.capMax ∧ s.agenda = .host (.write .b32 off 1) :: []) ∧
      ∀ off ∈ [0x40000000, 0x4000FFFF],
        let s := withEvent (loaded []) (.host (.write .b8 off 1))
        s.busy = false ∧ Mapped s .b8 off ∧ off ∉ [0x08, 0x18, 0x1C] ∧ (Width.b8 = .b8 → 0x40000000 ≤ off) ∧
          s.inCap.toNat ≤ Config.capMax ∧ s.agenda = .host (.write .b8 off 1) :: [] := by
  unfold Mapped; decide

theorem witness_BufWriteThenInReadReturnsTheByte :
    ∀ i ∈ [0, 65535],
      let s := { loaded [] with
        agenda := [.host (.write .b8 (0x20000000 + i) 0xA5), .host (.read .b8 (0x20000000 + i))] }
      s.busy = false ∧ i < s.inCap.toNat ∧
        s.agenda = .host (.write .b8 (0x20000000 + i) ((0xA5 : Byte).setWidth 32)) ::
          .host (.read .b8 (0x20000000 + i)) :: [] := by decide

theorem witness_RefusedExactlyOutsideTheMap :
    (withEvent (loaded []) (.host (.read .b16 0))).agenda = .host (.read .b16 0) :: [] ∧
      (withEvent (loaded []) (.host (.write .b32 0x3C 1))).agenda = .host (.write .b32 0x3C 1) :: [] := by decide

theorem witness_FrequencyWindows :
    ∀ k ∈ [0, 255], k < 256 ∧ ∀ off ∈ [0x1000 + 4 * k, 0x1400 + 4 * k], ∀ op ∈ [HostOp.read .b32 off, .write .b32 off 1],
      let s := withEvent (tabled [(0x61, 2)]) (.host op)
      s.busy = false ∧ s.agenda = .host op :: [] := by decide

theorem witness_NodeWindow :
    ∀ i ∈ [0, 510], i ≤ 510 ∧ ∀ w ∈ [0, 3], w < 4 ∧
      ∀ op ∈ [HostOp.read .b32 (0x2000 + 16 * i + 4 * w), .write .b32 (0x2000 + 16 * i + 4 * w) 1,
        .read .b32 (0x3FF0 + 4 * w)],
        let s := withEvent (treeIn arena1 6) (.host op)
        s.busy = false ∧ s.agenda = .host op :: [] := by decide

theorem witness_CodeWindow :
    ∀ b ∈ [(0x00 : Byte), 0x64, 0xFF], ∀ w ∈ [0, 15], w < 16 ∧
      ∀ op ∈ [HostOp.read .b32 (0x4000 + 64 * b.toNat + 4 * w), .write .b32 (0x4000 + 64 * b.toNat + 4 * w) 1],
        let s := withEvent { loaded [] with ct := codes1 } (.host op)
        s.busy = false ∧ (s.code b).length ≤ Config.codeMax ∧ s.agenda = .host op :: [] := by decide

theorem witness_ReadsAreIdempotentWhileIdle :
    ∀ off ∈ [0x20000000, 0x4000FFFF],
      let s := { loaded [] with agenda := [.host (.read .b8 off), .host (.read .b8 off)] }
      s.busy = false ∧ Mapped s .b8 off ∧ s.agenda = .host (.read .b8 off) :: .host (.read .b8 off) :: [] := by
  unfold Mapped; decide

theorem witness_ResetAtAnyTime : (withEvent decoding .reset).agenda = .reset :: [] := by decide

theorem witness_AnalyzeCountsTheInput :
    (loaded abacabad).Caps ∧ (loaded abacabad).inLen.toNat ≤ (loaded abacabad).inCap.toNat := by
  unfold State.Caps; decide

/-- IN_LEN at the capacity and one beyond it. -/
theorem witness_BadOperandExactlyBeyondInCap :
    Instr.deserialize ∈ [Instr.analyze, .pack, .decode, .deserialize] ∧
      (let s := { loaded [] with inLen := 65537 }; s.inCap.toNat < s.inLen.toNat) ∧
      (let s := { loaded [] with inLen := 65536 }; s.inLen.toNat ≤ s.inCap.toNat) ∧
      exec .deserialize (loaded [0]) = .next (after .deserialize (loaded [0])) :=
  ⟨by decide, by decide, by decide, exec_after (by decide)⟩

theorem witness_BuildRejectsTheEmptyTable : (treeIn arena1 6).nsym = 0 := by decide

theorem tabled_table : (tabled [(0x61, 2), (0x62, 1)]).TableInv := by
  unfold State.TableInv State.total; decide +kernel

theorem tabled_single : (tabled [(0x61, 1)]).TableInv := by
  unfold State.TableInv State.total; decide +kernel

/-- NSYM = 1 and NSYM = 2. -/
theorem witness_BuildShape :
    ((tabled [(0x61, 1)]).TableInv ∧ 1 ≤ (tabled [(0x61, 1)]).nsym.toNat) ∧
      ((tabled [(0x61, 2), (0x62, 1)]).TableInv ∧ 1 ≤ (tabled [(0x61, 2), (0x62, 1)]).nsym.toNat) ∧
      (loaded [0x61]).Caps ∧ (loaded [0x61]).inLen.toNat ≤ (loaded [0x61]).inCap.toNat ∧
      exec .analyze (loaded [0x61]) = .next (after .analyze (loaded [0x61])) ∧
      (after .analyze (loaded [0x61])).TableInv ∧ 1 ≤ (after .analyze (loaded [0x61])).nsym.toNat :=
  ⟨⟨tabled_single, by decide⟩, ⟨tabled_table, by decide⟩, by unfold State.Caps; decide, by decide,
    exec_after (by decide), by unfold State.TableInv State.total; decide +kernel, by decide⟩

/-- NSYM = 2 and its one internal entry, p = 2. -/
theorem witness_BuildMergesTheTwoLightest :
    let s := tabled [(0x61, 2), (0x62, 1)]
    s.TableInv ∧ 1 ≤ s.nsym.toNat ∧ s.nsym.toNat ≤ 2 ∧ 2 ≤ 2 * s.nsym.toNat - 2 :=
  ⟨tabled_table, by decide, by decide, by decide⟩

/-- Two blocks with the same operands and different surroundings. -/
theorem witness_AnalyzeIsAFunctionOfTheInput :
    let s := loaded [0x61, 0x62]
    let s' := { s with err := 5, status := 6, bitLen := 9 }
    s.inLen = s'.inLen ∧ s.inCap = s'.inCap ∧ s.input = s'.input ∧ exec .analyze s = .next (after .analyze s) ∧
      exec .analyze s' = .next (after .analyze s') :=
  ⟨by decide, by decide, by decide, exec_after (by decide), exec_after (by decide)⟩

/-- Two blocks with the same ordered table and different surroundings. -/
theorem witness_BuildIsAFunctionOfTheOrderedTable :
    let s := tabled [(0x61, 2), (0x62, 1)]
    let s' := { s with ftCnt := s.ftCnt.set 7 9, root := 0, nnode := 1 }
    s.nsym = s'.nsym ∧ (∀ k, k < s.nsym.toNat → s.ord k = s'.ord k) ∧
      (∀ k, k < s.nsym.toNat → s.cnt (s.ord k) = s'.cnt (s'.ord k)) ∧
      exec .build s = .next (after .build s) ∧ exec .build s' = .next (after .build s') ∧
      exec .generate (after .build s) = .next (after .generate (after .build s)) :=
  ⟨by decide, by decide, by decide, exec_after (by decide), exec_after (by decide), exec_after (by decide)⟩

/-- An internal root and a leaf root. -/
theorem witness_GenerateRecordsThePaths :
    ((deep [] 0).TreeInv ∧ (deep [] 0).noTree = false ∧ (deep [] 0).tree = some tree1 ∧ tree1.isLeaf = false) ∧
      (single [] 0).TreeInv ∧ (single [] 0).noTree = false ∧ (single [] 0).tree = some (.leaf 0x61 4) :=
  ⟨⟨deep_tree [] 0, by decide, by decide, by decide⟩, single_tree _ _, by decide, by decide⟩

theorem witness_GenerateSingleLeafCode : (single [] 0).noTree = false ∧ (single [] 0).tree = some (.leaf 0x61 4) := by
  decide

theorem witness_GenerateNullRoot : (loaded [0x61]).root = 0x1FF := by decide

theorem witness_PackWritesTheBitstream :
    let s := { loaded abacabad with ct := codes1 }
    s.Caps ∧ s.inLen.toNat ≤ s.inCap.toNat ∧ (∀ b ∈ s.input, s.code b ≠ []) ∧
      (s.input.flatMap s.code).length ≤ 8 * s.outCap.toNat := by
  unfold State.Caps; decide

/-- V-PACK-6's failure at index 2, one at index 0, and an overflow at index 0. -/
theorem witness_PackReportsTheFirstFailure :
    (∀ c ∈ [([0x61, 0x62, 0x65, 0x61], 2), ([0x65], 0)],
      let s := { loaded c.1 with ct := codes1 }
      s.inLen.toNat ≤ s.inCap.toNat ∧ s.input[c.2]? = some 0x65 ∧ (∀ b ∈ s.input.take c.2, s.code b ≠ []) ∧
        ((s.input.take c.2).flatMap s.code).length ≤ 8 * s.outCap.toNat ∧ s.code 0x65 = []) ∧
      (let s := { loaded [0x61] with ct := codes1, outCap := 0 };
        s.inLen.toNat ≤ s.inCap.toNat ∧ s.input[0]? = some 0x61 ∧ (∀ b ∈ s.input.take 0, s.code b ≠ []) ∧
          ((s.input.take 0).flatMap s.code).length ≤ 8 * s.outCap.toNat ∧ s.code 0x61 ≠ [] ∧
          8 * s.outCap.toNat < ((s.input.take 0).flatMap s.code).length + (s.code 0x61).length) := by decide

theorem witness_PackDependsOnlyOnItsOperands :
    let s := { loaded [0x61] with ct := codes1 }
    let s' := { s with root := 0, nnode := 1, nsym := 3, err := 2, bitLen := 5 }
    s.inLen = s'.inLen ∧ s.inCap = s'.inCap ∧ s.outCap = s'.outCap ∧ s.input = s'.input ∧ s.ct = s'.ct ∧
      exec .pack s = .next (after .pack s) ∧ exec .pack s' = .next (after .pack s') :=
  ⟨by decide, by decide, by decide, by decide, rfl, exec_after (by decide), exec_after (by decide)⟩

/-- The paths of "aba" in V-BUILD-1's tree. -/
def pathsAba : List (Byte × Bits) := [(0x61, [false]), (0x62, [true, false]), (0x61, [false])]

theorem pathsAba_leaves : ∀ x ∈ pathsAba, tree1.HasLeaf x.2 x.1 := by
  intro x hx
  simp only [pathsAba, List.mem_cons, List.not_mem_nil, or_false] at hx
  rcases hx with rfl | rfl | rfl <;> exact ⟨_, rfl⟩

/-- Four bits of the stream of V-DEC-1, and no bits. -/
theorem witness_DecodeEmitsTheLeavesOnThePaths :
    (let s := deep [0x4C] 4;
      s.TreeInv ∧ s.noTree = false ∧ s.tree = some tree1 ∧ tree1.isLeaf = false ∧ s.inLen.toNat ≤ s.inCap.toNat ∧
        s.nbits.toNat ≤ 8 * s.inLen.toNat ∧ (∀ x ∈ pathsAba, tree1.HasLeaf x.2 x.1) ∧
        s.inBits s.nbits.toNat = pathsAba.flatMap Prod.snd ∧ pathsAba.length ≤ s.outCap.toNat) ∧
      (let s := deep [] 0;
        s.nbits.toNat ≤ 8 * s.inLen.toNat ∧ s.inBits s.nbits.toNat = ([] : List (Byte × Bits)).flatMap Prod.snd) :=
  ⟨⟨deep_tree [0x4C] 4, by decide, by decide, by decide, by decide, by decide, pathsAba_leaves, by decide, by decide⟩,
    by decide, by decide⟩

/-- Three bits with room for exactly three symbols, and for two. -/
theorem witness_DecodeSingleLeaf :
    (let s := { single [0xFF] 3 with outCap := 3 };
      s.noTree = false ∧ s.tree = some (.leaf 0x61 4) ∧ s.inLen.toNat ≤ s.inCap.toNat ∧
        s.nbits.toNat ≤ 8 * s.inLen.toNat ∧ s.nbits.toNat ≤ s.outCap.toNat) ∧
      (let s := { single [0xFF] 3 with outCap := 2 };
        s.noTree = false ∧ s.tree = some (.leaf 0x61 4) ∧ s.inLen.toNat ≤ s.inCap.toNat ∧
          s.nbits.toNat ≤ 8 * s.inLen.toNat ∧ s.outCap.toNat < s.nbits.toNat) := by decide

/-- V-DEC-7 (one bit too many), and a stream that is the first bit of the code of 'b'. -/
theorem witness_DecodeTruncatedStream :
    (let s := deep [0x4C, 0x9C] 17;
      s.noTree = false ∧ s.inLen.toNat ≤ s.inCap.toNat ∧ s.inCap.toNat ≤ Config.capMax ∧
        8 * s.inLen.toNat < s.nbits.toNat) ∧
      (let s := deep [0x80] 1;
        s.TreeInv ∧ s.noTree = false ∧ s.tree = some tree1 ∧ tree1.isLeaf = false ∧ s.inLen.toNat ≤ s.inCap.toNat ∧
          s.nbits.toNat ≤ 8 * s.inLen.toNat ∧ (∀ x ∈ ([] : List (Byte × Bits)), tree1.HasLeaf x.2 x.1) ∧
          tree1.HasLeaf ([true] ++ [false]) 0x62 ∧
          s.inBits s.nbits.toNat = ([] : List (Byte × Bits)).flatMap Prod.snd ++ [true] ∧ 0 ≤ s.outCap.toNat) :=
  ⟨by decide, deep_tree [0x80] 1, by decide, by decide, by decide, by decide, by decide, by simp, ⟨_, rfl⟩, by decide,
    by decide⟩

/-- Room for two symbols, and "aba" with nothing after it. -/
theorem witness_DecodeOverflowAtTheCompletingBit :
    let s := { deep [0x4C] 4 with outCap := 2 }
    s.TreeInv ∧ s.noTree = false ∧ s.tree = some tree1 ∧ tree1.isLeaf = false ∧ s.inLen.toNat ≤ s.inCap.toNat ∧
      s.nbits.toNat ≤ 8 * s.inLen.toNat ∧ (∀ x ∈ pathsAba, tree1.HasLeaf x.2 x.1) ∧
      s.inBits s.nbits.toNat = pathsAba.flatMap Prod.snd ++ [] ∧ pathsAba.length = s.outCap.toNat + 1 :=
  ⟨deep_tree [0x4C] 4, by decide, by decide, by decide, by decide, by decide, pathsAba_leaves, by decide, by decide⟩

theorem witness_DecodeTestsInOrder :
    (let s := { loaded [] with inLen := 65537 }; s.inCap.toNat < s.inLen.toNat) ∧
      (let s := { loaded [] with inLen := 65536 }; s.inLen.toNat ≤ s.inCap.toNat ∧ s.root = 0x1FF) ∧
      (let s := deep [0x4C] 9; s.inLen.toNat ≤ s.inCap.toNat ∧ s.root ≠ 0x1FF ∧ 8 * s.inLen.toNat < s.nbits.toNat) := by
  decide

/-- V-DEC-16: the two pad bits set. -/
theorem witness_DecodeIgnoresPadBits :
    let s := deep [0x4C, 0x9C] 14
    let s' := { s with inBuf := Memory.ofBytes 0 [0x4C, 0x9F], inFill := 9 }
    (∀ j, j < s.nbits.toNat → s'.inBit j = s.inBit j) ∧ exec .decode s = .next (after .decode s) ∧
      exec .decode s' = .next (after .decode s') :=
  ⟨by decide, exec_after (by decide), exec_after (by decide)⟩

theorem witness_SerializeWritesTheRecords :
    ((deep [] 0).Caps ∧ (deep [] 0).TreeInv ∧ (deep [] 0).noTree = false ∧ (deep [] 0).tree = some tree1) ∧
      (single [] 0).Caps ∧ (single [] 0).TreeInv ∧ (single [] 0).noTree = false ∧
      (single [] 0).tree = some (.leaf 0x61 4) :=
  ⟨⟨deep_caps [] 0, deep_tree [] 0, by decide, by decide⟩, by unfold State.Caps; decide, single_tree _ _, by decide,
    by decide⟩

theorem witness_SerializeNullRoot : (loaded []).root = 0x1FF := by decide

/-- A tree, the null tree, and the empty string. -/
theorem witness_DeserializeAcceptsExactlyTrees :
    (let s := loaded bytes1; s.inLen.toNat ≤ s.inCap.toNat ∧ tree1.syms.Nodup ∧ s.input = tree1.bytes) ∧
      (let s := loaded [0]; s.inLen.toNat ≤ s.inCap.toNat ∧ s.input = [0x00]) ∧
      (let s := loaded []; s.inLen.toNat ≤ s.inCap.toNat ∧ s.input ≠ [0x00] ∧
        ∀ tree : Tree, tree.syms.Nodup → s.input ≠ tree.bytes) := by
  refine ⟨by decide, by decide, by decide, by decide, fun tree _ => ?_⟩
  have h : (loaded []).input = [] := by decide
  rw [h]
  cases tree <;> simp [Tree.bytes]

theorem witness_ArenaPlacement :
    (let s := loaded bytes1;
      let t := after .deserialize s;
      exec .deserialize s = .next t ∧ t.err = 0 ∧ t.noTree = false ∧ t.nodes[0]? = some (innerNode 8 1 2)) ∧
      (let s := treeIn arena1 6;
        let s' := { s with nodes := arenaDes1, root := 0, nnode := 7, nodeFill := 9 };
        s.TreeInv ∧ s'.TreeInv ∧ s.noTree = s'.noTree ∧ s.tree = s'.tree) :=
  ⟨⟨exec_after (by decide), by decide, by decide, by decide⟩, deep_tree [0x4C, 0x9C] 14, des_tree, by decide, by decide⟩

theorem witness_TreeRoundTrip :
    let s := deep [] 0
    let t := after .serialize s
    let u := loaded bytes1
    s.Caps ∧ s.TreeInv ∧ exec .serialize s = .next t ∧ u.Caps ∧ u.inLen = t.outLen ∧ u.input = t.output :=
  ⟨deep_caps [] 0, deep_tree [] 0, exec_after (by decide), by unfold State.Caps; decide, by decide, by decide⟩

theorem witness_IllegalCommandWord :
    ((0 : Word).toNat = 0 ∧ 8 ≤ (8 : Word).toNat) ∧
      let s := { loaded [] with agenda := [.host (.write .b32 0x08 8), .engine] }
      s.busy = false ∧ s.agenda = .host (.write .b32 0x08 8) :: .engine :: [] := by decide

theorem witness_TableCommandsFrame :
    ∀ i ∈ [Instr.analyze, .build, .generate, .deserialize], exec i (deep [0x61] 0) = .next (after i (deep [0x61] 0)) := by
  simp only [List.forall_mem_cons, List.not_mem_nil, false_implies, implies_true, and_true]
  exact ⟨exec_after (by decide), exec_after (by decide), exec_after (by decide), exec_after (by decide)⟩

theorem witness_OutputCommandsFrame :
    ∀ i ∈ [Instr.pack, .decode, .serialize], exec i (deep [0x4C] 4) = .next (after i (deep [0x4C] 4)) := by
  simp only [List.forall_mem_cons, List.not_mem_nil, false_implies, implies_true, and_true]
  exact ⟨exec_after (by decide), exec_after (by decide), exec_after (by decide)⟩

theorem witness_RegistersAreWrittenOnlyByTheirCommands :
    exec (.illegal 0) (deep [] 0) = .next (after (.illegal 0) (deep [] 0)) ∧
      exec .serialize (deep [] 0) = .next (after .serialize (deep [] 0)) :=
  ⟨exec_after (by decide), exec_after (by decide)⟩

/-- A failing command for each destination: V-ANA-8, V-BUILD-3, V-GEN-3, V-PACK-6, V-DEC-7, V-CMD-4. -/
theorem witness_FailureClearsTheDestinationOnly :
    ∀ c ∈ [(Instr.analyze, { loaded [] with inLen := 65537 }), (.build, deep [] 0), (.generate, loaded []),
        (.pack, loaded [0x61]), (.decode, deep [0x4C] 9), (.illegal 9, deep [] 0)],
      exec c.1 c.2 = .next (after c.1 c.2) ∧ (after c.1 c.2).err ≠ 0 := by
  simp only [List.forall_mem_cons, List.not_mem_nil, false_implies, implies_true, and_true]
  exact ⟨⟨exec_after (by decide), by decide⟩, ⟨exec_after (by decide), by decide⟩, ⟨exec_after (by decide), by decide⟩,
    ⟨exec_after (by decide), by decide⟩, ⟨exec_after (by decide), by decide⟩, ⟨exec_after (by decide), by decide⟩⟩

theorem witness_EndingsOfEachCommand :
    exec .decode (deep [0x4C] 9) = .next (after .decode (deep [0x4C] 9)) ∧ ErrCode.truncatedStream ∈ endings .decode :=
  ⟨exec_after (by decide), by decide⟩

/-- "ab" through the four commands, and a block that holds the result with the same tree. -/
def endStates : State × State × State × State :=
  let t₁ := after .analyze (loaded [0x61, 0x62])
  let t₂ := after .build t₁
  let t₃ := after .generate t₂
  (t₁, t₂, t₃, after .pack t₃)

/-- The tree of "ab". -/
def treeAb : Tree := .node 2 (.leaf 0x61 1) (.leaf 0x62 1)

/-- A fresh block with the tree of "ab", its two-bit stream and its length. -/
def receiver : State :=
  { treeIn [leafNode 0x61 1, leafNode 0x62 1, innerNode 2 0 1] 2 with
    inBuf := Memory.ofBytes 0 [0x40], inLen := 1, nbits := 2 }

theorem receiver_tree : receiver.TreeInv := by
  refine .inr ⟨by decide, by decide, by decide, by decide, ?_, treeAb, by decide, by decide, by decide, by decide⟩
  intro e he
  simp only [receiver, treeIn, List.mem_cons, List.not_mem_nil, or_false] at he
  rcases he with rfl | rfl | rfl <;> (unfold Node.Ok; decide)

theorem witness_PackedInputDecodesToItself :
    let s := loaded [0x61, 0x62]
    let e := endStates
    (s.Caps ∧ 1 ≤ s.inLen.toNat) ∧
      (exec .analyze s = .next e.1 ∧ e.1.Succeeded) ∧ (exec .build e.1 = .next e.2.1 ∧ e.2.1.Succeeded) ∧
      (exec .generate e.2.1 = .next e.2.2.1 ∧ e.2.2.1.Succeeded) ∧
      (exec .pack e.2.2.1 = .next e.2.2.2 ∧ e.2.2.2.Succeeded) ∧
      receiver.Caps ∧ receiver.TreeInv ∧ receiver.noTree = false ∧ receiver.tree = e.2.1.tree ∧
      receiver.inLen = e.2.2.2.outLen ∧ receiver.inLen.toNat ≤ receiver.inCap.toNat ∧
      receiver.input = e.2.2.2.output ∧ receiver.nbits = e.2.2.2.bitLen ∧ s.inLen.toNat ≤ receiver.outCap.toNat := by
  refine ⟨⟨by unfold State.Caps; decide, by decide⟩, ⟨exec_after (by decide), by unfold State.Succeeded; decide⟩,
    ⟨exec_after (by decide +kernel), by unfold State.Succeeded; decide +kernel⟩,
    ⟨exec_after (by decide +kernel), by unfold State.Succeeded; decide +kernel⟩,
    ⟨exec_after (by decide +kernel), by unfold State.Succeeded; decide +kernel⟩, by unfold State.Caps; decide,
    receiver_tree, by decide, by decide +kernel, by decide +kernel, by decide, by decide +kernel, by decide +kernel,
    by decide⟩

/-- The results of a computation, if it does not stop. -/
def results {α : Type} : Except SeqStop α → Option α
  | .ok x => some x
  | .error _ => none

theorem ok_of_results {α : Type} {e : Except SeqStop α} (h : (results e).isSome = true) : ∃ x, e = .ok x := by
  cases e with
  | ok x => exact ⟨x, rfl⟩
  | error r => simp [results] at h

/-- COMPRESS "a" on an idle block that holds an old tree, and a second block in a legal state. -/
theorem witness_DecompressInvertsCompress :
    ∃ (saved : Saved) (s' : State),
      let s := { decoding with status := 0 }
      s.Inv ∧ s.busy = false ∧ 1 ≤ [(0x61 : Byte)].length ∧ [(0x61 : Byte)].length ≤ s.inCap.toNat ∧
        compress 0 [0x61] s = .ok (saved, s') ∧ saved.packed.length ≤ s.inCap.toNat ∧
        [(0x61 : Byte)].length ≤ s.outCap.toNat := by
  have hi : ({ decoding with status := 0 } : State).Inv :=
    ⟨deep_caps [0x4C, 0x9C] 14, deep_table [0x4C, 0x9C] 14, deep_tree [0x4C, 0x9C] 14, deep_codes [0x4C, 0x9C] 14, decoding_buffers,
      ⟨by decide, by decide, ⟨.ok, by decide, by decide⟩, by decide⟩⟩
  obtain ⟨⟨saved, s'⟩, h⟩ := ok_of_results (e := compress 0 [0x61] { decoding with status := 0 }) (by decide +kernel)
  have hp : (results (compress 0 [0x61] { decoding with status := 0 })).map (·.1.packed.length) = some 1 := by
    decide +kernel
  rw [h] at hp
  refine ⟨saved, s', hi, by decide, by decide, by decide, h, ?_, by decide⟩
  simp only [results, Option.map_some, Option.some.injEq] at hp
  rw [hp]
  decide

end Sys2Proof.Tests
end

section
/-!
SUPPORT. The invariant of the block (O19, O20): what a completing command can make of a state, the induction over one
step, then each part of the invariant with the lemma that every step keeps it.
-/

namespace Sys2Proof.Machine

/-! ## What a completing command does -/

/-- What command i makes of state s when it completes: a failure with one of its codes (60_exceptions.md R265, R271), or
its result, written to its destination. -/
inductive Completes (s : State) : Instr → State → Prop
  | failed {i : Instr} (e : ErrCode) (info : Word) (he : e ∈ endings i) (hne : e ≠ .ok) :
      Completes s i (s.raise (destOf i) e info)
  | analyzed (h : s.inLenBad = false) :
      Completes s .analyze (s.setTable (analyzeBytes s.input).cnt (analyzeBytes s.input).ord).succeed
  | built (h : s.nsym ≠ 0) :
      Completes s .build
        (s.setTree (buildArena s.leafNodes) (BitVec.ofNat 9 ((buildArena s.leafNodes).length - 1))).succeed
  | generated (t : Tree) (hn : s.noTree = false) (ht : s.tree = some t) :
      Completes s .generate (s.setCodes (codeTable t)).succeed
  | packed (stream : Bits) (h : s.inLenBad = false) (hp : packStream s 0 0 s.input = .ok stream) :
      Completes s .pack ((s.setBitLen stream.length).setOutput (packBits stream)).succeed
  | decoded (out : List Byte) (h : s.inLenBad = false) (hn : s.noTree = false) (hd : decodeSymbols s = .ok out) :
      Completes s .decode (s.setOutput out).succeed
  | serializedNull (hn : s.noTree = true) : Completes s .serialize (s.setOutput (serialBytes none)).succeed
  | serialized (t : Tree) (hn : s.noTree = false) (ht : s.tree = some t) :
      Completes s .serialize (s.setOutput (serialBytes (some t))).succeed
  | deserializedNull (h : s.inLenBad = false) (hd : deserialBytes s.input = some none) :
      Completes s .deserialize (s.setTree [] Config.nullIdx).succeed
  | deserialized (t : Tree) (h : s.inLenBad = false) (hd : deserialBytes s.input = some (some t)) :
      Completes s .deserialize (s.setTree (layTree 0 t) 0).succeed

/-- Every error of DECODE's loops is OUT_OVERFLOW or TRUNCATED_STREAM (44_decode.md R197, R199). -/
theorem decodeSymbols_error {s : State} {e : ErrCode × Nat} (h : decodeSymbols s = .error e) :
    e.1 = .outOverflow ∨ e.1 = .truncatedStream := by
  simp only [decodeSymbols] at h
  split_ifs at h with hleaf
  · rcases Nat.lt_or_ge s.outCap.toNat (0 + s.nbits.toNat) with hlt | hle
    · rw [repeatLeaf_error s 0 _ (Nat.zero_le _) hlt] at h
      exact .inl (by rw [← Except.error.inj h])
    · rw [repeatLeaf_ok s 0 _ hle] at h
      cases h
  · split at h
    · next e' he => exact .inl (Except.error.inj h ▸ ((walkBits_bound s 0 0 s.root _ (Nat.zero_le _)).2 e' he).1)
    · split_ifs at h
      exact .inr (by rw [← Except.error.inj h])

/-- A command that answers a next state has failed with one of its codes or written its result. -/
theorem exec_completes {i : Instr} {s t : State} (h : exec i s = .next t) : Completes s i t := by
  cases i with
  | analyze =>
    simp only [exec, execAnalyze] at h
    split at h <;> cases h
    · exact .failed _ _ (by decide) (by decide)
    · next hl => exact .analyzed (by simpa using hl)
  | build =>
    simp only [exec, execBuild] at h
    split at h <;> cases h
    · exact .failed _ _ (by decide) (by decide)
    · next hn => exact .built hn
  | generate =>
    simp only [exec, execGenerate] at h
    split at h
    · cases h; exact .failed _ _ (by decide) (by decide)
    · next hn =>
      split at h <;> cases h
      next tree ht => exact .generated tree (by simpa using hn) ht
  | pack =>
    simp only [exec, execPack] at h
    split at h
    · cases h; exact .failed _ _ (by decide) (by decide)
    · next hl =>
      split at h <;> cases h
      · next e j he =>
        rcases packStream_error he with rfl | rfl <;> exact .failed _ _ (by decide) (by decide)
      · next stream hp => exact .packed stream (by simpa using hl) hp
  | decode =>
    simp only [exec, execDecode] at h
    split at h
    · cases h; exact .failed _ _ (by decide) (by decide)
    · next hl =>
      split at h
      · cases h; exact .failed _ _ (by decide) (by decide)
      · next hn =>
        split at h
        · cases h; exact .failed _ _ (by decide) (by decide)
        · split at h <;> cases h
          · next e j he =>
            rcases decodeSymbols_error he with rfl | rfl <;> exact .failed _ _ (by decide) (by decide)
          · next out hd => exact .decoded out (by simpa using hl) (by simpa using hn) hd
  | serialize =>
    simp only [exec, execSerialize] at h
    split at h
    · next hn => cases h; exact .serializedNull hn
    · next hn =>
      split at h <;> cases h
      next tree ht => exact .serialized tree (by simpa using hn) ht
  | deserialize =>
    simp only [exec, execDeserialize] at h
    split at h
    · cases h; exact .failed _ _ (by decide) (by decide)
    · next hl =>
      split at h <;> cases h
      · exact .failed _ _ (by decide) (by decide)
      · next hd => exact .deserializedNull (by simpa using hl) hd
      · next tree hd => exact .deserialized tree (by simpa using hl) hd
  | illegal word =>
    cases h
    exact .failed _ _ (List.mem_singleton_self _) (by decide)

/-! ## The induction over one step -/

/-- A predicate of the state is kept by a step if the bookkeeping of the agenda and of the host's reads, each write the
host port accepts, a reset and the completion of the running command keep it. -/
theorem step_keeps {P : State → Prop} {s t : State} (hstep : step s = .next t) (hs : P s)
    (record : ∀ (u : State) (a : List Event) (r : List Word) (d : Nat), P u →
      P { u with agenda := a, hostReads := r, draws := d })
    (start : ∀ (u : State) (w : Word), P u → P (u.start w))
    (inLen : ∀ (u : State) (w : Word), P u → P { u with inLen := w })
    (nbits : ∀ (u : State) (w : Word), P u → P { u with nbits := w })
    (inBuf : ∀ (u : State) (k : Nat) (b : Byte), k < u.inCap.toNat → P u → P { u with inBuf := u.inBuf.write k b })
    (reset : ∀ u : State, P u → P u.pulseReset)
    (complete : ∀ (a : List Event) (i : Instr), Completes { s with agenda := a } i t → P { s with agenda := a } → P t) :
    P t := by
  have agenda : ∀ a, P { s with agenda := a } := fun a => record s a s.hostReads s.draws hs
  rcases step_cases hstep with ⟨s', hs', hend⟩ | ⟨op, rest, -, hacc⟩ | ⟨rest, -, rfl⟩
  · obtain ⟨a, rfl⟩ : ∃ a, s' = { s with agenda := a } := by
      rcases hs' with ⟨rfl, -⟩ | ⟨rest, -, rfl⟩
      · exact ⟨s'.agenda, rfl⟩
      · exact ⟨rest, rfl⟩
    rcases hend with ⟨-, hexec⟩ | ⟨-, rfl⟩
    · exact complete a _ (exec_completes hexec) (agenda a)
    · exact agenda a
  · rcases hostAccess_cases hacc with ⟨w, off, r, k, -, -, hread⟩ | ⟨w, off, v, r, k, -, hloc, hwrite⟩
    · rcases hread with ⟨-, -, rfl⟩ | ⟨-, rfl⟩
      · exact record s rest _ _ hs
      · exact record s rest _ s.draws hs
    · rcases hwrite with ⟨-, rfl⟩ | ⟨-, rfl⟩
      · exact agenda rest
      · rcases writeUnit_cases { s with agenda := rest } k v r with
          h | ⟨-, -, h⟩ | ⟨-, -, h⟩ | ⟨-, -, h⟩ | ⟨rfl, h⟩ <;> rw [h]
        · exact agenda rest
        · exact start _ v (agenda rest)
        · exact inLen _ v (agenda rest)
        · exact nbits _ v (agenda rest)
        · obtain ⟨hr, rfl, -, rfl⟩ := locate_ok hloc
          obtain ⟨hlo, hhi⟩ := regionOf_holds hr
          refine inBuf _ _ _ ?_ (agenda rest)
          simp only [Region.base, Region.width, Width.bytes, Nat.div_one] at hhi ⊢
          omega
  · exact reset _ (agenda rest)

/-! ## Capacities -/

/-- No command writes the capacities (10_state.md R36). -/
theorem Completes.capacities {i : Instr} {s t : State} (h : Completes s i t) :
    t.inCap = s.inCap ∧ t.outCap = s.outCap := by
  cases h with
  | failed e info =>
    obtain ⟨-, -, -, hin, hout, -⟩ := raise_sameHostSide s (destOf i) e info
    exact ⟨hin, hout⟩
  | _ => exact ⟨rfl, rfl⟩

/-- Every step keeps the constraint on the capacities (00_scope.md R6). -/
theorem step_caps {s t : State} (hs : s.Caps) (h : step s = .next t) : t.Caps := by
  refine step_keeps (P := State.Caps) h hs (fun _ _ _ _ h => h) (fun _ _ h => h) (fun _ _ h => h) (fun _ _ h => h)
    (fun _ _ _ _ h => h) (fun _ h => h) fun a i hc _ => ?_
  obtain ⟨hin, hout⟩ := hc.capacities
  rw [State.Caps, hin, hout]
  exact hs

/-! ## STATUS, ERR and ERR_INFO -/

/-- A completion leaves legal STATUS, ERR and ERR_INFO (60_exceptions.md R269, R270). -/
theorem complete_statusInv (s : State) {e : ErrCode} {info : Word} (he : e ≠ .noStoredTree) (hi : e = .ok → info = 0) :
    (s.complete e info).StatusInv := by
  refine ⟨?_, fun _ => ?_, ⟨e, he, rfl⟩, fun h => hi ((code_eq_zero_iff e).mp h)⟩
  · cases e <;> simp
  · rw [(complete_flags s e info).2.2, State.complete_err, ne_eq, ne_eq, code_eq_zero_iff]

/-- No command ends with NO_STORED_TREE (60_exceptions.md R264). -/
theorem noStoredTree_not_mem_endings (i : Instr) : ErrCode.noStoredTree ∉ endings i := by
  cases i <;> simp [endings]

theorem Completes.statusInv {i : Instr} {s t : State} (h : Completes s i t) : t.StatusInv := by
  cases h with
  | failed e info he hne =>
    exact complete_statusInv _ (fun h => noStoredTree_not_mem_endings i (h ▸ he)) fun h => absurd h hne
  | _ => exact complete_statusInv _ (by decide) fun _ => rfl

/-- A start keeps STATUS, ERR and ERR_INFO legal: the flags say BUSY, ERR and ERR_INFO stay (60_exceptions.md R268). -/
theorem start_statusInv {s : State} (w : Word) (h : s.StatusInv) : (s.start w).StatusInv := by
  obtain ⟨-, -, hcode, hinfo⟩ := h
  exact ⟨.inr (.inl statusWord_start), fun hb => absurd hb (by simp [start_flags s w]), hcode, hinfo⟩

theorem pulseReset_statusInv (s : State) : s.pulseReset.StatusInv :=
  ⟨.inl rfl, fun _ => by simp [State.errf], ⟨.ok, by decide, rfl⟩, fun _ => rfl⟩

/-- Every step keeps STATUS, ERR and ERR_INFO legal (10_state.md R27, R28, R29). -/
theorem step_statusInv {s t : State} (hs : s.StatusInv) (h : step s = .next t) : t.StatusInv :=
  step_keeps (P := State.StatusInv) h hs (fun _ _ _ _ h => h) (fun _ w h => start_statusInv w h) (fun _ _ h => h)
    (fun _ _ h => h) (fun _ _ _ _ h => h) (fun u _ => pulseReset_statusInv u) fun _ _ hc _ => hc.statusInv

/-! ## Buffers -/

/-- What PACK's loop appends fits OUT_BUF (43_pack.md R181). -/
theorem packStream_bound {s : State} {i len : Nat} {bs : List Byte} {stream : Bits}
    (h : packStream s i len bs = .ok stream) (hlen : len ≤ 8 * s.outCap.toNat) :
    len + stream.length ≤ 8 * s.outCap.toNat := by
  induction bs generalizing i len stream with
  | nil => cases h; simpa using hlen
  | cons b bs ih =>
    simp only [packStream] at h
    split_ifs at h with hcode hfit
    split at h <;> cases h
    next rest hrest =>
      have := ih hrest (by omega)
      simp only [List.length_append]
      omega

/-- What DECODE emits fits OUT_BUF (44_decode.md R197). -/
theorem decodeSymbols_bound {s : State} {out : List Byte} (h : decodeSymbols s = .ok out) :
    out.length ≤ s.outCap.toNat := by
  simp only [decodeSymbols] at h
  split_ifs at h
  · rcases Nat.lt_or_ge s.outCap.toNat (0 + s.nbits.toNat) with hlt | hle
    · rw [repeatLeaf_error s 0 _ (Nat.zero_le _) hlt] at h
      cases h
    · rw [repeatLeaf_ok s 0 _ hle] at h
      cases h
      simpa using hle
  · split at h
    · cases h
    · next r cur hr =>
      split_ifs at h
      cases h
      simpa using (walkBits_bound s 0 0 s.root _ (Nat.zero_le _)).1 _ hr

/-- A serialized tree of at most 256 leaves fits every legal OUT_BUF (30_encoding.md R119). -/
theorem length_serialBytes_le_capMin {t : Tree} (h : t.syms.length ≤ 256) :
    (serialBytes (some t)).length ≤ Config.capMin := by
  have := t.length_bytes
  simp only [serialBytes, Config.capMin]
  omega

/-- An output that fits keeps the buffers legal, with a BIT_LEN that fits (10_state.md R32, R44). -/
theorem setOutput_bufferInv {s : State} {bytes : List Byte} (hs : s.BufferInv) (hb : bytes.length ≤ s.outCap.toNat) :
    (s.setOutput bytes).BufferInv := by
  obtain ⟨hwf, hin, -, -, -, hbit⟩ := hs
  have hlen : (s.setOutput bytes).outLen.toNat = bytes.length :=
    (setOutput_output s bytes (lt_of_le_of_lt hb s.outCap.isLt)).1
  refine ⟨hwf, hin, Memory.wf_ofBytes 0 bytes, ?_, by rw [hlen]; exact hb, hbit⟩
  rw [hlen, State.setOutput_outBuf, Memory.map_fst_ofBytes, List.range_eq_range']

/-- A BIT_LEN within OUT_BUF keeps the buffers legal (43_pack.md R181). -/
theorem setBitLen_bufferInv {s : State} {n : Nat} (hs : s.BufferInv) (hn : n ≤ 8 * s.outCap.toNat) :
    (s.setBitLen n).BufferInv := by
  obtain ⟨hwf, hin, hout, hkeys, hlen, -⟩ := hs
  refine ⟨hwf, hin, hout, hkeys, hlen, le_trans ?_ hn⟩
  simp only [State.setBitLen_bitLen, BitVec.toNat_ofNat]
  exact Nat.mod_le _ _

theorem clear_bufferInv {s : State} (d : Dest) (hs : s.BufferInv) : (s.clear d).BufferInv := by
  cases d with
  | packed => exact setBitLen_bufferInv (setOutput_bufferInv hs (Nat.zero_le _)) (Nat.zero_le _)
  | output => exact setOutput_bufferInv hs (Nat.zero_le _)
  | table | tree | codes | nothing => exact hs

/-- A legal arena with a root holds a tree with at most 256 leaves, each with a symbol of its own (10_state.md R40). -/
theorem State.TreeInv.length_syms {s : State} {t : Tree} (h : s.TreeInv) (hn : s.noTree = false)
    (ht : s.tree = some t) :
    t.syms.length ≤ 256 := by
  rcases h with ⟨hroot, -⟩ | ⟨-, -, -, -, -, t', ht', -, hsyms, -⟩
  · simp [State.noTree, hroot] at hn
  · obtain rfl := Option.some.inj (ht.symm.trans ht')
    exact hsyms

theorem succeed_bufferInv {s : State} (hs : s.BufferInv) : s.succeed.BufferInv := hs

theorem Completes.bufferInv {i : Instr} {s t : State} (h : Completes s i t) (hcaps : s.Caps) (htree : s.TreeInv)
    (hs : s.BufferInv) : t.BufferInv := by
  obtain ⟨-, -, hmin, -⟩ := hcaps
  cases h with
  | failed e info => exact clear_bufferInv (destOf i) hs
  | packed stream hl hp =>
    have hfit := packStream_bound hp (Nat.zero_le _)
    refine succeed_bufferInv (setOutput_bufferInv (setBitLen_bufferInv hs (by omega)) ?_)
    simp only [length_packBits, State.setBitLen_outCap]
    omega
  | decoded out hl hn hd => exact succeed_bufferInv (setOutput_bufferInv hs (decodeSymbols_bound hd))
  | serializedNull hn => exact succeed_bufferInv (setOutput_bufferInv hs (le_trans (by decide) hmin))
  | serialized tree hn ht =>
    exact succeed_bufferInv
      (setOutput_bufferInv hs (le_trans (length_serialBytes_le_capMin (htree.length_syms hn ht)) hmin))
  | _ => exact hs

/-- A byte the host stores inside IN_CAP keeps the buffers legal (20_memory.md R80). -/
theorem write_inBuf_bufferInv {s : State} {k : Nat} (b : Byte) (hk : k < s.inCap.toNat) (hs : s.BufferInv) :
    ({ s with inBuf := s.inBuf.write k b } : State).BufferInv := by
  obtain ⟨hwf, hin, hout⟩ := hs
  refine ⟨Memory.wf_write k b hwf, fun c hc => ?_, hout⟩
  rcases Memory.mem_write hc with rfl | hc
  · exact hk
  · exact hin c hc

theorem pulseReset_bufferInv (s : State) : s.pulseReset.BufferInv :=
  ⟨List.Pairwise.nil, fun _ h => absurd h List.not_mem_nil, List.Pairwise.nil, rfl, Nat.zero_le _, Nat.zero_le _⟩

/-- Every step keeps the buffers canonical and within their bounds (10_state.md R32, R43, R44). -/
theorem step_bufferInv {s t : State} (hcaps : s.Caps) (htree : s.TreeInv) (hs : s.BufferInv) (h : step s = .next t) :
    t.BufferInv :=
  step_keeps (P := State.BufferInv) h hs (fun _ _ _ _ h => h) (fun _ _ h => h) (fun _ _ h => h) (fun _ _ h => h)
    (fun _ _ b hk hu => write_inBuf_bufferInv b hk hu) (fun u _ => pulseReset_bufferInv u)
    fun _ _ hc hu => hc.bufferInv hcaps htree hu

end Sys2Proof.Machine

namespace Sys2Proof

/-! ## The 256 bytes as a list -/

/-- Every byte once, in rising order: the order of the cells of a table with one cell a symbol. -/
def allBytes : List Byte := (List.finRange 256).map BitVec.ofFin

theorem mem_allBytes (b : Byte) : b ∈ allBytes := List.mem_map.mpr ⟨b.toFin, List.mem_finRange _, rfl⟩

theorem nodup_allBytes : allBytes.Nodup := (List.nodup_finRange 256).map fun _ _ h => BitVec.ofFin.inj h

/-- A vector lists its cells in the order of their indexes. -/
theorem toList_eq_map_finRange {α : Type} {n : Nat} (v : Vector α n) : v.toList = (List.finRange n).map fun i => v[i] :=
  List.ext_getElem (by simp) fun i h₁ h₂ => by simp

/-- A table with one cell a symbol lists its cells in the order of the bytes. -/
theorem toList_eq_map_allBytes {α : Type} (v : Vector α 256) :
    v.toList = allBytes.map fun b => v[b.toNat]'(b.isLt) := by
  rw [toList_eq_map_finRange, allBytes, List.map_map]
  rfl

/-- The numbers of occurrences in a list, over distinct values that cover it, sum to its length. -/
theorem sum_count_eq_length {α : Type} [DecidableEq α] {xs l : List α} (hnd : xs.Nodup) (h : ∀ a ∈ l, a ∈ xs) :
    (xs.map l.count).sum = l.length := by
  rw [← List.sum_toFinset _ hnd]
  simpa only [Multiset.coe_count, Multiset.coe_card] using
    Multiset.sum_count_eq_card (m := (l : Multiset α)) fun a ha => List.mem_toFinset.mpr (h a ha)

end Sys2Proof

namespace Sys2Proof.Machine

/-! ## The frequency table -/

/-- The sum of all counts, symbol by symbol. -/
theorem total_eq_sum_cnt (s : State) : s.total = (allBytes.map fun b => (s.cnt b).toNat).sum := by
  rw [State.total, toList_eq_map_allBytes, List.map_map]
  rfl

/-- FT_ORD lists each symbol with a count once: then it has as many entries as there are such symbols. -/
theorem countP_ftCnt {s : State} (hnd : s.ftOrd.Nodup) (hmem : ∀ b : Byte, b ∈ s.ftOrd ↔ s.cnt b ≠ 0) :
    s.ftCnt.toList.countP (fun c => c != 0) = s.ftOrd.length := by
  have hperm : (allBytes.filter fun b => s.cnt b != 0).Perm s.ftOrd := by
    refine (List.perm_ext_iff_of_nodup (nodup_allBytes.filter _) hnd).mpr fun b => ?_
    simp [mem_allBytes, hmem b]
  rw [toList_eq_map_allBytes, List.countP_map, List.countP_eq_length_filter, ← hperm.length_eq]
  rfl

theorem length_input (s : State) : s.input.length = s.inLen.toNat := by
  simp [State.input, State.inBytes]

/-- ANALYZE counts the occurrences of each symbol (40_analyze.md R142); the count is modulo 2^32. -/
theorem analyzeBytes_cnt (input : List Byte) (b : Byte) :
    (analyzeBytes input).cnt[b.toNat]'(b.isLt) = BitVec.ofNat 32 (input.count b) := by
  rw [analyzeBytes, foldl_tally_cnt]
  simp [Freq.empty, noCounts]

/-- A count is 0 exactly for a symbol that does not occur, as long as no count can wrap. -/
theorem analyzeBytes_cnt_eq_zero {input : List Byte} (h : input.length < 2 ^ 32) (b : Byte) :
    (analyzeBytes input).cnt[b.toNat]'(b.isLt) = 0 ↔ b ∉ input := by
  have hlt : input.count b < 2 ^ 32 := lt_of_le_of_lt List.count_le_length h
  rw [analyzeBytes_cnt, BitVec.toNat_eq, BitVec.toNat_ofNat, Nat.mod_eq_of_lt hlt]
  exact List.count_eq_zero

/-- ANALYZE lists the symbols that occur, each at its first occurrence (40_analyze.md R142). -/
theorem analyzeBytes_ord (input : List Byte) (h : input.length < 2 ^ 32) :
    (analyzeBytes input).ord = input.reverse.dedup.reverse := by
  induction input using List.reverseRecOn with
  | nil => rfl
  | append_singleton bs b ih =>
    have hlt : bs.length < 2 ^ 32 := lt_of_le_of_lt (by simp) h
    have htally : (analyzeBytes (bs ++ [b])).ord =
        if (analyzeBytes bs).cnt[b.toNat]'(b.isLt) = 0 then (analyzeBytes bs).ord ++ [b]
        else (analyzeBytes bs).ord := by
      rw [analyzeBytes, List.foldl_append]
      rfl
    rw [htally, ih hlt, List.reverse_concat]
    by_cases hb : b ∈ bs
    · rw [if_neg (mt (analyzeBytes_cnt_eq_zero hlt b).mp (not_not_intro hb)),
        List.dedup_cons_of_mem (by simpa using hb)]
    · rw [if_pos ((analyzeBytes_cnt_eq_zero hlt b).mpr hb), List.dedup_cons_of_notMem (by simpa using hb),
        List.reverse_cons]

/-- The table of an input that fits IN_BUF is legal (10_state.md R38). -/
theorem setTable_analyzeBytes_tableInv {s : State} {input : List Byte} (h : input.length ≤ s.inCap.toNat) :
    (s.setTable (analyzeBytes input).cnt (analyzeBytes input).ord).TableInv := by
  have hlt : input.length < 2 ^ 32 := lt_of_le_of_lt h s.inCap.isLt
  have hord := analyzeBytes_ord input hlt
  have hnd : (analyzeBytes input).ord.Nodup := by
    rw [hord, List.nodup_reverse]
    exact List.nodup_dedup _
  have hmem : ∀ b : Byte, b ∈ (analyzeBytes input).ord ↔ (analyzeBytes input).cnt[b.toNat]'(b.isLt) ≠ 0 := fun b => by
    rw [ne_eq, analyzeBytes_cnt_eq_zero hlt, not_not, hord]
    simp
  have hnsym : (BitVec.ofNat 9 (analyzeBytes input).ord.length).toNat = (analyzeBytes input).ord.length := by
    have := length_le_of_nodup hnd
    rw [BitVec.toNat_ofNat]
    exact Nat.mod_eq_of_lt (by omega)
  refine ⟨(countP_ftCnt hnd hmem).trans hnsym.symm, hnsym.symm, hnd, hmem, ?_⟩
  have hcnt : ∀ b : Byte,
      ((s.setTable (analyzeBytes input).cnt (analyzeBytes input).ord).cnt b).toNat = input.count b := fun b => by
    rw [State.cnt, State.setTable_ftCnt, analyzeBytes_cnt, BitVec.toNat_ofNat]
    exact Nat.mod_eq_of_lt (lt_of_le_of_lt List.count_le_length hlt)
  rw [total_eq_sum_cnt]
  simp only [hcnt]
  exact (sum_count_eq_length nodup_allBytes fun b _ => mem_allBytes b).trans_le h

/-- The empty table is legal (10_state.md R38). -/
theorem tableInv_of_empty {s : State} (hcnt : s.ftCnt = noCounts) (hord : s.ftOrd = []) (hn : s.nsym = 0) :
    s.TableInv := by
  have hzero : ∀ b, s.cnt b = 0 := fun b => by simp [State.cnt, hcnt, noCounts]
  have hmem : ∀ b : Byte, b ∈ s.ftOrd ↔ s.cnt b ≠ 0 := by simp [hord, hzero]
  have hnd : s.ftOrd.Nodup := by simp [hord]
  refine ⟨?_, by simp [hord, hn], hnd, hmem, ?_⟩
  · rw [countP_ftCnt hnd hmem, hord, hn]
    rfl
  · simp [total_eq_sum_cnt, hzero]

theorem clear_tableInv {s : State} (d : Dest) (hs : s.TableInv) : (s.clear d).TableInv := by
  cases d with
  | table => exact tableInv_of_empty rfl rfl rfl
  | tree | codes | packed | output | nothing => exact hs

theorem succeed_tableInv {s : State} (hs : s.TableInv) : s.succeed.TableInv := hs

theorem Completes.tableInv {i : Instr} {s t : State} (h : Completes s i t) (hs : s.TableInv) : t.TableInv := by
  cases h with
  | failed e info => exact clear_tableInv (destOf i) hs
  | analyzed hl =>
    refine succeed_tableInv (setTable_analyzeBytes_tableInv ?_)
    rw [length_input]
    simpa [State.inLenBad] using hl
  | _ => exact hs

/-- Every step keeps the frequency table legal (10_state.md R38). -/
theorem step_tableInv {s t : State} (hs : s.TableInv) (h : step s = .next t) : t.TableInv :=
  step_keeps (P := State.TableInv) h hs (fun _ _ _ _ h => h) (fun _ _ h => h) (fun _ _ h => h) (fun _ _ h => h)
    (fun _ _ _ _ h => h) (fun _ _ => tableInv_of_empty rfl rfl rfl) fun _ _ hc hu => hc.tableInv hu

end Sys2Proof.Machine

namespace Sys2Proof

/-! ## Codes -/

/-- Following a path in two parts. -/
theorem Tree.follow_append (t : Tree) (p q : Bits) : t.follow (p ++ q) = (t.follow p).bind fun u => u.follow q := by
  induction p generalizing t with
  | nil => simp [Tree.follow]
  | cons b p ih =>
    cases t with
    | leaf a w => rfl
    | node w l r => cases b <;> simp [Tree.follow, ih]

/-- A path to a leaf that begins with a path to a leaf leads to the same symbol: no leaf lies below another
(42_generate.md R169). -/
theorem Tree.HasLeaf.sym_eq_of_isPrefix {t : Tree} {p q : Bits} {a b : Byte} (hp : t.HasLeaf p a) (hq : t.HasLeaf q b)
    (h : p <+: q) : a = b := by
  obtain ⟨v, hv⟩ := hp
  obtain ⟨w, hw⟩ := hq
  obtain ⟨r, rfl⟩ := h
  rw [Tree.follow_append, hv, Option.bind_some] at hw
  cases r with
  | nil =>
    simp only [Tree.follow, Option.some.injEq, Tree.leaf.injEq] at hw
    exact hw.1
  | cons x r => simp [Tree.follow] at hw

/-- A path in a tree is no longer than the tree is deep. -/
theorem Tree.length_le_depth {t u : Tree} {p : Bits} (h : t.follow p = some u) : p.length ≤ t.depth := by
  induction p generalizing t with
  | nil => exact Nat.zero_le _
  | cons b p ih =>
    cases t with
    | leaf a w => simp [Tree.follow] at h
    | node w l r =>
      cases b <;> have := ih h <;> simp only [List.length_cons, Tree.depth] <;> omega

/-- The codes of distinct symbols of a tree do not begin with each other (10_state.md R42). -/
theorem Tree.codes_prefixFree {t : Tree} {a b : Byte} {p q : Bits} (hp : (a, p) ∈ t.codes) (hq : (b, q) ∈ t.codes)
    (hab : a ≠ b) : ¬ p <+: q := by
  cases t with
  | leaf c w =>
    simp only [Tree.codes, List.mem_singleton, Prod.mk.injEq] at hp hq
    exact absurd (hp.1.trans hq.1.symm) hab
  | node w l r =>
    obtain ⟨p, rfl, hpl⟩ := (Machine.mem_walk_iff _ [] a _).mp hp
    obtain ⟨q, rfl, hql⟩ := (Machine.mem_walk_iff _ [] b _).mp hq
    exact fun h => hab (hpl.sym_eq_of_isPrefix hql h)

/-- A code has fewer bits than the tree has leaves, but for the code "0" of the tree that is one leaf. -/
theorem Tree.length_codes {t : Tree} {b : Byte} {p : Bits} (h : (b, p) ∈ t.codes) :
    p.length ≤ max 1 (t.syms.length - 1) := by
  cases t with
  | leaf c w =>
    simp only [Tree.codes, List.mem_singleton, Prod.mk.injEq] at h
    simp [h.2]
  | node w l r =>
    obtain ⟨p, rfl, v, hv⟩ := (Machine.mem_walk_iff _ [] b _).mp h
    have hdepth := Tree.length_le_depth hv
    have := (Tree.node w l r).depth_lt_syms
    omega

end Sys2Proof

namespace Sys2Proof.Machine

/-- What a code table holds after entries were written: what was there before, or one of the entries. -/
theorem foldl_setCode (es : List (Byte × Bits)) (ct : Vector Bits 256) (b : Byte) :
    (es.foldl setCode ct)[b.toNat]'(b.isLt) = ct[b.toNat]'(b.isLt) ∨
      (b, (es.foldl setCode ct)[b.toNat]'(b.isLt)) ∈ es := by
  induction es generalizing ct with
  | nil => exact .inl rfl
  | cons e es ih =>
    rw [List.foldl_cons]
    rcases ih (setCode ct e) with h | h
    · by_cases he : e.1 = b
      · subst he
        exact .inr (by rw [h]; simp [setCode])
      · have hne : e.1.toNat ≠ b.toNat := fun h => he (BitVec.eq_of_toNat_eq h)
        exact .inl (by rw [h, setCode, Vector.getElem_set_ne _ _ hne])
    · exact .inr (List.mem_cons_of_mem _ h)

/-- A symbol that has a code in a tree's code table has it from the tree (42_generate.md R166). -/
theorem codeTable_mem_codes {t : Tree} {b : Byte} (h : (codeTable t)[b.toNat]'(b.isLt) ≠ []) :
    (b, (codeTable t)[b.toNat]'(b.isLt)) ∈ t.codes :=
  (foldl_setCode t.codes noCodes b).resolve_left fun h' => h (h'.trans (by simp [noCodes]))

/-- The code table of a tree of at most 256 leaves is legal (10_state.md R41, R42). -/
theorem setCodes_codeTable_codeInv (s : State) {t : Tree} (h : t.syms.length ≤ 256) :
    (s.setCodes (codeTable t)).CodeInv := by
  refine ⟨fun a b hab ha hb => Tree.codes_prefixFree (codeTable_mem_codes ha) (codeTable_mem_codes hb) hab, fun b => ?_⟩
  by_cases hb : (s.setCodes (codeTable t)).code b = []
  · simp [hb]
  · exact (Tree.length_codes (codeTable_mem_codes hb)).trans (by simp only [Config.codeMax]; omega)

/-- The empty code table is legal (10_state.md R42). -/
theorem codeInv_of_empty {s : State} (h : s.ct = noCodes) : s.CodeInv := by
  have hnil : ∀ b, s.code b = [] := fun b => by simp [State.code, h, noCodes]
  exact ⟨fun a _ _ ha => absurd (hnil a) ha, fun b => by simp [hnil]⟩

theorem clear_codeInv {s : State} (d : Dest) (hs : s.CodeInv) : (s.clear d).CodeInv := by
  cases d with
  | codes => exact codeInv_of_empty rfl
  | table | tree | packed | output | nothing => exact hs

theorem succeed_codeInv {s : State} (hs : s.CodeInv) : s.succeed.CodeInv := hs

theorem Completes.codeInv {i : Instr} {s t : State} (h : Completes s i t) (htree : s.TreeInv) (hs : s.CodeInv) :
    t.CodeInv := by
  cases h with
  | failed e info => exact clear_codeInv (destOf i) hs
  | generated tree hn ht => exact succeed_codeInv (setCodes_codeTable_codeInv s (htree.length_syms hn ht))
  | _ => exact hs

/-- Every step keeps every code off the front of the others and at most CODE_MAX bits long (10_state.md R41, R42). -/
theorem step_codeInv {s t : State} (htree : s.TreeInv) (hs : s.CodeInv) (h : step s = .next t) : t.CodeInv :=
  step_keeps (P := State.CodeInv) h hs (fun _ _ _ _ h => h) (fun _ _ h => h) (fun _ _ h => h) (fun _ _ h => h)
    (fun _ _ _ _ h => h) (fun _ _ => codeInv_of_empty rfl) fun _ _ hc hu => hc.codeInv htree hu

/-! ## Trees in an arena -/

/-- The arena holds tree t at index i, on the entries idxs in pre-order (10_state.md R39, R40). -/
inductive TreeOn (nodes : List Node) : Nat → Tree → List Nat → Prop
  | leaf {i : Nat} {b : Byte} {w : Word} (h : nodes[i]? = some (leafNode b w)) : TreeOn nodes i (.leaf b w) [i]
  | node {i l r : Nat} {w : Word} {tl tr : Tree} {il ir : List Nat} (h : nodes[i]? = some (innerNode w l r))
      (hl : TreeOn nodes l tl il) (hr : TreeOn nodes r tr ir) : TreeOn nodes i (.node w tl tr) (i :: (il ++ ir))

section TreeOn
variable {nodes : List Node} {i : Nat} {t : Tree} {idxs : List Nat}

theorem TreeOn.lt_length (h : TreeOn nodes i t idxs) : i < nodes.length := by
  cases h with
  | leaf h | node h => exact (List.getElem?_eq_some_iff.mp h).1

theorem TreeOn.length_eq_size (h : TreeOn nodes i t idxs) : idxs.length = t.size := by
  induction h with
  | leaf => rfl
  | node _ _ _ ihl ihr => simp only [List.length_cons, List.length_append, ihl, ihr, Tree.size]; omega

/-- An arena that grows keeps its trees. -/
theorem TreeOn.append (h : TreeOn nodes i t idxs) (more : List Node) : TreeOn (nodes ++ more) i t idxs := by
  have keep : ∀ {j : Nat} {e : Node}, nodes[j]? = some e → (nodes ++ more)[j]? = some e := fun he => by
    rw [List.getElem?_append_left (List.getElem?_eq_some_iff.mp he).1, he]
  induction h with
  | leaf h => exact .leaf (keep h)
  | node h _ _ ihl ihr => exact .node (keep h) ihl ihr

/-- Reading the arena at the index gives the tree and its entries, if the arena has indexes for all its entries. -/
theorem TreeOn.read (h : TreeOn nodes i t idxs) (hlen : nodes.length ≤ 512) {fuel : Nat} (hf : t.depth < fuel) :
    treeAt nodes fuel (BitVec.ofNat 9 i) = some t ∧ visit nodes fuel (BitVec.ofNat 9 i) = idxs := by
  have hidx : ∀ {j : Nat} {e : Node}, nodes[j]? = some e → (BitVec.ofNat 9 j).toNat = j := fun {j e} he => by
    have := (List.getElem?_eq_some_iff.mp he).1
    rw [BitVec.toNat_ofNat]
    omega
  induction h generalizing fuel with
  | leaf h =>
    obtain ⟨fuel, rfl⟩ := Nat.exists_eq_add_of_lt hf
    simp [treeAt, visit, hidx h, h, leafNode]
  | node h _ _ ihl ihr =>
    obtain ⟨fuel, rfl⟩ := Nat.exists_eq_add_one_of_ne_zero (Nat.ne_zero_of_lt hf)
    simp only [Tree.depth] at hf
    obtain ⟨htl, hvl⟩ := ihl (fuel := fuel) (by omega)
    obtain ⟨htr, hvr⟩ := ihr (fuel := fuel) (by omega)
    simp [treeAt, visit, hidx h, h, innerNode, htl, hvl, htr, hvr]

/-- Every entry of the tree is a leaf without children or has both children in the arena (10_state.md R40 (b)). -/
theorem TreeOn.entry_ok (h : TreeOn nodes i t idxs) {j : Nat} (hj : j ∈ idxs) :
    ∃ e, nodes[j]? = some e ∧ e.Ok nodes.length := by
  induction h with
  | @leaf i b w h =>
    obtain rfl := List.mem_singleton.mp hj
    exact ⟨leafNode b w, h, by simp [Node.Ok, leafNode]⟩
  | @node i l r w _ _ _ _ h hl hr ihl ihr =>
    rcases List.mem_cons.mp hj with rfl | hj
    · have := Nat.mod_le l 512
      have := Nat.mod_le r 512
      have := hl.lt_length
      have := hr.lt_length
      refine ⟨innerNode w l r, h, ?_⟩
      simp only [Node.Ok, innerNode, BitVec.toNat_ofNat, Bool.false_eq_true, if_false, true_and]
      omega
    · exact (List.mem_append.mp hj).elim ihl ihr

/-- An arena that is one tree with distinct leaf symbols is legal (10_state.md R40). -/
theorem setTree_treeInv (s : State) (h : TreeOn nodes i t idxs) (hperm : idxs.Perm (List.range nodes.length))
    (hnd : t.syms.Nodup) : (s.setTree nodes (BitVec.ofNat 9 i)).TreeInv := by
  have hsyms := length_le_of_nodup hnd
  have hdepth := t.depth_lt_syms
  have hlen : nodes.length = t.size := by
    rw [← h.length_eq_size, hperm.length_eq, List.length_range]
  have hsize := t.size_eq
  have hi := h.lt_length
  have hroot : (BitVec.ofNat 9 i).toNat = i := by rw [BitVec.toNat_ofNat]; omega
  have hnnode : (s.setTree nodes (BitVec.ofNat 9 i)).nnode.toNat = nodes.length := by
    rw [State.setTree_nnode, BitVec.toNat_ofNat]
    omega
  obtain ⟨htree, hvisit⟩ := h.read (fuel := Config.nodeCap) (by omega) (by simp only [Config.nodeCap]; omega)
  refine .inr ?_
  rw [hnnode, State.setTree_root, hroot, State.setTree_nodes, hvisit]
  refine ⟨hi, by simp only [Config.nodeCap]; omega, rfl, hperm, fun e he => ?_, t, htree, hnd, hsyms, by omega⟩
  obtain ⟨j, hj⟩ := List.mem_iff_getElem?.mp he
  have hj' : j < nodes.length := (List.getElem?_eq_some_iff.mp hj).1
  obtain ⟨e', he', hok⟩ := h.entry_ok (hperm.mem_iff.mpr (List.mem_range.mpr hj'))
  rwa [Option.some.inj (hj.symm.trans he')]

end TreeOn

/-! ## DESERIALIZE -/

/-- An arena that lists a tree's pre-order layout from index i on holds the tree there (45_treecodec.md R223). -/
theorem treeOn_layTree (t : Tree) {nodes : List Node} {i : Nat}
    (h : ∀ k, k < t.size → nodes[i + k]? = (layTree i t)[k]?) : TreeOn nodes i t (List.range' i t.size) := by
  induction t generalizing i with
  | leaf b w => exact .leaf (h 0 Nat.one_pos)
  | node w l r ihl ihr =>
    simp only [Tree.size] at h
    have hl := ihl (i := i + 1) fun k hk => by
      rw [Nat.add_right_comm, Nat.add_assoc, h (k + 1) (by omega), layTree, List.getElem?_cons_succ,
        List.getElem?_append_left (by simpa using hk)]
    have hr := ihr (i := i + 1 + l.size) fun k hk => by
      rw [show i + 1 + l.size + k = i + (l.size + k + 1) by omega, h _ (by omega), layTree, List.getElem?_cons_succ,
        List.getElem?_append_right (by simp), length_layTree, Nat.add_sub_cancel_left]
    have hsplit : List.range' i (Tree.node w l r).size =
        i :: (List.range' (i + 1) l.size ++ List.range' (i + 1 + l.size) r.size) := by
      rw [Tree.size, Nat.add_assoc, Nat.add_comm 1, List.range'_succ, ← List.range'_append_1]
    rw [hsplit]
    exact .node (h 0 (by omega)) hl hr

/-- DESERIALIZE accepts only trees whose leaves have distinct symbols (45_treecodec.md R222 (f)). -/
theorem deserialBytes_nodup {bytes : List Byte} {t : Tree} (h : deserialBytes bytes = some (some t)) :
    t.syms.Nodup := by
  simp only [deserialBytes] at h
  split at h
  · next ot p hp =>
    split_ifs at h
    cases h
    obtain ⟨-, -, -, hseen, hnd⟩ := parseTree_sound _ _ _ _ hp (Nat.zero_le _) List.nodup_nil
    rw [hseen, List.append_nil, List.nodup_reverse] at hnd
    exact hnd
  · cases h

/-- The arena DESERIALIZE lays out is legal (45_treecodec.md R223). -/
theorem setTree_layTree_treeInv (s : State) {t : Tree} (hnd : t.syms.Nodup) : (s.setTree (layTree 0 t) 0).TreeInv := by
  refine setTree_treeInv s (treeOn_layTree t (i := 0) fun k _ => by rw [Nat.zero_add]) ?_ hnd
  rw [length_layTree, List.range_eq_range']

/-! ## BUILD -/

/-- The members of a forest are roots of trees in the arena: the trees in the order of the members, and all their
entries (41_build.md R151). -/
inductive Forest (nodes : List Node) : List Member → List Tree → List Nat → Prop
  | nil : Forest nodes [] [] []
  | cons {m : Member} {t : Tree} {il : List Nat} {ms : List Member} {ts : List Tree} {idxs : List Nat}
      (h : TreeOn nodes m.i t il) (hs : Forest nodes ms ts idxs) : Forest nodes (m :: ms) (t :: ts) (il ++ idxs)

section Forest
variable {nodes : List Node} {ms : List Member} {ts : List Tree} {idxs : List Nat}

theorem Forest.append (h : Forest nodes ms ts idxs) (more : List Node) : Forest (nodes ++ more) ms ts idxs := by
  induction h with
  | nil => exact .nil
  | cons h _ ih => exact .cons (h.append more) ih

/-- The members of a forest in another order. -/
theorem Forest.perm {ms' : List Member} (hp : ms.Perm ms') (h : Forest nodes ms ts idxs) :
    ∃ ts' idxs', Forest nodes ms' ts' idxs' ∧ ts'.Perm ts ∧ idxs'.Perm idxs := by
  induction hp generalizing ts idxs with
  | nil => exact ⟨ts, idxs, h, .refl _, .refl _⟩
  | cons m _ ih =>
    obtain _ | ⟨ht, hs⟩ := h
    obtain ⟨ts', idxs', hs', hts, hidxs⟩ := ih hs
    exact ⟨_, _, .cons ht hs', hts.cons _, hidxs.append_left _⟩
  | swap m m' _ =>
    obtain _ | ⟨ht, _ | ⟨ht', hs⟩⟩ := h
    refine ⟨_, _, .cons ht' (.cons ht hs), .swap _ _ _, ?_⟩
    rw [← List.append_assoc, ← List.append_assoc]
    exact List.perm_append_comm.append_right _
  | trans _ _ ih₁ ih₂ =>
    obtain ⟨ts₁, idxs₁, h₁, hts₁, hidxs₁⟩ := ih₁ h
    obtain ⟨ts₂, idxs₂, h₂, hts₂, hidxs₂⟩ := ih₂ h₁
    exact ⟨ts₂, idxs₂, h₂, hts₂.trans hts₁, hidxs₂.trans hidxs₁⟩

/-- A new entry above the first two trees makes them one tree (41_build.md R152). -/
theorem Forest.merge {a b : Member} (h : Forest nodes (a :: b :: ms) ts idxs)
    (hperm : idxs.Perm (List.range nodes.length)) (w : Word) :
    ∃ ts' idxs', Forest (nodes ++ [innerNode w a.i b.i]) ({ w := w, i := nodes.length } :: ms) ts' idxs' ∧
      idxs'.Perm (List.range (nodes.length + 1)) ∧ ts'.flatMap Tree.syms = ts.flatMap Tree.syms := by
  obtain _ | ⟨ha, _ | ⟨hb, hs⟩⟩ := h
  have hnew := TreeOn.node (i := nodes.length) (w := w) (List.getElem?_concat_length (l := nodes)) (ha.append _)
    (hb.append _)
  refine ⟨_, _, .cons hnew (hs.append _), ?_, ?_⟩
  · rw [List.cons_append, List.append_assoc, List.range_succ]
    exact (hperm.cons _).trans (List.perm_append_singleton _ _).symm
  · simp [Tree.syms]

end Forest

/-- Two selections in a row take two members out of the forest (41_build.md R152). -/
theorem selectMin_twice_perm {m x : Member} {ms xs : List Member} (h : (selectMin m ms).2 = x :: xs) :
    ((selectMin m ms).1 :: (selectMin x xs).1 :: (selectMin x xs).2).Perm (m :: ms) :=
  ((selectMin_perm x xs).cons _).trans (h ▸ selectMin_perm m ms)

/-- One turn of the merge loop on a forest of at least two members. -/
theorem mergeForest_succ {m x : Member} {ms xs : List Member} (fuel next : Nat) (h : (selectMin m ms).2 = x :: xs) :
    mergeForest (fuel + 1) next m ms =
      innerNode ((selectMin m ms).1.w + (selectMin x xs).1.w) (selectMin m ms).1.i (selectMin x xs).1.i ::
        mergeForest fuel (next + 1) { w := (selectMin m ms).1.w + (selectMin x xs).1.w, i := next }
          (selectMin x xs).2 := by
  rw [mergeForest]
  simp only [h]

/-- The merge loop ends with one tree at the last entry: it fills the arena and has the leaves of the forest
(41_build.md R152, R156). -/
theorem mergeForest_treeOn {nodes : List Node} {m : Member} {ms : List Member} {ts : List Tree} {idxs : List Nat}
    (hf : Forest nodes (m :: ms) ts idxs) (hperm : idxs.Perm (List.range nodes.length))
    (hlast : ms = [] → m.i + 1 = nodes.length) :
    ∃ t idxs', TreeOn (nodes ++ mergeForest ms.length nodes.length m ms) (nodes.length + ms.length - 1) t idxs' ∧
      idxs'.Perm (List.range (nodes.length + ms.length)) ∧ t.syms.Perm (ts.flatMap Tree.syms) := by
  generalize hn : ms.length = n
  induction n generalizing nodes m ms ts idxs with
  | zero =>
    obtain rfl := List.length_eq_zero_iff.mp hn
    have hi : nodes.length + 0 - 1 = m.i := by have := hlast rfl; omega
    obtain _ | ⟨ht, _ | _⟩ := hf
    rw [List.append_nil] at hperm
    rw [mergeForest, List.append_nil, hi]
    exact ⟨_, _, ht, hperm, by simp⟩
  | succ n ih =>
    have hlen := (selectMin_perm m ms).length_eq
    simp only [List.length_cons, hn] at hlen
    obtain ⟨x, xs, hx⟩ := List.exists_cons_of_length_pos (l := (selectMin m ms).2) (by omega)
    have hlen' := (selectMin_perm x xs).length_eq
    simp only [hx, List.length_cons] at hlen hlen'
    obtain ⟨ts₁, idxs₁, hf₁, hts₁, hidxs₁⟩ := hf.perm (selectMin_twice_perm hx).symm
    obtain ⟨ts₂, idxs₂, hf₂, hidxs₂, hts₂⟩ :=
      hf₁.merge (hidxs₁.trans hperm) ((selectMin m ms).1.w + (selectMin x xs).1.w)
    obtain ⟨t, idxs', ht, hidxs', hsyms⟩ := ih hf₂ (by simpa using hidxs₂) (fun _ => by simp) (by omega)
    rw [mergeForest_succ n _ hx]
    simp only [List.length_append, List.length_singleton, List.append_assoc, List.singleton_append] at ht hidxs'
    rw [Nat.add_assoc, Nat.add_comm 1] at ht hidxs'
    exact ⟨t, idxs', ht, hidxs', hsyms.trans (hts₂ ▸ hts₁.flatMap_right _)⟩

/-- Members at leaf entries are a forest of one-leaf trees (41_build.md R151). -/
theorem forest_of_leaves {nodes : List Node} {ms : List Member}
    (h : ∀ m ∈ ms, ∃ b, nodes[m.i]? = some (leafNode b m.w)) :
    ∃ ts, Forest nodes ms ts (ms.map Member.i) ∧
      ts.flatMap Tree.syms = ms.map fun m => ((nodes[m.i]?).map Node.sym).getD 0 := by
  induction ms with
  | nil => exact ⟨[], .nil, rfl⟩
  | cons m ms ih =>
    obtain ⟨b, hb⟩ := h m List.mem_cons_self
    obtain ⟨ts, hts, hsyms⟩ := ih fun m hm => h m (List.mem_cons_of_mem _ hm)
    exact ⟨.leaf b m.w :: ts, .cons (.leaf hb) hts, by simp [hsyms, hb, leafNode, Tree.syms]⟩

theorem length_forestOf (leaves : List Node) : (forestOf leaves).length = leaves.length := by simp [forestOf]

theorem map_i_forestOf (leaves : List Node) : (forestOf leaves).map Member.i = List.range leaves.length :=
  List.ext_getElem (by simp [forestOf]) fun i h₁ h₂ => by simp [forestOf]

/-- The first forest: every leaf entry is a tree of its own (41_build.md R151). -/
theorem forest_forestOf {leaves : List Node} (h : ∀ e ∈ leaves, ∃ b, e = leafNode b e.w) :
    ∃ ts, Forest leaves (forestOf leaves) ts (List.range leaves.length) ∧
      ts.flatMap Tree.syms = leaves.map Node.sym := by
  have hleaf : ∀ m ∈ forestOf leaves, ∃ b, leaves[m.i]? = some (leafNode b m.w) := fun m hm => by
    obtain ⟨i, hi, rfl⟩ := List.mem_mapIdx.mp hm
    obtain ⟨b, hb⟩ := h _ (List.getElem_mem hi)
    exact ⟨b, by rw [← hb, List.getElem?_eq_getElem hi]⟩
  obtain ⟨ts, hf, hsyms⟩ := forest_of_leaves hleaf
  refine ⟨ts, map_i_forestOf leaves ▸ hf, hsyms.trans ?_⟩
  refine List.ext_getElem (by simp [forestOf]) fun i h₁ h₂ => ?_
  have hi : i < leaves.length := by simpa using h₂
  simp [forestOf, hi]

/-- The arena BUILD makes from leaf entries is one tree at its last entry, with the leaves' symbols
(41_build.md R156). -/
theorem buildArena_treeOn {leaves : List Node} (h : ∀ e ∈ leaves, ∃ b, e = leafNode b e.w) (hne : leaves ≠ []) :
    ∃ t idxs, TreeOn (buildArena leaves) ((buildArena leaves).length - 1) t idxs ∧
      idxs.Perm (List.range (buildArena leaves).length) ∧ t.syms.Perm (leaves.map Node.sym) := by
  obtain ⟨ts, hf, hsyms⟩ := forest_forestOf h
  have hlen := length_forestOf leaves
  have harena := length_buildArena leaves
  have hpos := List.length_pos_iff.mpr hne
  cases hm : forestOf leaves with
  | nil => rw [hm, List.length_nil] at hlen; omega
  | cons m ms =>
    rw [hm] at hf
    rw [hm, List.length_cons] at hlen
    have hfirst : m.i = 0 := by
      have := congrArg List.head? (map_i_forestOf leaves)
      rw [hm, List.head?_range] at this
      simpa [Nat.ne_of_gt hpos] using this
    obtain ⟨t, idxs, ht, hperm, hts⟩ := mergeForest_treeOn hf (.refl _) fun hms => by
      rw [hms, List.length_nil] at hlen
      omega
    have hshape : buildArena leaves = leaves ++ mergeForest ms.length leaves.length m ms := by
      simp only [buildArena, hm]
    have hsum : leaves.length + ms.length = (buildArena leaves).length := by omega
    rw [← hshape, hsum] at ht
    rw [hsum] at hperm
    exact ⟨t, idxs, ht, hperm, hsyms ▸ hts⟩

/-- The leaves BUILD starts from have the symbols of FT_ORD (41_build.md R151). -/
theorem map_sym_leafNodes {s : State} (h : s.ftOrd.length = s.nsym.toNat) : s.leafNodes.map Node.sym = s.ftOrd := by
  refine List.ext_getElem (by simp [State.leafNodes, h]) fun i h₁ h₂ => ?_
  simp [State.leafNodes, leafNode, State.ord, h₂]

/-- BUILD's arena is legal (10_state.md R40, 41_build.md R156). -/
theorem setTree_buildArena_treeInv {s : State} (htable : s.TableInv) (hn : s.nsym ≠ 0) :
    (s.setTree (buildArena s.leafNodes) (BitVec.ofNat 9 ((buildArena s.leafNodes).length - 1))).TreeInv := by
  obtain ⟨-, hlen, hnd, -⟩ := htable
  have hsyms := map_sym_leafNodes hlen
  have hleaf : ∀ e ∈ s.leafNodes, ∃ b, e = leafNode b e.w := fun e he => by
    obtain ⟨k, -, rfl⟩ := List.mem_map.mp he
    exact ⟨_, rfl⟩
  have hne : s.leafNodes ≠ [] := fun h => by
    rw [h, List.map_nil] at hsyms
    rw [← hsyms, List.length_nil] at hlen
    exact hn (BitVec.eq_of_toNat_eq hlen.symm)
  obtain ⟨t, idxs, ht, hperm, hts⟩ := buildArena_treeOn hleaf hne
  exact setTree_treeInv s ht hperm (hts.nodup_iff.mpr (hsyms ▸ hnd))

/-! ## The tree -/

/-- The empty tree is legal (10_state.md R40). -/
theorem treeInv_of_empty {s : State} (hroot : s.root = Config.nullIdx) (hn : s.nnode = 0) (hnodes : s.nodes = []) :
    s.TreeInv :=
  .inl ⟨hroot, hn, hnodes⟩

theorem clear_treeInv {s : State} (d : Dest) (hs : s.TreeInv) : (s.clear d).TreeInv := by
  cases d with
  | tree => exact treeInv_of_empty rfl rfl rfl
  | table | codes | packed | output | nothing => exact hs

theorem succeed_treeInv {s : State} (hs : s.TreeInv) : s.succeed.TreeInv := hs

theorem Completes.treeInv {i : Instr} {s t : State} (h : Completes s i t) (htable : s.TableInv) (hs : s.TreeInv) :
    t.TreeInv := by
  cases h with
  | failed e info => exact clear_treeInv (destOf i) hs
  | built hn => exact succeed_treeInv (setTree_buildArena_treeInv htable hn)
  | deserializedNull => exact succeed_treeInv (treeInv_of_empty rfl rfl rfl)
  | deserialized tree hl hd => exact succeed_treeInv (setTree_layTree_treeInv s (deserialBytes_nodup hd))
  | _ => exact hs

/-- Every step keeps the tree legal (10_state.md R40). -/
theorem step_treeInv {s t : State} (htable : s.TableInv) (hs : s.TreeInv) (h : step s = .next t) : t.TreeInv :=
  step_keeps (P := State.TreeInv) h hs (fun _ _ _ _ h => h) (fun _ _ h => h) (fun _ _ h => h) (fun _ _ h => h)
    (fun _ _ _ _ h => h) (fun _ _ => treeInv_of_empty rfl rfl rfl) fun _ _ hc hu => hc.treeInv htable hu

/-! ## The invariant of the block -/

/-- The reset values meet the invariant with any legal capacities (10_state.md R49). -/
theorem pulseReset_inv {s : State} (hcaps : s.Caps) : s.pulseReset.Inv :=
  ⟨hcaps, tableInv_of_empty rfl rfl rfl, treeInv_of_empty rfl rfl rfl, codeInv_of_empty rfl, pulseReset_bufferInv s,
    pulseReset_statusInv s⟩

/-- Settles O19: the state at reset is what a reset pulse makes of a block with the default capacities. -/
theorem invAtReset : Obligations.InvAtReset :=
  pulseReset_inv (s := { State.reset with draws := 0 }) (by unfold State.Caps; decide)

/-- Settles O20, part by part: each part's own lemma about a step needs only the parts of the invariant it names. -/
theorem stepKeepsInv : Obligations.StepKeepsInv := by
  rintro s t ⟨hcaps, htable, htree, hcode, hbuffer, hstatus⟩ h
  exact ⟨step_caps hcaps h, step_tableInv htable h, step_treeInv htable htree h, step_codeInv htree hcode h,
    step_bufferInv hcaps htree hbuffer h, step_statusInv hstatus h⟩

end Sys2Proof.Machine
end

section
/-!
SUPPORT. The registers and the invariants of 10_state.md (O3, O8, O9, O10, O17, O21 to O25, O54, O57): the step of a given
agenda, the accesses to the registers, the registers each command writes and what no command reads.
-/

namespace Sys2Proof.Machine

/-! ## The parts of the invariant -/

/-- Settles O22: BUILD's merges and DESERIALIZE's layout make strict binary trees, and nothing else writes the arena but
the clearing of a failure or a reset (`step_treeInv`). -/
theorem stepKeepsTree : Obligations.StepKeepsTree := fun _ _ _ htable htree h => step_treeInv htable htree h

/-- Settles O21: ANALYZE alone fills the table, from at most IN_CAP bytes (`step_tableInv`). -/
theorem stepKeepsFrequencyTable : Obligations.StepKeepsFrequencyTable := fun _ _ _ htable h => step_tableInv htable h

/-- Settles O23: GENERATE alone fills the code table, with the paths of a legal tree (`step_codeInv`). -/
theorem stepKeepsCodesPrefixFree : Obligations.StepKeepsCodesPrefixFree := fun _ _ htree hcode h =>
  step_codeInv htree hcode h

/-- Settles O24: every output fits OUT_CAP, a serialized legal tree too, and the host writes only below IN_CAP
(`step_bufferInv`). -/
theorem stepKeepsBuffers : Obligations.StepKeepsBuffers := fun _ _ hcaps htree hbuffer h =>
  step_bufferInv hcaps htree hbuffer h

/-- Settles O25: only a start, a completion and a reset write STATUS, ERR and ERR_INFO (`step_statusInv`). -/
theorem stepKeepsStatus : Obligations.StepKeepsStatus := fun _ _ hstatus h => step_statusInv hstatus h

/-! ## The step of a given agenda -/

theorem step_of_agenda_nil {s : State} (h : s.agenda = []) : step s = engineTurn s := by simp only [step, h]

theorem step_of_agenda_cons {s : State} {e : Event} {rest : List Event} (h : s.agenda = e :: rest) :
    step s = takeEvent { s with agenda := rest } e := by
  simp only [step, h]

theorem engineTurn_of_busy {s : State} (h : s.busy = true) : engineTurn s = exec (decode s.cmd) s := by
  rw [engineTurn, if_pos h, State.command]

theorem hostAccess_read {s : State} {w : Width} {off k : Nat} {r : Region} (hl : locate s w off = .ok (r, k))
    (hb : s.busy = false ∨ readableBusy k r = true) :
    hostAccess s (.read w off) = .next (s.deliver (s.readUnit k r)) := by
  have hlock : ¬ (s.busy && !readableBusy k r) = true := by rcases hb with hb | hb <;> simp [hb]
  simp only [hostAccess, hl]
  rw [if_neg hlock]

theorem hostAccess_write {s : State} {w : Width} {off k : Nat} {v : Word} {r : Region}
    (hl : locate s w off = .ok (r, k)) (hb : s.busy = false) :
    hostAccess s (.write w off v) = .next (s.writeUnit k v r) := by
  simp [hostAccess, hl, hb]

/-- A read that the busy lock does not hide gives the host the unit's value and changes nothing else (20_memory.md R72,
R85). -/
theorem step_read {s : State} {rest : List Event} {w : Width} {off k : Nat} {r : Region}
    (ha : s.agenda = .host (.read w off) :: rest) (hl : locate s w off = .ok (r, k))
    (hb : s.busy = false ∨ readableBusy k r = true) :
    step s = .next { s with agenda := rest, hostReads := s.readUnit k r :: s.hostReads } := by
  have hunit : ({ s with agenda := rest } : State).readUnit k r = s.readUnit k r := by cases r <;> rfl
  rw [step_of_agenda_cons ha, takeEvent, hostAccess_read (s := { s with agenda := rest }) hl hb, hunit]
  rfl

/-- A write of an idle block reaches its unit (20_memory.md R72). -/
theorem step_write {s : State} {rest : List Event} {w : Width} {off k : Nat} {v : Word} {r : Region}
    (ha : s.agenda = .host (.write w off v) :: rest) (hl : locate s w off = .ok (r, k)) (hb : s.busy = false) :
    step s = .next (({ s with agenda := rest } : State).writeUnit k v r) := by
  rw [step_of_agenda_cons ha, takeEvent, hostAccess_write (s := { s with agenda := rest }) hl hb]

/-- Settles O3: the agenda names the engine or is empty, and the engine's turn of a busy block is the command in CMD. -/
theorem stepRunsTheCommandInCmd : Obligations.StepRunsTheCommandInCmd := by
  refine ⟨fun s hb ha => ?_, fun s rest hb ha => ?_, fun s nbits w => ?_⟩
  · rw [step_of_agenda_nil ha, engineTurn_of_busy hb]
  · rw [step_of_agenda_cons ha]
    exact engineTurn_of_busy (s := { s with agenda := rest }) hb
  · rw [step_of_agenda_cons (s := s.withFetchWord nbits w) rfl]
    exact engineTurn_of_busy (start_flags s (BitVec.ofNat 32 w)).1

/-! ## Accesses to the registers -/

/-- The map lists every register once, at the place its offset names (10_state.md R22). -/
theorem regMap_getElem? (g : Reg) : regMap[g.offset / 4]? = some g := by cases g <;> decide

theorem eq_of_regMap_getElem? {k : Nat} {g : Reg} (h : regMap[k]? = some g) : 4 * k = g.offset := by
  obtain ⟨hk, rfl⟩ := List.getElem?_eq_some_iff.mp h
  rw [Reg.offset, List.Nodup.idxOf_getElem (by decide) k hk]

/-- A register is a word of the region REG (20_memory.md R73, R75). -/
theorem locate_offset (s : State) (g : Reg) : locate s .b32 g.offset = .ok (.reg, g.offset / 4) := by
  have hoff : g.offset < 0x3C ∧ g.offset % 4 = 0 := by cases g <;> decide
  simp [locate, regionOf, hoff, Region.width, Region.base, Width.bytes]

/-- A register read that the busy lock does not hide gives the host the register (20_memory.md R72, R85). -/
theorem step_readReg {s : State} {rest : List Event} (g : Reg) (ha : s.agenda = .host (.read .b32 g.offset) :: rest)
    (hb : s.busy = false ∨ g.readableBusy = true) :
    step s = .next { s with agenda := rest, hostReads := s.readReg g :: s.hostReads } := by
  have hread : s.readUnit (g.offset / 4) .reg = s.readReg g := by simp [State.readUnit, regMap_getElem?]
  have hlock : readableBusy (g.offset / 4) .reg = g.readableBusy := by simp [readableBusy, regMap_getElem?]
  rw [step_read ha (locate_offset s g) (by rwa [hlock]), hread]

/-- A register write of an idle block does what the register's access says (10_state.md R22, 20_memory.md R72). -/
theorem step_writeReg {s : State} {rest : List Event} {v : Word} (g : Reg)
    (ha : s.agenda = .host (.write .b32 g.offset v) :: rest) (hb : s.busy = false) :
    step s = .next (({ s with agenda := rest } : State).writeReg v g) := by
  rw [step_write ha (locate_offset s g) hb]
  simp [State.writeUnit, regMap_getElem?]

/-- A unit of REG that holds register g is at the offset of g (10_state.md R22). -/
theorem eq_offset_of_locate {s : State} {w : Width} {off k : Nat} {g : Reg} (hl : locate s w off = .ok (.reg, k))
    (hg : regMap[k]? = some g) : off = g.offset := by
  obtain ⟨-, rfl, halign, rfl⟩ := locate_ok hl
  rw [← eq_of_regMap_getElem? hg]
  simp only [Region.width, Region.base, Width.bytes] at halign ⊢
  omega

/-- Settles O8: the busy lock does not hide the two constants. -/
theorem idAndVersionAreConstant : Obligations.IdAndVersionAreConstant := fun _ _ =>
  ⟨fun ha => step_readReg .id ha (.inr rfl), fun ha => step_readReg .version ha (.inr rfl)⟩

/-- Settles O9: the statement's list is the register map behind ID and VERSION, offset by offset with what it reads. -/
theorem registerMapReads : Obligations.RegisterMapReads := by
  intro s rest off v hb hmem ha
  have hmap : (off, v) ∈ (regMap.drop 2).map fun g => (g.offset, s.readReg g) := hmem
  obtain ⟨g, -, hg⟩ := List.mem_map.mp hmap
  cases hg
  exact step_readReg g ha (.inl hb)

/-- Settles O10: a write does one of five things (`writeUnit_cases`), and the registers and the buffer that store are at
the offsets the third clause leaves out. -/
theorem hostWritesReachOnlyWritableRegisters : Obligations.HostWritesReachOnlyWritableRegisters := by
  intro s rest v hb
  refine ⟨fun ha => step_writeReg .inLen ha hb, fun ha => step_writeReg .nbits ha hb, ?_⟩
  intro w off hmapped hoff hbyte hcap ha
  obtain ⟨⟨r, k⟩, hl⟩ := (locate_ok_iff_mapped s w off).mpr hmapped
  have elsewhere : ∀ g ∈ [Reg.cmd, .inLen, .nbits], r = .reg → regMap[k]? ≠ some g := by
    rintro g hg rfl hk
    exact hoff (eq_offset_of_locate hl hk ▸ List.mem_map_of_mem (f := Reg.offset) hg)
  rw [step_write ha hl hb]
  rcases writeUnit_cases { s with agenda := rest } k v r with h | ⟨hr, hk, -⟩ | ⟨hr, hk, -⟩ | ⟨hr, hk, -⟩ | ⟨rfl, -⟩
  · rw [h]
  · exact absurd hk (elsewhere .cmd (by decide) hr)
  · exact absurd hk (elsewhere .inLen (by decide) hr)
  · exact absurd hk (elsewhere .nbits (by decide) hr)
  · obtain ⟨hr, rfl, -⟩ := locate_ok hl
    have hlow := (regionOf_holds hr).2
    have hhigh := hbyte rfl
    simp only [Config.capMax] at hcap
    omega

/-! ## Reset -/

/-- Settles O17: the registers by definition, the two tables entry by entry. -/
theorem resetValues : Obligations.ResetValues := by
  have hcnt : ∀ b, State.reset.cnt b = 0 := fun _ => Vector.getElem_replicate _
  have hcode : ∀ b, State.reset.code b = [] := fun _ => Vector.getElem_replicate _
  exact ⟨rfl, rfl, rfl, rfl, rfl, rfl, rfl, rfl, rfl, rfl, rfl, rfl, rfl, rfl, rfl, rfl, hcnt, rfl, rfl, hcode⟩

/-! ## The registers a command writes -/

theorem destOf_eq_table_iff (i : Instr) : destOf i = .table ↔ i = .analyze := by cases i <;> simp [destOf]

theorem destOf_eq_tree_iff (i : Instr) : destOf i = .tree ↔ i ∈ [Instr.build, .deserialize] := by
  cases i <;> simp [destOf]

theorem destOf_eq_packed_iff (i : Instr) : destOf i = .packed ↔ i = .pack := by cases i <;> simp [destOf]

theorem destOf_eq_output_iff (i : Instr) : destOf i = .output ↔ i ∈ [Instr.decode, .serialize] := by
  cases i <;> simp [destOf]

/-- No command writes CMD, the operand registers and the capacities (10_state.md R23). -/
theorem Completes.hostRegisters {i : Instr} {s t : State} (h : Completes s i t) :
    t.cmd = s.cmd ∧ t.inLen = s.inLen ∧ t.nbits = s.nbits ∧ t.inCap = s.inCap ∧ t.outCap = s.outCap := by
  cases h with
  | failed e info =>
    obtain ⟨hcmd, hinLen, hnbits, hinCap, houtCap, -⟩ := raise_sameHostSide s (destOf i) e info
    exact ⟨hcmd, hinLen, hnbits, hinCap, houtCap⟩
  | _ => exact ⟨rfl, rfl, rfl, rfl, rfl⟩

/-- A command writes the result registers of its destination only, whether it fails or not (10_state.md R23). -/
theorem Completes.resultRegisters {i : Instr} {s t : State} (h : Completes s i t) :
    (destOf i ≠ .packed → destOf i ≠ .output → t.outLen = s.outLen) ∧ (destOf i ≠ .packed → t.bitLen = s.bitLen) ∧
      (destOf i ≠ .table → t.nsym = s.nsym) ∧ (destOf i ≠ .tree → t.root = s.root ∧ t.nnode = s.nnode) := by
  cases h with
  | failed e info =>
    obtain ⟨htable, htree, -, hbit, hout⟩ := raise_frame s (destOf i) e info
    exact ⟨fun hp ho => (hout hp ho).1, hbit, fun h => (htable h).1, fun h => ⟨(htree h).1, (htree h).2.1⟩⟩
  | _ => simp [destOf, State.succeed]

/-- Settles O54: what a completing command writes, with its destination read off the command. -/
theorem registersAreWrittenOnlyByTheirCommands : Obligations.RegistersAreWrittenOnlyByTheirCommands := by
  intro i s t h
  obtain ⟨hcmd, hinLen, hnbits, hinCap, houtCap⟩ := (exec_completes h).hostRegisters
  obtain ⟨hout, hbit, hnsym, htree⟩ := (exec_completes h).resultRegisters
  rw [ne_eq, destOf_eq_packed_iff] at hout hbit
  rw [ne_eq, destOf_eq_output_iff] at hout
  rw [ne_eq, destOf_eq_table_iff] at hnsym
  rw [ne_eq, destOf_eq_tree_iff] at htree
  have hout' : i ∉ [Instr.pack, .decode, .serialize] → t.outLen = s.outLen := fun hi =>
    hout (fun hpack => hi (hpack ▸ .head _)) fun hother => hi (.tail _ hother)
  exact ⟨hcmd, hinLen, hnbits, hinCap, houtCap, rfl, rfl, hout', hbit, hnsym, htree⟩

/-! ## What a command reads -/

/-- PACK's loop reads the codes and OUT_CAP (43_pack.md R185). -/
theorem packStream_congr {s t : State} (hcode : ∀ b, t.code b = s.code b) (hcap : t.outCap = s.outCap) (i len : Nat)
    (bs : List Byte) : packStream t i len bs = packStream s i len bs := by
  induction bs generalizing i len with
  | nil => rfl
  | cons b bs ih => simp only [packStream, hcode, hcap, ih]

/-- DECODE's loop for a leaf root reads that entry and OUT_CAP (44_decode.md R198). -/
theorem repeatLeaf_congr {s t : State} (hroot : t.node t.root.toNat = s.node s.root.toNat) (hcap : t.outCap = s.outCap)
    (n k : Nat) : repeatLeaf t n k = repeatLeaf s n k := by
  induction k generalizing n with
  | zero => rfl
  | succ k ih => simp only [repeatLeaf, hroot, hcap, ih]

/-- DECODE's walk of given bits reads the arena, ROOT and OUT_CAP (44_decode.md R197). -/
theorem walkBits_congr {s t : State} (htree : SameTree s t) (hcap : t.outCap = s.outCap) (j n : Nat) (cur : Idx)
    (bits : Bits) : walkBits t j n cur bits = walkBits s j n cur bits := by
  obtain ⟨hroot, -, hnode⟩ := htree
  have hmove : ∀ cur b, t.move cur b = s.move cur b := fun cur b => by rw [State.move, State.move, hnode]
  induction bits generalizing j n cur with
  | nil => rfl
  | cons b bs ih => simp only [walkBits, hmove, hroot, hnode, hcap, ih]

/-- DECODE's symbols come from the arena, ROOT, OUT_CAP, NBITS and the bits (44_decode.md R197). -/
theorem decodeSymbols_congr {s t : State} (htree : SameTree s t) (hcap : t.outCap = s.outCap) (hn : t.nbits = s.nbits)
    (hbits : t.inBits s.nbits.toNat = s.inBits s.nbits.toNat) : decodeSymbols t = decodeSymbols s := by
  have hwalk := walkBits_congr htree hcap
  obtain ⟨hroot, -, hnode⟩ := htree
  have hrepeat := repeatLeaf_congr (s := s) (t := t) (by rw [hroot, hnode]) hcap
  simp only [decodeSymbols, hrepeat, hwalk, hnode, hroot, hn, hbits]

/-- Settles O57: a completion overwrites all three registers, and every test and loop before it reads other fields. -/
theorem commandsDoNotReadStatusOrErrors : Obligations.CommandsDoNotReadStatusOrErrors := by
  intro i s st e info
  set t : State := { s with status := st, err := e, errInfo := info }
  cases i with
  | pack =>
    have hloop : packStream t 0 0 t.input = packStream s 0 0 s.input :=
      packStream_congr (s := s) (t := t) (fun _ => rfl) rfl 0 0 s.input
    simp only [exec, execPack, hloop]
    rfl
  | decode =>
    have hloop : decodeSymbols t = decodeSymbols s := decodeSymbols_congr ⟨rfl, rfl, fun _ => rfl⟩ rfl rfl rfl
    simp only [exec, execDecode, hloop]
    rfl
  | analyze | build | generate | serialize | deserialize | illegal => rfl

end Sys2Proof.Machine
end

section
/-!
SUPPORT. The host port (O6, O11 to O16): where an access goes and when it is refused, what the port does with a read and a
write of a busy block and with a write it discards, and what each window shows.
-/

namespace Sys2Proof.Machine

/-! ## Where an access goes -/

/-- An offset is answered by the region that holds it; of two overlapping buffers IN_BUF comes first (20_memory.md R73). -/
theorem regionOf_of_holds {s : State} {off : Nat} {r : Region} (hr : r ≠ .outBuf) (h : r.holds s off) :
    regionOf s off = some r := by
  cases r with
  | outBuf => exact absurd rfl hr
  | reg | ftCnt | ftOrd | node | ct | inBuf =>
    simp only [Region.holds] at h
    simp (disch := omega) only [regionOf, if_pos, if_neg]

/-- Unit k of a region is k units of its width behind its base (20_memory.md R73, R84). -/
theorem locate_unit {s : State} {off k : Nat} {r : Region} (hr : r ≠ .outBuf) (hoff : off = r.base + r.width.bytes * k)
    (h : r.holds s off) : locate s r.width off = .ok (r, k) := by
  have halign : off % r.width.bytes = 0 := by
    cases r <;> simp only [Region.base, Region.width, Width.bytes] at hoff ⊢ <;> omega
  have hunit : (off - r.base) / r.width.bytes = k := by
    cases r <;> simp only [Region.base, Region.width, Width.bytes] at hoff ⊢ <;> omega
  simp [locate, regionOf_of_holds hr h, halign, hunit]

theorem locate_ftCnt (s : State) {k : Nat} (hk : k < 256) : locate s .b32 (0x1000 + 4 * k) = .ok (.ftCnt, k) :=
  locate_unit (r := .ftCnt) (by decide) rfl ⟨by omega, by omega⟩

theorem locate_ftOrd (s : State) {k : Nat} (hk : k < 256) : locate s .b32 (0x1400 + 4 * k) = .ok (.ftOrd, k) :=
  locate_unit (r := .ftOrd) (by decide) rfl ⟨by omega, by omega⟩

/-- An arena entry is four words (20_memory.md R77). -/
theorem locate_node (s : State) {i w : Nat} (hi : i ≤ 510) (hw : w < 4) :
    locate s .b32 (0x2000 + 16 * i + 4 * w) = .ok (.node, 4 * i + w) :=
  locate_unit (r := .node) (by decide) (by simp only [Region.base, Region.width, Width.bytes]; omega)
    ⟨by omega, by omega⟩

/-- A code is sixteen words (20_memory.md R79). -/
theorem locate_ct (s : State) (b : Byte) {w : Nat} (hw : w < 16) :
    locate s .b32 (0x4000 + 64 * b.toNat + 4 * w) = .ok (.ct, 16 * b.toNat + w) :=
  locate_unit (r := .ct) (by decide) (by simp only [Region.base, Region.width, Width.bytes]; omega)
    ⟨by omega, by omega⟩

theorem locate_inBuf {s : State} {i : Nat} (hi : i < s.inCap.toNat) :
    locate s .b8 (0x20000000 + i) = .ok (.inBuf, i) :=
  locate_unit (r := .inBuf) (by decide) (by simp only [Region.base, Region.width, Width.bytes]; omega)
    ⟨by omega, by omega⟩

/-! ## Refused accesses -/

/-- The port refuses a read or a write exactly when the address map does not have it (20_memory.md R78). -/
theorem hostAccess_refused_iff {s : State} {op : HostOp} {w : Width} {off : Nat}
    (hop : op = .read w off ∨ ∃ v, op = .write w off v) :
    (∃ r, hostAccess s op = .refused r) ↔ ¬ Mapped s w off := by
  rw [← locate_ok_iff_mapped]
  cases hl : locate s w off with
  | error r => rcases hop with rfl | ⟨v, rfl⟩ <;> simp [hostAccess, hl]
  | ok p => rcases hop with rfl | ⟨v, rfl⟩ <;> simp only [hostAccess, hl] <;> split_ifs <;> simp

theorem step_refused_iff {s : State} {rest : List Event} {op : HostOp} {w : Width} {off : Nat}
    (ha : s.agenda = .host op :: rest) (hop : op = .read w off ∨ ∃ v, op = .write w off v) :
    (∃ r, step s = .refused r) ↔ ¬ Mapped s w off := by
  rw [step_of_agenda_cons ha]
  exact hostAccess_refused_iff (s := { s with agenda := rest }) hop

/-- Settles O12: neither a read nor a write looks at the busy lock before the address map has accepted it. -/
theorem refusedExactlyOutsideTheMap : Obligations.RefusedExactlyOutsideTheMap := fun _ _ _ _ v =>
  ⟨fun ha => step_refused_iff ha (.inl rfl), fun ha => step_refused_iff ha (.inr ⟨v, rfl⟩)⟩

/-! ## The busy lock -/

theorem hostAccess_write_of_busy {s : State} {w : Width} {off k : Nat} {v : Word} {r : Region}
    (hl : locate s w off = .ok (r, k)) (hb : s.busy = true) : hostAccess s (.write w off v) = .next s := by
  simp [hostAccess, hl, hb]

theorem hostAccess_read_hidden {s : State} {w : Width} {off k : Nat} {r : Region} (hl : locate s w off = .ok (r, k))
    (hb : s.busy = true) (hr : readableBusy k r = false) :
    hostAccess s (.read w off) = .next (s.deliver (s.hidden r)).drawn := by
  simp [hostAccess, hl, hb, hr]

/-- While BUSY a mapped write is discarded (20_memory.md R85). -/
theorem step_write_of_busy {s : State} {rest : List Event} {w : Width} {off k : Nat} {v : Word} {r : Region}
    (ha : s.agenda = .host (.write w off v) :: rest) (hl : locate s w off = .ok (r, k)) (hb : s.busy = true) :
    step s = .next { s with agenda := rest } := by
  rw [step_of_agenda_cons ha, takeEvent, hostAccess_write_of_busy (s := { s with agenda := rest }) hl hb]

/-- A read that the busy lock hides gives the host a fresh free value (20_memory.md R85, log 10). -/
theorem step_read_hidden {s : State} {rest : List Event} {w : Width} {off k : Nat} {r : Region}
    (ha : s.agenda = .host (.read w off) :: rest) (hl : locate s w off = .ok (r, k)) (hb : s.busy = true)
    (hr : readableBusy k r = false) :
    step s = .next { s with agenda := rest, hostReads := s.hidden r :: s.hostReads, draws := s.draws + 1 } := by
  have hhidden : ({ s with agenda := rest } : State).hidden r = s.hidden r := by cases r <;> rfl
  rw [step_of_agenda_cons ha, takeEvent, hostAccess_read_hidden (s := { s with agenda := rest }) hl hb hr, hhidden]
  rfl

/-- The reads the busy lock lets through are those of STATUS, ID, VERSION, IN_CAP and OUT_CAP (20_memory.md R85). -/
theorem offset_mem_of_readableBusy {s : State} {w : Width} {off k : Nat} {r : Region} (hl : locate s w off = .ok (r, k))
    (h : readableBusy k r = true) : w = .b32 ∧ off ∈ [0x0C, 0x00, 0x04, 0x34, 0x38] := by
  cases r with
  | reg =>
    obtain ⟨-, hw, -, -⟩ := locate_ok hl
    cases hg : regMap[k]? with
    | none => simp [readableBusy, hg] at h
    | some g =>
      have hreadable : g.readableBusy = true := by simpa [readableBusy, hg] using h
      refine ⟨hw, eq_offset_of_locate hl hg ▸ ?_⟩
      revert hreadable
      cases g <;> decide
  | ftCnt | ftOrd | node | ct | inBuf | outBuf => cases h

/-- Settles O6: the list of the second clause is the readable registers with their values, and any other mapped access is
a discarded write or a hidden read. -/
theorem busyLock : Obligations.BusyLock := by
  intro s rest hstatus
  have hb : s.busy = true := by rw [State.busy, hstatus]; decide
  have hreadable : ∀ g ∈ [Reg.status, .id, .version, .inCap, .outCap], g.readableBusy = true := by decide
  refine ⟨fun w off v hm ha => ?_, fun off v hmem ha => ?_, fun w off hm hoff ha => ?_⟩
  · obtain ⟨_, hl⟩ := (locate_ok_iff_mapped s w off).mpr hm
    exact step_write_of_busy ha hl hb
  · have hmap : (off, v) ∈ [Reg.status, .id, .version, .inCap, .outCap].map fun g => (g.offset, s.readReg g) := by
      rw [← hstatus] at hmem; exact hmem
    obtain ⟨g, hg, hpair⟩ := List.mem_map.mp hmap
    cases hpair
    exact step_readReg g ha (.inr (hreadable g hg))
  · obtain ⟨⟨r, k⟩, hl⟩ := (locate_ok_iff_mapped s w off).mpr hm
    have hhidden : readableBusy k r = false := by
      rw [← Bool.not_eq_true]
      intro h
      obtain ⟨rfl, hmem⟩ := offset_mem_of_readableBusy hl h
      exact hoff.elim Width.noConfusion fun h => h hmem
    exact ⟨_, step_read_hidden ha hl hb hhidden⟩

/-! ## Reads of an idle block -/

/-- What a unit holds does not depend on the model's record of the outside. -/
theorem readUnit_record (s : State) (a : List Event) (vs : List Word) (k : Nat) (r : Region) :
    ({ s with agenda := a, hostReads := vs } : State).readUnit k r = s.readUnit k r := by
  cases r <;> rfl

/-- Settles O16: the first read leaves every unit as it is, so the second finds the same value. -/
theorem readsAreIdempotentWhileIdle : Obligations.ReadsAreIdempotentWhileIdle := by
  intro s rest w off hb hm ha
  obtain ⟨⟨r, k⟩, hl⟩ := (locate_ok_iff_mapped s w off).mpr hm
  let t : State := { s with agenda := .host (.read w off) :: rest, hostReads := s.readUnit k r :: s.hostReads }
  have hagain : step t = .next { s with agenda := rest, hostReads := t.readUnit k r :: t.hostReads } :=
    step_read (s := t) rfl hl (.inl hb)
  have hsame : t.readUnit k r = s.readUnit k r := readUnit_record s _ _ k r
  rw [hsame] at hagain
  exact ⟨_, t, step_read ha hl (.inl hb), rfl, hagain⟩

/-! ## The input buffer -/

/-- The bytes of IN_BUF after a write of one of them (20_memory.md R72, R80). -/
theorem inByte_write (s : State) (i j : Nat) (b : Byte) :
    ({ s with inBuf := s.inBuf.write i b } : State).inByte j = if j = i then b else s.inByte j := by
  simp only [State.inByte, Memory.read_write]
  split_ifs <;> rfl

/-- Settles O11: the write reaches unit i of IN_BUF, whose byte the read then returns. -/
theorem bufWriteThenInReadReturnsTheByte : Obligations.BufWriteThenInReadReturnsTheByte := by
  intro s rest i b hb hi ha
  set t : State := { s with agenda := .host (.read .b8 (0x20000000 + i)) :: rest, inBuf := s.inBuf.write i b } with ht
  have hbyte : ∀ j, t.inByte j = if j = i then b else s.inByte j := fun j => inByte_write s i j b
  have hwrite : step s = .next t := by
    rw [step_write ha (locate_inBuf hi) hb]
    simp [State.writeUnit, ht]
  have hread : step t = .next { t with agenda := rest, hostReads := t.readUnit i .inBuf :: t.hostReads } :=
    step_read rfl (locate_inBuf (s := t) hi) (.inl hb)
  have hunit : t.readUnit i .inBuf = b.setWidth 32 := by simp [State.readUnit, hbyte]
  rw [hunit] at hread
  exact ⟨t, _, hwrite, by simp [hbyte], fun j hj => by simp [hbyte, hj], rfl, hread, rfl⟩

/-! ## The table windows -/

/-- An idle block discards a write to a table window (20_memory.md R76, R77, R79). -/
theorem step_write_discarded {s : State} {rest : List Event} {w : Width} {off k : Nat} {v : Word} {r : Region}
    (ha : s.agenda = .host (.write w off v) :: rest) (hl : locate s w off = .ok (r, k)) (hb : s.busy = false)
    (hr : r ∈ [Region.ftCnt, .ftOrd, .node, .ct]) : step s = .next { s with agenda := rest } := by
  rw [step_write ha hl hb]
  cases r with
  | ftCnt | ftOrd | node | ct => rfl
  | reg | inBuf | outBuf => exact absurd hr (by decide)

/-- Settles O13: the two windows show FT_CNT and FT_ORD unit by unit. -/
theorem frequencyWindows : Obligations.FrequencyWindows := by
  intro s rest k hb hk
  have hcnt := locate_ftCnt s hk
  have hord := locate_ftOrd s hk
  refine ⟨fun ha => step_read ha hcnt (.inl hb), fun ha => ?_, fun v off hoff ha => ?_⟩
  · refine ⟨s.ord k, fun c hc => ?_, step_read ha hord (.inl hb)⟩
    rw [State.ord, hc, Option.getD_some]
  · rcases hoff with rfl | rfl
    · exact step_write_discarded ha hcnt hb (by decide)
    · exact step_write_discarded ha hord hb (by decide)

theorem readUnit_node (s : State) (i : Nat) {w : Nat} (hw : w < 4) :
    s.readUnit (4 * i + w) .node = nodeWord (s.node i) w := by
  have hdiv : (4 * i + w) / 4 = i := by omega
  have hmod : (4 * i + w) % 4 = w := by omega
  rw [State.readUnit, hdiv, hmod]

/-- Word 1 of an entry: SYM in bits 7:0, LEAF in bit 8, zeros above (20_memory.md R77). -/
theorem nodeWord_one (n : Node) :
    (nodeWord n 1).extractLsb' 0 8 = n.sym ∧ (nodeWord n 1).getLsbD 8 = n.leaf ∧ (nodeWord n 1).extractLsb' 9 23 = 0 := by
  refine ⟨BitVec.eq_of_getLsbD_eq fun i hi => ?_, ?_, BitVec.eq_of_getLsbD_eq fun i hi => ?_⟩
  · simp [nodeWord, hi, show i < 32 by omega]
  · simp [nodeWord]
  · have hsym : n.sym.getLsbD (9 + i) = false := BitVec.getLsbD_of_ge _ _ (by omega)
    have hleaf : 9 + i - 8 ≠ 0 := by omega
    simp [nodeWord, hsym, hleaf]

/-- An index in a word: bits 8:0, zeros above (20_memory.md R77). -/
theorem setWidth_idx (i : Idx) :
    (i.setWidth 32).extractLsb' 0 9 = i ∧ (i.setWidth 32).extractLsb' 9 23 = 0 := by
  refine ⟨BitVec.eq_of_getLsbD_eq fun j hj => ?_, BitVec.eq_of_getLsbD_eq fun j hj => ?_⟩
  · simp [hj, show j < 32 by omega]
  · simp

theorem not_mapped_entry511 (s : State) {w : Nat} (hw : w < 4) : ¬ Mapped s .b32 (0x3FF0 + 4 * w) := by
  simp only [Mapped, reduceCtorEq, false_and, or_false, true_and]
  omega

/-- Settles O14: the window shows the four words of an entry (`nodeWord`), and entry 511 is outside the map. -/
theorem nodeWindow : Obligations.NodeWindow := by
  intro s rest i w hb hi hw
  have hl := locate_node s hi hw
  refine ⟨fun ha => ?_, fun v ha => step_write_discarded ha hl hb (by decide),
    fun ha => (step_refused_iff ha (.inl rfl)).mpr (not_mapped_entry511 s hw)⟩
  have hread := step_read ha hl (.inl hb)
  rw [readUnit_node s i hw] at hread
  refine ⟨s.node i, _, fun m hm => ?_, hread, ?_, ?_, ?_, ?_⟩
  · rw [State.node, hm, Option.getD_some]
  · rintro rfl; rfl
  · rintro rfl; exact nodeWord_one _
  · rintro rfl; exact setWidth_idx _
  · rintro rfl; exact setWidth_idx _

theorem readUnit_ct (s : State) (b : Byte) {w : Nat} (hw : w < 16) :
    s.readUnit (16 * b.toNat + w) .ct = s.codeWord b w := by
  have hdiv : (16 * b.toNat + w) / 16 = b.toNat := by omega
  have hmod : (16 * b.toNat + w) % 16 = w := by omega
  rw [State.readUnit, hdiv, hmod, BitVec.ofNat_toNat, BitVec.setWidth_eq]

/-- Word 0 of a code is LEN (20_memory.md R79). -/
theorem codeWord_zero {s : State} {b : Byte} (h : (s.code b).length ≤ Config.codeMax) :
    (s.codeWord b 0).toNat = (s.code b).length := by
  simp only [Config.codeMax] at h
  rw [State.codeWord, if_pos rfl, BitVec.toNat_setWidth_of_le (by decide), BitVec.toNat_ofNat, Nat.mod_eq_of_lt (by omega)]

/-- Code bit j is bit 31 - (j mod 32) of word 1 + (j div 32) (20_memory.md R79). -/
theorem codeWord_bit {s : State} {b : Byte} {j : Nat} (h : (s.code b).length ≤ Config.codeMax)
    (hj : j < (s.code b).length) : (s.code b)[j]? = some ((s.codeWord b (1 + j / 32)).getLsbD (31 - j % 32)) := by
  simp only [Config.codeMax] at h
  have hbit : s.codeBit b j = (s.code b)[j] := by
    rw [State.codeBit, List.getElem?_eq_getElem hj, Option.getD_some]
  have hplace : 32 * (1 + j / 32 - 1) + (31 - (31 - j % 32)) = j := by omega
  rw [State.codeWord, if_neg (by omega), if_pos (by omega), BitVec.getLsbD_eq_getElem (by omega), BitVec.getElem_ofFnLE,
    hplace, hbit, List.getElem?_eq_getElem hj]

/-- Words 9 to 15 of a code are 0 (20_memory.md R79). -/
theorem codeWord_of_nine_le (s : State) (b : Byte) {w : Nat} (hw : 9 ≤ w) : s.codeWord b w = 0 := by
  rw [State.codeWord, if_neg (by omega), if_neg (by omega)]

/-- Settles O15: the window shows the sixteen words of a code (`codeWord`). -/
theorem codeWindow : Obligations.CodeWindow := by
  intro s rest b w hb hlen hw
  have hl := locate_ct s b hw
  refine ⟨fun ha => ?_, fun v ha => step_write_discarded ha hl hb (by decide)⟩
  have hread := step_read ha hl (.inl hb)
  rw [readUnit_ct s b hw] at hread
  refine ⟨_, hread, ?_, ?_, codeWord_of_nine_le s b⟩
  · rintro rfl; exact codeWord_zero hlen
  · rintro j hj rfl; exact codeWord_bit hlen hj

end Sys2Proof.Machine
end

section
/-!
SUPPORT. The encoding of commands and their frames (O1, O2, O45, O51, O52, O53; 30_encoding.md R100 to R108): the decoder
and the encoder invert each other, a completing command leaves all but its destination, an ILLEGAL word clears nothing, and
DECODE uses no bit of IN_BUF at or beyond NBITS.
-/

namespace Sys2Proof

/-! ## The decoder and the encoder -/

/-- The command words are the words of the seven commands (30_encoding.md R101). -/
theorem commandWords_eq_map_encode :
    commandWords = [Instr.analyze, .build, .generate, .pack, .decode, .serialize, .deserialize].map encode := by decide

/-- The decoder gives back every well-formed command from its word (30_encoding.md R101, R103, R104). -/
theorem decode_encode (i : Instr) (h : i.wf = true) : decode (encode i) = i := by
  cases i with
  | analyze => exact Laws.RoundTrip.analyze h
  | build => exact Laws.RoundTrip.build h
  | generate => exact Laws.RoundTrip.generate h
  | pack => exact Laws.RoundTrip.pack h
  | decode => exact Laws.RoundTrip.decode h
  | serialize => exact Laws.RoundTrip.serialize h
  | deserialize => exact Laws.RoundTrip.deserialize h
  | illegal word => exact Laws.RoundTrip.illegal word h

/-- Every word is the word of a command: one of the seven, or ILLEGAL of itself (30_encoding.md R101, R104). -/
theorem exists_encode_eq (w : Word) : ∃ i : Instr, i.wf = true ∧ encode i = w := by
  by_cases hw : w ∈ commandWords
  · rw [commandWords_eq_map_encode] at hw
    obtain ⟨i, hi, rfl⟩ := List.mem_map.mp hw
    have hwf : ∀ i ∈ [Instr.analyze, .build, .generate, .pack, .decode, .serialize, .deserialize], i.wf = true := by
      decide
    exact ⟨i, hwf i hi, rfl⟩
  · exact ⟨.illegal w, by simpa [Instr.wf] using hw, rfl⟩

/-- Settles O1: `decode_encode`, and the encoder reaches every word (`exists_encode_eq`). -/
theorem decodeEncodeAgree : Obligations.DecodeEncodeAgree := by
  refine ⟨decode_encode, fun w => ?_⟩
  obtain ⟨i, hwf, rfl⟩ := exists_encode_eq w
  rw [decode_encode i hwf]
  exact ⟨hwf, rfl⟩

/-- A word outside the range 1 to 7 of the command words is ILLEGAL (30_encoding.md R103, R104). -/
theorem decode_of_toNat_outside {w : Word} (h : w.toNat = 0 ∨ 8 ≤ w.toNat) : decode w = .illegal w := by
  have hrange : ∀ x ∈ commandWords, 1 ≤ x.toNat ∧ x.toNat ≤ 7 := by simp [commandWords]
  refine decode_of_not_mem fun hw => ?_
  have := hrange w hw
  omega

/-- Settles O2: the seven rows by evaluation, all other words by their value (`decode_of_toNat_outside`). -/
theorem commandWordsDecode : Obligations.CommandWordsDecode :=
  ⟨by decide, by decide, by decide, by decide, by decide, by decide, by decide, fun _ => decode_of_toNat_outside⟩

end Sys2Proof

namespace Sys2Proof.Machine

/-! ## What a completing command leaves unchanged -/

section Completes
variable {i : Instr} {s t : State}

/-- No command writes what the host writes (10_state.md R23, R43). -/
theorem Completes.sameHostSide (h : Completes s i t) : SameHostSide s t := by
  cases h with
  | failed e info => exact raise_sameHostSide s (destOf i) e info
  | _ => exact ⟨rfl, rfl, rfl, rfl, rfl, fun _ => rfl, rfl, rfl⟩

/-- Only ANALYZE writes the frequency table (40_analyze.md R141). -/
theorem Completes.sameTable (h : Completes s i t) (hd : destOf i ≠ .table) : SameTable s t := by
  cases h with
  | failed e info => exact (raise_frame s (destOf i) e info).1 hd
  | analyzed => exact absurd rfl hd
  | _ => exact ⟨rfl, fun _ => rfl, fun _ => rfl⟩

/-- Only BUILD and DESERIALIZE write the arena (41_build.md R152, 45_treecodec.md R221). -/
theorem Completes.sameTree (h : Completes s i t) (hd : destOf i ≠ .tree) : SameTree s t := by
  cases h with
  | failed e info => exact (raise_frame s (destOf i) e info).2.1 hd
  | built | deserializedNull | deserialized => exact absurd rfl hd
  | _ => exact ⟨rfl, rfl, fun _ => rfl⟩

/-- Only GENERATE writes the code table (42_generate.md R166). -/
theorem Completes.sameCodes (h : Completes s i t) (hd : destOf i ≠ .codes) : SameCodes s t := by
  cases h with
  | failed e info => exact (raise_frame s (destOf i) e info).2.2.1 hd
  | generated => exact absurd rfl hd
  | _ => exact fun _ => ⟨rfl, fun _ => rfl⟩

/-- Only PACK, DECODE and SERIALIZE write the output (43_pack.md R181, 44_decode.md R197, 45_treecodec.md R216). -/
theorem Completes.sameOutput (h : Completes s i t) (hp : destOf i ≠ .packed) (ho : destOf i ≠ .output) :
    SameOutput s t := by
  cases h with
  | failed e info => exact (raise_frame s (destOf i) e info).2.2.2.2 hp ho
  | packed => exact absurd rfl hp
  | decoded | serializedNull | serialized => exact absurd rfl ho
  | _ => exact ⟨rfl, fun _ => rfl⟩

/-- Only PACK writes BIT_LEN (10_state.md R33). -/
theorem Completes.bitLen_eq (h : Completes s i t) (hp : destOf i ≠ .packed) : t.bitLen = s.bitLen :=
  h.resultRegisters.2.1 hp

/-- The frame of a command whose destination is the tree (30_encoding.md R102). -/
theorem Completes.frame_of_tree (h : Completes s i t) (hd : destOf i = .tree) :
    SameHostSide s t ∧ SameTable s t ∧ SameCodes s t ∧ SameOutput s t ∧ t.bitLen = s.bitLen :=
  ⟨h.sameHostSide, h.sameTable (by simp [hd]), h.sameCodes (by simp [hd]),
    h.sameOutput (by simp [hd]) (by simp [hd]), h.bitLen_eq (by simp [hd])⟩

/-- The frame of a command whose destination is the output without BIT_LEN (30_encoding.md R102). -/
theorem Completes.frame_of_output (h : Completes s i t) (hd : destOf i = .output) :
    SameHostSide s t ∧ SameTable s t ∧ SameTree s t ∧ SameCodes s t ∧ t.bitLen = s.bitLen :=
  ⟨h.sameHostSide, h.sameTable (by simp [hd]), h.sameTree (by simp [hd]), h.sameCodes (by simp [hd]),
    h.bitLen_eq (by simp [hd])⟩

end Completes

/-- Settles O52: what is not a command's destination reads as before it completed. -/
theorem tableCommandsFrame : Obligations.TableCommandsFrame := by
  refine fun s t => ⟨fun h => ?_, fun h => ?_, fun h => ?_⟩
  · have hc := exec_completes h
    exact ⟨hc.sameHostSide, hc.sameTree (by decide), hc.sameCodes (by decide), hc.sameOutput (by decide) (by decide),
      hc.bitLen_eq (by decide)⟩
  · exact h.elim (fun h => (exec_completes h).frame_of_tree rfl) fun h => (exec_completes h).frame_of_tree rfl
  · have hc := exec_completes h
    exact ⟨hc.sameHostSide, hc.sameTable (by decide), hc.sameTree (by decide), hc.sameOutput (by decide) (by decide),
      hc.bitLen_eq (by decide)⟩

/-- Settles O53: the output is the only destination, and BIT_LEN goes with PACK's. -/
theorem outputCommandsFrame : Obligations.OutputCommandsFrame := by
  refine fun s t => ⟨fun h => ?_, fun h => ?_⟩
  · have hc := exec_completes h
    exact ⟨hc.sameHostSide, hc.sameTable (by decide), hc.sameTree (by decide), hc.sameCodes (by decide)⟩
  · exact h.elim (fun h => (exec_completes h).frame_of_output rfl) fun h => (exec_completes h).frame_of_output rfl

/-! ## ILLEGAL -/

/-- ILLEGAL reports its word and clears nothing (30_encoding.md R104). -/
theorem exec_illegal (w : Word) (s : State) :
    exec (.illegal w) s = .next { s with status := 6, err := 6, errInfo := w } := rfl

/-- Settles O51: the write stores the word in CMD and starts the block, and the engine's turn runs what CMD spells. -/
theorem illegalCommandWord : Obligations.IllegalCommandWord := by
  refine fun s w => ⟨exec_illegal w s, fun hw => ⟨decode_of_toNat_outside hw, fun later hb ha => ?_⟩⟩
  refine ⟨_, step_writeReg .cmd ha hb, ?_⟩
  rw [step_of_agenda_cons (e := .engine) (rest := later) rfl]
  calc engineTurn (({ s with agenda := later } : State).start w)
      = exec (decode w) (({ s with agenda := later } : State).start w) := engineTurn_of_busy (start_flags _ w).1
    _ = .next { s with agenda := later, cmd := w, status := 6, err := 6, errInfo := w } := by
      rw [decode_of_toNat_outside hw, exec_illegal]; rfl

/-! ## What DECODE reads of IN_BUF -/

/-- Settles O45: DECODE reads IN_BUF through the first NBITS bits only, so both runs get the same symbols or the same
error, and take the same branch of every test. -/
theorem decodeIgnoresPadBits : Obligations.DecodeIgnoresPadBits := by
  intro s buf fill hbits t t' ht ht'
  set s' : State := { s with inBuf := buf, inFill := fill }
  have hinBits : s'.inBits s.nbits.toNat = s.inBits s.nbits.toNat :=
    List.map_congr_left fun j hj => hbits j (List.mem_range.mp hj)
  have hsymbols : decodeSymbols s' = decodeSymbols s := decodeSymbols_congr ⟨rfl, rfl, fun _ => rfl⟩ rfl rfl hinBits
  have hbad : s'.inLenBad = s.inLenBad := rfl
  have hnone : s'.noTree = s.noTree := rfl
  have hinLen : s'.inLen = s.inLen := rfl
  have hnbits : s'.nbits = s.nbits := rfl
  simp only [exec, execDecode, hsymbols, hbad, hnone, hinLen, hnbits] at ht ht'
  split_ifs at ht ht'
  · cases ht; cases ht'; rfl
  · cases ht; cases ht'; rfl
  · cases ht; cases ht'; rfl
  · cases hout : decodeSymbols s with
    | error e => rw [hout] at ht ht'; cases ht; cases ht'; rfl
    | ok out => rw [hout] at ht ht'; cases ht; cases ht'; rfl

end Sys2Proof.Machine
end

section
/-!
SUPPORT. ANALYZE (O27, O32; 40_analyze.md R141 to R143): its two outcomes, the numbers its table holds and the order of
its keys.
-/

namespace Sys2Proof.Machine

/-! ## The two outcomes -/

/-- ANALYZE of an IN_LEN beyond IN_CAP clears the table (60_exceptions.md R267, R271). -/
theorem exec_analyze_of_inLenBad {s : State} (h : s.inLenBad = true) :
    exec .analyze s = .next (s.raise .table .badOperand s.inLen) := by
  rw [exec, execAnalyze, if_pos h]

/-- ANALYZE of an IN_LEN within IN_CAP writes the table of the input (40_analyze.md R141). -/
theorem exec_analyze_of_fits {s : State} (h : s.inLenBad = false) :
    exec .analyze s = .next (s.setTable (analyzeBytes s.input).cnt (analyzeBytes s.input).ord).succeed := by
  rw [exec, execAnalyze, if_neg (by simp [h])]

/-! ## The table -/

/-- The count is the number of occurrences itself, as long as no count can wrap (40_analyze.md R142). -/
theorem toNat_analyzeBytes_cnt {input : List Byte} (h : input.length < 2 ^ 32) (b : Byte) :
    ((analyzeBytes input).cnt[b.toNat]'(b.isLt)).toNat = input.count b := by
  rw [analyzeBytes_cnt, BitVec.toNat_ofNat, Nat.mod_eq_of_lt (lt_of_le_of_lt List.count_le_length h)]

/-- A table that counts an input sums to the input's length. -/
theorem total_eq_length_of_cnt {s : State} {input : List Byte} (h : ∀ b, (s.cnt b).toNat = input.count b) :
    s.total = input.length := by
  rw [total_eq_sum_cnt]
  simp only [h]
  exact sum_count_eq_length nodup_allBytes fun b _ => mem_allBytes b

/-- Listing each element at its first occurrence puts them in the order of their first occurrences: an element that
appears at the end of the list for the first time is behind all others in both. -/
theorem pairwise_idxOf_firstOccurrences (l : List Byte) :
    l.reverse.dedup.reverse.Pairwise fun a b => l.idxOf a < l.idxOf b := by
  induction l using List.reverseRecOn with
  | nil => exact List.Pairwise.nil
  | append_singleton l c ih =>
    have hold : l.reverse.dedup.reverse.Pairwise fun a b => (l ++ [c]).idxOf a < (l ++ [c]).idxOf b := by
      refine ih.imp_of_mem fun {a b} ha hb hlt => ?_
      simp only [List.mem_reverse, List.mem_dedup] at ha hb
      rwa [List.idxOf_append_of_mem ha, List.idxOf_append_of_mem hb]
    rw [List.reverse_concat]
    by_cases hc : c ∈ l
    · rwa [List.dedup_cons_of_mem (by simpa using hc)]
    · rw [List.dedup_cons_of_notMem (by simpa using hc), List.reverse_cons, List.pairwise_append]
      refine ⟨hold, List.pairwise_singleton _ _, fun a ha b hb => ?_⟩
      obtain rfl := List.mem_singleton.mp hb
      simp only [List.mem_reverse, List.mem_dedup] at ha
      rw [List.idxOf_append_of_mem ha, List.idxOf_append_of_notMem hc]
      exact Nat.lt_add_right _ (List.idxOf_lt_length_of_mem ha)

/-- Settles O27: the counts are numbers of occurrences (`toNat_analyzeBytes_cnt`), the table is legal
(`setTable_analyzeBytes_tableInv`), and its keys are the first occurrences (`analyzeBytes_ord`). -/
theorem analyzeCountsTheInput : Obligations.AnalyzeCountsTheInput := by
  intro s _ hfits
  have hlen : s.input.length ≤ s.inCap.toNat := by rwa [length_input]
  have hlt : s.input.length < 2 ^ 32 := lt_of_le_of_lt hlen s.inCap.isLt
  set t := (s.setTable (analyzeBytes s.input).cnt (analyzeBytes s.input).ord).succeed
  have hcnt : ∀ b, (t.cnt b).toNat = s.input.count b := toNat_analyzeBytes_cnt hlt
  have hord : t.ftOrd = s.input.reverse.dedup.reverse := analyzeBytes_ord s.input hlt
  obtain ⟨-, hnsym, hnodup, -⟩ : t.TableInv := succeed_tableInv (setTable_analyzeBytes_tableInv hlen)
  refine ⟨t, exec_analyze_of_fits (by simpa [State.inLenBad] using hfits), ⟨rfl, rfl, rfl⟩, ?_, hcnt, fun b => ?_,
    hnsym, hnodup, fun b => ?_, ?_⟩
  · rw [total_eq_length_of_cnt hcnt, length_input]
  · rw [hcnt, List.one_le_count_iff]
  · rw [hord, List.mem_reverse, List.mem_dedup, List.mem_reverse]
  · rw [hord]
    exact pairwise_idxOf_firstOccurrences s.input

/-- Settles O32: IN_LEN and IN_CAP choose the outcome, and what it writes is made of the input and IN_LEN alone. -/
theorem analyzeIsAFunctionOfTheInput : Obligations.AnalyzeIsAFunctionOfTheInput := by
  intro s s' t t' hlen hcap hinput ht ht'
  have hbad : s'.inLenBad = s.inLenBad := by rw [State.inLenBad, State.inLenBad, hlen, hcap]
  cases h : s.inLenBad with
  | true =>
    rw [exec_analyze_of_inLenBad h] at ht
    rw [exec_analyze_of_inLenBad (hbad.trans h), ← hlen] at ht'
    cases ht; cases ht'
    exact ⟨rfl, rfl, rfl, rfl, rfl⟩
  | false =>
    rw [exec_analyze_of_fits h] at ht
    rw [exec_analyze_of_fits (hbad.trans h), ← hinput] at ht'
    cases ht; cases ht'
    exact ⟨rfl, rfl, rfl, rfl, rfl⟩

end Sys2Proof.Machine
end

section
/-!
SUPPORT. BUILD (O29, O30, O31, O33; 41_build.md R151 to R157): its two outcomes, the leaves it starts from, an invariant of
the merge loop over the finished arena, and the weights of the tree it leaves.
-/

namespace Sys2Proof.Machine

/-! ## The two outcomes -/

/-- BUILD of the empty table clears the tree (41_build.md R152, 60_exceptions.md R271). -/
theorem exec_build_of_empty {s : State} (h : s.nsym = 0) : exec .build s = .next (s.raise .tree .emptyInput 0) := by
  rw [exec, execBuild, if_pos h]

/-- The block after BUILD of a table with keys: it holds the arena made from the leaves, with the last entry as root
(41_build.md R152). -/
def State.built (s : State) : State :=
  (s.setTree (buildArena s.leafNodes) (BitVec.ofNat 9 ((buildArena s.leafNodes).length - 1))).succeed

/-- BUILD of a table with keys succeeds (41_build.md R152). -/
theorem exec_build_of_keys {s : State} (h : s.nsym ≠ 0) : exec .build s = .next s.built := by
  rw [exec, execBuild, if_neg h, State.built]

theorem exec_build {s : State} (hn : 1 ≤ s.nsym.toNat) : exec .build s = .next s.built :=
  exec_build_of_keys fun h => by simp [h] at hn

/-- Settles O29: the failing completion clears the tree, whatever was there (`raise_failed`). -/
theorem buildRejectsTheEmptyTable : Obligations.BuildRejectsTheEmptyTable := fun s h =>
  have ⟨hfailed, hroot, hnnode⟩ := raise_failed s .tree .emptyInput 0 (by decide)
  ⟨_, exec_build_of_empty h, hfailed, hroot, hnnode⟩

/-! ## The leaves -/

@[simp] theorem length_leafNodes (s : State) : s.leafNodes.length = s.nsym.toNat := by simp [State.leafNodes]

/-- The k-th leaf is the k-th key with its count (41_build.md R151). -/
theorem leafNodes_getElem? {s : State} {k : Nat} {b : Byte} (hk : k < s.nsym.toNat) (h : s.ftOrd[k]? = some b) :
    s.leafNodes[k]? = some (leafNode b (s.cnt b)) := by
  simp [State.leafNodes, State.ord, hk, h]

/-- The weights of the leaves sum to the sum of all counts: the symbols that are no keys count 0 (10_state.md R38). -/
theorem sum_w_leafNodes {s : State} (h : s.TableInv) : (s.leafNodes.map fun e => e.w.toNat).sum = s.total := by
  obtain ⟨-, hlen, hnd, hmem, -⟩ := h
  have hw : (s.leafNodes.map fun e => e.w.toNat) = s.ftOrd.map fun b => (s.cnt b).toNat := by
    refine List.ext_getElem (by simp [hlen]) fun k h₁ h₂ => ?_
    have hk : k < s.ftOrd.length := by simpa using h₂
    simp [State.leafNodes, State.ord, leafNode, hk]
  rw [hw, total_eq_sum_cnt, ← List.sum_toFinset _ hnd, ← List.sum_toFinset _ nodup_allBytes]
  refine Finset.sum_subset (fun b _ => List.mem_toFinset.mpr (mem_allBytes b)) fun b _ hb => ?_
  have hzero : s.cnt b = 0 := not_not.mp fun hne => hb (List.mem_toFinset.mpr ((hmem b).mpr hne))
  simp [hzero]

/-- A legal table has at most 256 keys. -/
theorem State.TableInv.nsym_le {s : State} (h : s.TableInv) : s.nsym.toNat ≤ 256 := by
  obtain ⟨-, hlen, hnd, -⟩ := h
  exact hlen ▸ length_le_of_nodup hnd

/-- BUILD keeps the leaves at the front of the arena (41_build.md R156). -/
theorem buildArena_eq {leaves : List Node} {m : Member} {ms : List Member} (h : forestOf leaves = m :: ms) :
    buildArena leaves = leaves ++ mergeForest ms.length leaves.length m ms := by
  simp only [buildArena, h]

theorem State.node_of_getElem? {t : State} {i : Nat} {e : Node} (h : t.nodes[i]? = some e) : t.node i = e := by
  rw [State.node, h, Option.getD_some]

/-! ## The merge loop -/

/-- Entry p was made from the entries a and b, the first and the second of the forest at that moment (41_build.md R152,
R153, R154). -/
def MadeFrom (t : State) (n p a b : Nat) : Prop :=
  InForest t n p a ∧ InForest t n p b ∧ a ≠ b ∧ (∀ i, InForest t n p i → NotAfter t a i) ∧
    (∀ i, InForest t n p i → i ≠ a → NotAfter t b i) ∧ (t.node p).w.toNat = (t.node a).w.toNat + (t.node b).w.toNat

/-- Entry p is internal and was made from its two children (41_build.md R152). -/
def Made (t : State) (n p : Nat) : Prop :=
  (t.node p).leaf = false ∧ MadeFrom t n p (t.node p).l.toNat (t.node p).r.toNat

/-- The merge loop's invariant, on the finished arena with n leaves and entry p the next to be made: the internal entries
before p are made as they should, and `ms` lists the forest at that moment, whose weights sum to `total`. -/
structure Merging (t : State) (n total p : Nat) (ms : List Member) : Prop where
  made : ∀ q, n ≤ q → q < p → Made t n q
  inForest_iff : ∀ i, InForest t n p i ↔ i ∈ ms.map Member.i
  weight : ∀ x ∈ ms, (t.node x.i).w = x.w
  nodup : (ms.map Member.i).Nodup
  sum_weights : (ms.map fun x => x.w.toNat).sum = total

section Merging
variable {t : State} {n total p : Nat} {ms : List Member}

theorem Made.children_lt (h : Made t n p) : (t.node p).l.toNat < p ∧ (t.node p).r.toNat < p := by
  obtain ⟨-, ha, hb, -⟩ := h
  exact ⟨ha.1, hb.1⟩

theorem Made.weight_eq (h : Made t n p) :
    (t.node p).w.toNat = (t.node (t.node p).l.toNat).w.toNat + (t.node (t.node p).r.toNat).w.toNat := by
  obtain ⟨-, -, -, -, -, -, hw⟩ := h
  exact hw

/-- Making entry p takes its two children out of the forest (41_build.md R152). -/
theorem inForest_succ_iff {i : Nat} (hn : n ≤ p) (hi : i < p) :
    InForest t n (p + 1) i ↔ InForest t n p i ∧ (t.node p).l.toNat ≠ i ∧ (t.node p).r.toNat ≠ i := by
  constructor
  · rintro ⟨-, h⟩
    exact ⟨⟨hi, fun q hq hqp => h q hq (by omega)⟩, h p hn (by omega)⟩
  · rintro ⟨⟨-, h⟩, hp⟩
    refine ⟨by omega, fun q hq hqp => ?_⟩
    rcases Nat.lt_succ_iff_lt_or_eq.mp hqp with hlt | rfl
    · exact h q hq hlt
    · exact hp

/-- The entry made last is in the forest: children have smaller indexes (41_build.md R156). -/
theorem inForest_last (h : ∀ q, n ≤ q → q < p + 1 → Made t n q) : InForest t n (p + 1) p := by
  refine ⟨Nat.lt_succ_self p, fun q hq hqp => ?_⟩
  have := (h q hq hqp).children_lt
  omega

/-- The order of members is the order of their entries (41_build.md R153). -/
theorem notAfter_of_not_before {a x : Member} (ha : (t.node a.i).w = a.w) (hx : (t.node x.i).w = x.w)
    (h : x.before a = false) : NotAfter t a.i x.i := by
  rw [Bool.eq_false_iff, ne_eq, before_iff] at h
  rw [NotAfter, ha, hx, BitVec.toNat_eq]
  omega

/-- The invariant is about the forest, not the order of its list. -/
theorem Merging.perm {ms' : List Member} (hp : ms.Perm ms') (h : Merging t n total p ms) : Merging t n total p ms' where
  made := h.made
  inForest_iff i := (h.inForest_iff i).trans (hp.map _).mem_iff
  weight x hx := h.weight x (hp.mem_iff.mpr hx)
  nodup := (hp.map _).nodup_iff.mp h.nodup
  sum_weights := (hp.map _).sum_eq.symm.trans h.sum_weights

/-- The members are in the forest. -/
theorem Merging.inForest (h : Merging t n total p ms) {x : Member} (hx : x ∈ ms) : InForest t n p x.i :=
  (h.inForest_iff x.i).mpr (List.mem_map_of_mem hx)

/-- The sum of two members' weights does not wrap when the forest's does not (00_scope.md R12). -/
theorem Merging.toNat_add {a b : Member} (h : Merging t n total p (a :: b :: ms)) (htotal : total < 2 ^ 32) :
    (a.w + b.w).toNat = a.w.toNat + b.w.toNat := by
  have hsum := h.sum_weights
  simp only [List.map_cons, List.sum_cons] at hsum
  rw [BitVec.toNat_add, Nat.mod_eq_of_lt (by omega)]

/-- The entries before p are made as they should, and entry p with them. -/
theorem Merging.made_upto (h : Merging t n total p ms) (hmade : Made t n p) : ∀ q, n ≤ q → q < p + 1 → Made t n q :=
  fun q hq hqp => (Nat.lt_succ_iff_lt_or_eq.mp hqp).elim (h.made q hq) (· ▸ hmade)

end Merging

/-! One turn of the loop: entry p is made from members a and b, the first and the second of the forest. -/

section Turn
variable {t : State} {n total p : Nat} {a b : Member} {ms : List Member} (h : Merging t n total p (a :: b :: ms))
  (hp : p ≤ 512) (hnode : t.node p = innerNode (a.w + b.w) a.i b.i)
include h hp hnode

/-- The indexes of the two members fit the fields of the entry. -/
theorem Merging.children_succ : (t.node p).l.toNat = a.i ∧ (t.node p).r.toNat = b.i := by
  have ha := (h.inForest (x := a) (by simp)).1
  have hb := (h.inForest (x := b) (by simp)).1
  simp only [hnode, innerNode, BitVec.toNat_ofNat]
  omega

/-- Entry p is made as it should. -/
theorem Merging.made_succ (htotal : total < 2 ^ 32) (ha : ∀ x ∈ a :: b :: ms, x.before a = false)
    (hb : ∀ x ∈ b :: ms, x.before b = false) : Made t n p := by
  obtain ⟨hl, hr⟩ := h.children_succ hp hnode
  have haw := h.weight a (by simp)
  have hbw := h.weight b (by simp)
  have hab : a.i ≠ b.i := fun he => by simpa [he] using h.nodup
  refine ⟨by rw [hnode, innerNode], ?_⟩
  rw [hl, hr]
  refine ⟨h.inForest (by simp), h.inForest (by simp), hab, fun i hi => ?_, fun i hi hia => ?_, ?_⟩
  · obtain ⟨x, hx, rfl⟩ := List.mem_map.mp ((h.inForest_iff i).mp hi)
    exact notAfter_of_not_before haw (h.weight x hx) (ha x hx)
  · obtain ⟨x, hx, rfl⟩ := List.mem_map.mp ((h.inForest_iff i).mp hi)
    have hxb : x ∈ b :: ms := (List.mem_cons.mp hx).resolve_left fun hxa => hia (hxa ▸ rfl)
    exact notAfter_of_not_before hbw (h.weight x hx) (hb x hxb)
  · rw [haw, hbw, hnode, innerNode, h.toNat_add htotal]

/-- After the turn the new entry is in the forest in place of its two children (41_build.md R152). -/
theorem Merging.inForest_iff_succ (hn : n ≤ p) (hmade : Made t n p) (i : Nat) :
    InForest t n (p + 1) i ↔ i ∈ p :: ms.map Member.i := by
  obtain ⟨hl, hr⟩ := h.children_succ hp hnode
  constructor
  · intro hi
    rcases Nat.lt_succ_iff_lt_or_eq.mp hi.1 with hlt | rfl
    · obtain ⟨hold, hna, hnb⟩ := (inForest_succ_iff hn hlt).mp hi
      have hmem := (h.inForest_iff i).mp hold
      rw [List.map_cons, List.map_cons, ← hl, ← hr] at hmem
      exact List.mem_cons_of_mem _
        (List.mem_of_ne_of_mem (Ne.symm hnb) (List.mem_of_ne_of_mem (Ne.symm hna) hmem))
    · exact List.mem_cons_self
  · intro hi
    rcases List.mem_cons.mp hi with rfl | hi
    · exact inForest_last (h.made_upto hmade)
    · have hold : InForest t n p i := (h.inForest_iff i).mpr (by simp [hi])
      have hnd := h.nodup
      simp only [List.map_cons, List.nodup_cons, List.mem_cons, not_or] at hnd
      obtain ⟨⟨-, hna⟩, hnb, -⟩ := hnd
      rw [inForest_succ_iff hn hold.1, hl, hr]
      exact ⟨hold, fun he => hna (he ▸ hi), fun he => hnb (he ▸ hi)⟩

/-- One turn of the merge loop keeps the invariant (41_build.md R152). -/
theorem Merging.succ (hn : n ≤ p) (htotal : total < 2 ^ 32) (ha : ∀ x ∈ a :: b :: ms, x.before a = false)
    (hb : ∀ x ∈ b :: ms, x.before b = false) : Merging t n total (p + 1) ({ w := a.w + b.w, i := p } :: ms) := by
  have hmade := h.made_succ hp hnode htotal ha hb
  refine ⟨h.made_upto hmade, h.inForest_iff_succ hp hnode hn hmade, fun x hx => ?_, ?_, ?_⟩
  · rcases List.mem_cons.mp hx with rfl | hx
    · rw [hnode, innerNode]
    · exact h.weight x (by simp [hx])
  · have hnd := h.nodup
    simp only [List.map_cons, List.nodup_cons] at hnd ⊢
    obtain ⟨-, -, hnd⟩ := hnd
    refine ⟨fun hmem => ?_, hnd⟩
    have hlt := ((h.inForest_iff p).mpr (by simp [hmem])).1
    exact absurd hlt (lt_irrefl p)
  · have hsum := h.sum_weights
    simp only [List.map_cons, List.sum_cons] at hsum ⊢
    rw [h.toNat_add htotal, ← hsum, Nat.add_assoc]

end Turn

section Loop
variable {t : State} {n total : Nat} (htotal : total < 2 ^ 32)

/-- The first forest meets the invariant: every leaf with its index (41_build.md R151). -/
theorem merging_forestOf {leaves more : List Node} (ht : t.nodes = leaves ++ more) :
    Merging t leaves.length ((leaves.map fun e => e.w.toNat).sum) leaves.length (forestOf leaves) where
  made q hq hqn := absurd hqn (Nat.not_lt.mpr hq)
  inForest_iff i := by
    rw [map_i_forestOf, List.mem_range]
    exact ⟨And.left, fun hi => ⟨hi, fun q hq hqn => absurd hqn (Nat.not_lt.mpr hq)⟩⟩
  weight x hx := by
    obtain ⟨i, hi, rfl⟩ := List.mem_mapIdx.mp hx
    rw [State.node_of_getElem? (i := i) (e := leaves[i])]
    rw [ht, List.getElem?_append_left hi, List.getElem?_eq_getElem hi]
  nodup := map_i_forestOf leaves ▸ List.nodup_range
  sum_weights := by
    refine congrArg List.sum (List.ext_getElem (by simp [forestOf]) fun i h₁ h₂ => ?_)
    simp [forestOf]

include htotal in
/-- The merge loop keeps the invariant until one member is left, when the arena holds what the loop makes from entry p
on (41_build.md R152). -/
theorem Merging.loop {p : Nat} {m : Member} {ms : List Member} (h : Merging t n total p (m :: ms)) (hn : n ≤ p)
    (hlen : p + ms.length ≤ 512) (hnodes : t.nodes.drop p = mergeForest ms.length p m ms) :
    ∃ last, Merging t n total (p + ms.length) [last] := by
  generalize hk : ms.length = k at hlen hnodes ⊢
  induction k generalizing p m ms with
  | zero => exact ⟨m, List.length_eq_zero_iff.mp hk ▸ h⟩
  | succ k ih =>
    have hlen₁ := (selectMin_perm m ms).length_eq
    simp only [List.length_cons, hk] at hlen₁
    obtain ⟨x, xs, hx⟩ := List.exists_cons_of_length_pos (l := (selectMin m ms).2) (by omega)
    have hlen₂ := (selectMin_perm x xs).length_eq
    simp only [hx, List.length_cons] at hlen₁ hlen₂
    have hperm := selectMin_twice_perm hx
    have hperm₂ := selectMin_perm x xs
    rw [mergeForest_succ k p hx] at hnodes
    have hnode := State.node_of_getElem? (t := t) (i := p) (by rw [← Nat.add_zero p, ← List.getElem?_drop, hnodes]; rfl)
    have hnext := (h.perm hperm.symm).succ (by omega) hnode hn htotal
      (fun y hy => selectMin_least m ms y (hperm.mem_iff.mp hy))
      fun y hy => selectMin_least x xs y (hperm₂.mem_iff.mp hy)
    obtain ⟨last, hlast⟩ := ih hnext (by omega) (by omega) (by omega) (by rw [← List.tail_drop, hnodes]; rfl)
    exact ⟨last, by rwa [Nat.add_assoc, Nat.add_comm 1] at hlast⟩

end Loop

/-! ## The finished arena -/

section Built
variable {s : State} (htable : s.TableInv) (hn : 1 ≤ s.nsym.toNat)

include hn in
/-- BUILD leaves the leaves and what the merge loop makes of their forest (41_build.md R151, R152). -/
theorem built_nodes : ∃ m ms, forestOf s.leafNodes = m :: ms ∧ ms.length + 1 = s.nsym.toNat ∧
    s.built.nodes = s.leafNodes ++ mergeForest ms.length s.nsym.toNat m ms := by
  have hlen := length_forestOf s.leafNodes
  rw [length_leafNodes] at hlen
  obtain ⟨m, ms, hm⟩ := List.exists_cons_of_length_pos (l := forestOf s.leafNodes) (by omega)
  refine ⟨m, ms, hm, by rw [← hlen, hm, List.length_cons], ?_⟩
  rw [← length_leafNodes s]
  exact buildArena_eq hm

include hn in
/-- The arena begins with the keys in insertion order, each with its count (41_build.md R151). -/
theorem built_leaf {k : Nat} {b : Byte} (hk : k < s.nsym.toNat) (hb : s.ftOrd[k]? = some b) :
    s.built.nodes[k]? = some (leafNode b (s.cnt b)) := by
  obtain ⟨m, ms, -, -, hnodes⟩ := built_nodes hn
  rw [hnodes, List.getElem?_append_left (by simpa using hk), leafNodes_getElem? hk hb]

include htable in
theorem nnode_built : s.built.nnode.toNat = 2 * s.nsym.toNat - 1 := by
  have := htable.nsym_le
  simp only [State.built, State.succeed, State.complete_nnode, State.setTree_nnode, length_buildArena,
    length_leafNodes, BitVec.toNat_ofNat]
  omega

include htable in
theorem root_built : s.built.root.toNat = 2 * s.nsym.toNat - 2 := by
  have := htable.nsym_le
  simp only [State.built, State.succeed, State.complete_root, State.setTree_root, length_buildArena,
    length_leafNodes, BitVec.toNat_ofNat]
  omega

include htable hn in
/-- The merge loop ends with one member (41_build.md R152). -/
theorem merging_built : ∃ last, Merging s.built s.nsym.toNat s.total (2 * s.nsym.toNat - 1) [last] := by
  obtain ⟨m, ms, hm, hlen, hnodes⟩ := built_nodes hn
  have hstart := merging_forestOf hnodes
  rw [hm, length_leafNodes, sum_w_leafNodes htable] at hstart
  have htotal : s.total < 2 ^ 32 := by
    obtain ⟨-, -, -, -, hle⟩ := htable
    exact lt_of_le_of_lt hle s.inCap.isLt
  have := htable.nsym_le
  obtain ⟨last, hlast⟩ := hstart.loop htotal (le_refl _) (by omega) (by
    rw [hnodes]
    exact List.drop_left' (length_leafNodes s))
  rw [show s.nsym.toNat + ms.length = 2 * s.nsym.toNat - 1 by omega] at hlast
  exact ⟨last, hlast⟩

include htable hn in
/-- Every internal entry of the arena is made as it should (41_build.md R152). -/
theorem made_built {p : Nat} (hp : s.nsym.toNat ≤ p) (hp' : p ≤ 2 * s.nsym.toNat - 2) : Made s.built s.nsym.toNat p := by
  obtain ⟨last, h⟩ := merging_built htable hn
  exact h.made p hp (by omega)

include htable hn in
/-- The one member left is the last entry: the root has the weight of the whole forest (41_build.md R156). -/
theorem root_weight_built : (s.built.node s.built.root.toNat).w.toNat = s.total := by
  obtain ⟨last, h⟩ := merging_built htable hn
  have hroot := root_built htable
  have hend : 2 * s.nsym.toNat - 1 = s.built.root.toNat + 1 := by omega
  rw [hend] at h
  have hmem := (h.inForest_iff _).mp (inForest_last h.made)
  rw [List.map_singleton, List.mem_singleton] at hmem
  rw [hmem, h.weight last (by simp), ← h.sum_weights]
  simp

end Built

/-! ## The weights of the tree -/

/-- A tree read from an arena whose leaves weigh at least 1 and whose internal entries weigh as much as their children
obeys the weight law, from its root's weight on (10_state.md R40 (d)). -/
theorem treeAt_weighted {t : State} (hleaf : ∀ i < t.nodes.length, (t.node i).leaf = true → 1 ≤ (t.node i).w.toNat)
    (hinner : ∀ i < t.nodes.length, (t.node i).leaf = false →
      (t.node i).w.toNat = (t.node (t.node i).l.toNat).w.toNat + (t.node (t.node i).r.toNat).w.toNat)
    {fuel : Nat} {i : Idx} {tree : Tree} (h : treeAt t.nodes fuel i = some tree) :
    tree.weight = (t.node i.toNat).w ∧ tree.Weighted := by
  induction fuel generalizing i tree with
  | zero => cases h
  | succ fuel ih =>
    simp only [treeAt] at h
    split at h
    · cases h
    next e he =>
      have hi := (List.getElem?_eq_some_iff.mp he).1
      obtain rfl := State.node_of_getElem? he
      split at h
      · next hl =>
        cases h
        exact ⟨rfl, hleaf _ hi hl⟩
      · next hl =>
        split at h <;> cases h
        next l r htl htr =>
          obtain ⟨hlw, hl'⟩ := ih htl
          obtain ⟨hrw, hr'⟩ := ih htr
          refine ⟨rfl, ?_, hl', hr'⟩
          rw [hlw, hrw]
          exact hinner _ hi (by simpa using hl)

section Weights
variable {s : State} (htable : s.TableInv) (hn : 1 ≤ s.nsym.toNat)
include htable hn

/-- BUILD's arena is legal (10_state.md R40). -/
theorem treeInv_built : s.built.TreeInv :=
  succeed_treeInv (setTree_buildArena_treeInv htable fun h => by simp [h] at hn)

/-- The entries of BUILD's arena: a key with its count, at least 1, or an internal entry (41_build.md R156). -/
theorem node_built_cases {i : Nat} (hi : i < s.built.nodes.length) :
    (∃ b, s.cnt b ≠ 0 ∧ s.built.node i = leafNode b (s.cnt b)) ∨ Made s.built s.nsym.toNat i := by
  have ⟨_, hlen, _, hmem, _⟩ := htable
  rcases Nat.lt_or_ge i s.nsym.toNat with hk | hk
  · have hk' : i < s.ftOrd.length := hlen ▸ hk
    exact .inl ⟨s.ftOrd[i], (hmem _).mp (List.getElem_mem hk'),
      State.node_of_getElem? (built_leaf hn hk (List.getElem?_eq_getElem hk'))⟩
  · have harena : s.built.nodes.length = 2 * s.nsym.toNat - 1 :=
      (length_buildArena s.leafNodes).trans (by rw [length_leafNodes])
    exact .inr (made_built htable hn hk (by omega))

/-- BUILD's tree obeys the weight law (10_state.md R40 (d)). -/
theorem exists_tree_built_weighted : ∃ tree, s.built.tree = some tree ∧ tree.Weighted := by
  obtain ⟨tree, htree⟩ : ∃ tree, s.built.tree = some tree := by
    rcases treeInv_built htable hn with ⟨-, hzero, -⟩ | ⟨-, -, -, -, -, tree, htree, -⟩
    · have := nnode_built htable
      simp only [hzero, BitVec.ofNat_eq_ofNat, BitVec.toNat_ofNat, Nat.zero_mod] at this
      omega
    · exact ⟨tree, htree⟩
  refine ⟨tree, htree, (treeAt_weighted (fun i hi hl => ?_) (fun i hi hl => ?_) htree).2⟩
  · rcases node_built_cases htable hn hi with ⟨b, hb, hnode⟩ | ⟨hinner, -⟩
    · rw [hnode]
      exact Nat.one_le_iff_ne_zero.mpr fun h => hb (BitVec.eq_of_toNat_eq h)
    · simp [hinner] at hl
  · rcases node_built_cases htable hn hi with ⟨b, -, hnode⟩ | hmade
    · simp [hnode, leafNode] at hl
    · exact hmade.weight_eq

end Weights

/-- Settles O31: the merge loop's invariant holds of the finished arena (`made_built`). -/
theorem buildMergesTheTwoLightest : Obligations.BuildMergesTheTwoLightest := fun s htable hn =>
  ⟨s.built, exec_build hn, succeed_succeeded _, fun _ hp hp' => (made_built htable hn hp hp').2⟩

/-- ANALYZE leaves a table that sums to the input's length (40_analyze.md R142). -/
theorem total_eq_inLen_of_analyze {r s : State} (hcaps : r.Caps) (hfits : r.inLen.toNat ≤ r.inCap.toNat)
    (h : exec .analyze r = .next s) : s.total = r.inLen.toNat := by
  obtain ⟨s', hs', -, htotal, -⟩ := analyzeCountsTheInput r hcaps hfits
  cases hs'.symm.trans h
  exact htotal

/-- Settles O30: the leaves stand at the front (`built_leaf`), the internal entries are made from smaller indexes
(`made_built`), the last member left is the root (`root_weight_built`), and the tree obeys the weight law. -/
theorem buildShape : Obligations.BuildShape := by
  intro s htable hn
  refine ⟨s.built, exec_build hn, succeed_succeeded _, nnode_built htable, root_built htable, fun k hk => ?_,
    fun p hp hp' => ?_, root_weight_built htable hn, treeInv_built htable hn, exists_tree_built_weighted htable hn,
    fun r => total_eq_inLen_of_analyze⟩
  · obtain ⟨-, hlen, -⟩ := htable
    have hb : s.ftOrd[k]? = some s.ftOrd[k] := List.getElem?_eq_getElem (hlen ▸ hk)
    exact ⟨_, hb, built_leaf hn hk hb⟩
  · have hmade := made_built htable hn hp hp'
    exact ⟨hmade.1, hmade.children_lt⟩

/-! ## What BUILD reads -/

/-- The leaves come from NSYM, the keys and their counts (41_build.md R157). -/
theorem leafNodes_congr {s s' : State} (hn : s.nsym = s'.nsym) (hord : ∀ k, k < s.nsym.toNat → s.ord k = s'.ord k)
    (hcnt : ∀ k, k < s.nsym.toNat → s.cnt (s.ord k) = s'.cnt (s'.ord k)) : s.leafNodes = s'.leafNodes := by
  rw [State.leafNodes, State.leafNodes, ← hn]
  refine List.map_congr_left fun k hk => ?_
  rw [List.mem_range] at hk
  rw [hcnt k hk, hord k hk]

/-- GENERATE reads the tree and ROOT (42_generate.md R166, R168). -/
theorem generate_ct_congr {t t' g g' : State} (hroot : t.root = t'.root) (htree : t.tree = t'.tree)
    (hg : exec .generate t = .next g) (hg' : exec .generate t' = .next g') : g.ct = g'.ct := by
  have hnone : t'.noTree = t.noTree := by rw [State.noTree, State.noTree, hroot]
  simp only [exec, execGenerate, hnone, ← htree] at hg hg'
  split_ifs at hg hg'
  · cases hg; cases hg'; rfl
  · cases h : t.tree with
    | none => rw [h] at hg; cases hg
    | some tree => rw [h] at hg hg'; cases hg; cases hg'; rfl

/-- ANALYZE's counts do not depend on the order of the input. -/
theorem analyzeBytes_cnt_perm {input input' : List Byte} (h : input.Perm input') :
    (analyzeBytes input).cnt = (analyzeBytes input').cnt := by
  refine Vector.ext fun i hi => ?_
  have hcnt := fun bs => analyzeBytes_cnt bs (BitVec.ofNat 8 i)
  simp only [BitVec.toNat_ofNat, Nat.mod_eq_of_lt (show i < 2 ^ 8 from hi)] at hcnt
  rw [hcnt, hcnt, h.count_eq]

/-- A block at reset but for the frequency table of an input. -/
def tableOf (input : List Byte) : State := State.reset.setTable (analyzeBytes input).cnt (analyzeBytes input).ord

/-- Settles O33: the two runs write what the same leaves make (`leafNodes_congr`), or clear the tree both; "ab" and "ba"
have equal counts, and BUILD puts the symbol that came first to the left. -/
theorem buildIsAFunctionOfTheOrderedTable : Obligations.BuildIsAFunctionOfTheOrderedTable := by
  refine ⟨fun s s' t t' hn hord hcnt ht ht' => ?_, tableOf [0x61, 0x62], tableOf [0x62, 0x61],
    (tableOf [0x61, 0x62]).built, (tableOf [0x62, 0x61]).built, setTable_analyzeBytes_tableInv (by decide),
    setTable_analyzeBytes_tableInv (by decide), analyzeBytes_cnt_perm (.swap _ _ _), exec_build (by decide),
    exec_build (by decide), by decide⟩
  by_cases h : s.nsym = 0
  · rw [exec_build_of_empty h] at ht
    rw [exec_build_of_empty (hn ▸ h)] at ht'
    cases ht; cases ht'
    exact ⟨rfl, rfl, rfl, rfl, rfl, rfl, fun g g' => generate_ct_congr rfl rfl⟩
  · rw [exec_build_of_keys h, State.built, leafNodes_congr hn hord hcnt] at ht
    rw [exec_build_of_keys (hn ▸ h)] at ht'
    cases ht; cases ht'
    exact ⟨rfl, rfl, rfl, rfl, rfl, rfl, fun g g' => generate_ct_congr rfl rfl⟩

end Sys2Proof.Machine
end

section
/-!
SUPPORT. GENERATE (O34, O35, O36; 42_generate.md R166 to R169): its two outcomes, the code table of a tree with distinct
symbols, and the bit sequences that start with a path to a leaf.
-/

namespace Sys2Proof

/-! ## The codes of a tree -/

theorem Tree.map_fst_walk (t : Tree) (code : Bits) : (t.walk code).map Prod.fst = t.syms := by
  induction t generalizing code with
  | leaf b w => rfl
  | node w l r ihl ihr => rw [Tree.walk, List.map_append, ihl, ihr, Tree.syms]

/-- One code a leaf, left to right (42_generate.md R166, R167). -/
theorem Tree.map_fst_codes (t : Tree) : t.codes.map Prod.fst = t.syms := by
  cases t with
  | leaf b w => rfl
  | node w l r => exact Tree.map_fst_walk _ _

/-- With an internal root the codes are the paths to the leaves (42_generate.md R169). -/
theorem Tree.mem_codes_iff_hasLeaf {t : Tree} (h : t.isLeaf = false) {b : Byte} {p : Bits} :
    (b, p) ∈ t.codes ↔ t.HasLeaf p b := by
  cases t with
  | leaf c w => cases h
  | node w l r => simp [Tree.codes, Machine.mem_walk_iff]

/-- No code is empty: the tree that is one leaf has the code "0" (42_generate.md R167). -/
theorem Tree.ne_nil_of_mem_codes {t : Tree} {b : Byte} {p : Bits} (h : (b, p) ∈ t.codes) : p ≠ [] := by
  cases t with
  | leaf c w =>
    simp only [Tree.codes, List.mem_singleton, Prod.mk.injEq] at h
    simp [h.2]
  | node w l r =>
    obtain ⟨v, hv⟩ := (Tree.mem_codes_iff_hasLeaf rfl).mp h
    rintro rfl
    simp [Tree.follow] at hv

/-! ## Bit sequences -/

/-- Every infinite bit sequence leads from the root to a leaf: its first bit chooses the child, the others lead on from
there (42_generate.md R169). -/
theorem Tree.exists_hasLeaf_of_seq (t : Tree) (f : Nat → Bool) :
    ∃ p b, t.HasLeaf p b ∧ p = (List.range p.length).map f := by
  induction t generalizing f with
  | leaf b w => exact ⟨[], b, ⟨w, rfl⟩, rfl⟩
  | node w l r ihl ihr =>
    obtain ⟨p, b, ⟨v, hv⟩, hp⟩ : ∃ p b, (if f 0 then r else l).HasLeaf p b ∧
        p = (List.range p.length).map (f ∘ Nat.succ) := by
      split
      · exact ihr _
      · exact ihl _
    refine ⟨f 0 :: p, b, ⟨v, ?_⟩, ?_⟩
    · rw [Tree.follow, ← hv, apply_ite fun t : Tree => t.follow p]
    · rw [List.length_cons, List.range_succ_eq_map, List.map_cons, List.map_map, ← hp]

/-- Of two beginnings of one sequence, one begins with the other. -/
theorem isPrefix_or_isPrefix_of_seq {f : Nat → Bool} {p q : Bits} (hp : p = (List.range p.length).map f)
    (hq : q = (List.range q.length).map f) : p <+: q ∨ q <+: p := by
  have hle : ∀ {m n : Nat}, m ≤ n → (List.range m).map f <+: (List.range n).map f := fun {m n} h => by
    rw [← Nat.min_eq_left h, ← List.take_range, List.map_take]
    exact List.take_prefix _ _
  rw [hp, hq]
  exact (Nat.le_total p.length q.length).imp hle hle

end Sys2Proof

namespace Sys2Proof.Machine

/-! ## The code table -/

/-- A code table has an entry for each symbol written, whatever was there before. -/
theorem foldl_setCode_mem {es : List (Byte × Bits)} (ct : Vector Bits 256) {b : Byte} (h : b ∈ es.map Prod.fst) :
    (b, (es.foldl setCode ct)[b.toNat]'(b.isLt)) ∈ es := by
  induction es generalizing ct with
  | nil => cases h
  | cons e es ih =>
    rw [List.foldl_cons]
    by_cases hb : b ∈ es.map Prod.fst
    · exact List.mem_cons_of_mem _ (ih _ hb)
    · obtain rfl : b = e.1 := (List.mem_cons.mp h).resolve_right hb
      rcases foldl_setCode es (setCode ct e) e.1 with hold | hnew
      · rw [hold]
        simp [setCode]
      · exact absurd (List.mem_map_of_mem hnew) hb

/-! ## The two outcomes -/

/-- GENERATE without a tree clears the code table (42_generate.md R168). -/
theorem exec_generate_of_noTree {s : State} (h : s.noTree = true) :
    exec .generate s = .next (s.raise .codes .corruptTree 0) := by
  rw [exec, execGenerate, if_pos h]

/-- The block after GENERATE of a tree (42_generate.md R166). -/
def State.generated (s : State) (t : Tree) : State := (s.setCodes (codeTable t)).succeed

/-- GENERATE of a tree succeeds (42_generate.md R166). -/
theorem exec_generate_of_tree {s : State} {t : Tree} (hn : s.noTree = false) (ht : s.tree = some t) :
    exec .generate s = .next (s.generated t) := by
  rw [exec, execGenerate, if_neg (by simp [hn]), ht, State.generated]

section Generated
variable (s : State) {t : Tree}

/-- With distinct symbols the code table after GENERATE is the list of codes (42_generate.md R166). -/
theorem mem_codes_iff_code (hnd : t.syms.Nodup) {b : Byte} {p : Bits} :
    (b, p) ∈ t.codes ↔ b ∈ t.syms ∧ (s.generated t).code b = p := by
  rw [← t.map_fst_codes] at hnd ⊢
  constructor
  · intro h
    have hb := List.mem_map_of_mem (f := Prod.fst) h
    exact ⟨hb, congrArg Prod.snd (List.inj_on_of_nodup_map hnd (foldl_setCode_mem noCodes hb) h rfl)⟩
  · rintro ⟨hb, rfl⟩
    exact foldl_setCode_mem noCodes hb

/-- A symbol has a code exactly if a leaf carries it (42_generate.md R169). -/
theorem code_ne_nil_iff (hnd : t.syms.Nodup) (b : Byte) : (s.generated t).code b ≠ [] ↔ b ∈ t.syms :=
  ⟨fun h => ((mem_codes_iff_code s hnd).mp (codeTable_mem_codes h)).1,
    fun h => Tree.ne_nil_of_mem_codes ((mem_codes_iff_code s hnd).mpr ⟨h, rfl⟩)⟩

/-- No code begins with the code of another symbol (42_generate.md R169). -/
theorem code_not_isPrefix {a b : Byte} (hab : a ≠ b) (ha : (s.generated t).code a ≠ [])
    (hb : (s.generated t).code b ≠ []) : ¬ (s.generated t).code a <+: (s.generated t).code b :=
  Tree.codes_prefixFree (codeTable_mem_codes ha) (codeTable_mem_codes hb) hab

end Generated

/-- A legal arena with a root holds a tree with distinct leaf symbols (10_state.md R40). -/
theorem State.TreeInv.nodup_syms {s : State} {t : Tree} (h : s.TreeInv) (hn : s.noTree = false)
    (ht : s.tree = some t) : t.syms.Nodup := by
  rcases h with ⟨hroot, -⟩ | ⟨-, -, -, -, -, t', ht', hnd, -⟩
  · simp [State.noTree, hroot] at hn
  · obtain rfl := Option.some.inj (ht.symm.trans ht')
    exact hnd

/-- Settles O34: the table lists the tree's codes (`mem_codes_iff_code`), which are the paths
(`Tree.mem_codes_iff_hasLeaf`); a sequence leads to a leaf (`Tree.exists_hasLeaf_of_seq`), and to no other because the
codes are prefix-free (`code_not_isPrefix`). -/
theorem generateRecordsThePaths : Obligations.GenerateRecordsThePaths := by
  intro s tree htree hn ht
  have hnd := htree.nodup_syms hn ht
  have hpath : tree.isLeaf = false → ∀ (b : Byte) (p : Bits),
      tree.HasLeaf p b ↔ b ∈ tree.syms ∧ (s.generated tree).code b = p := fun hleaf b p =>
    (Tree.mem_codes_iff_hasLeaf hleaf).symm.trans (mem_codes_iff_code s hnd)
  refine ⟨s.generated tree, exec_generate_of_tree hn ht, succeed_succeeded _, code_ne_nil_iff s hnd, hpath,
    fun _ _ => code_not_isPrefix s, fun hleaf f => ?_⟩
  obtain ⟨p, b, hp, hf⟩ := tree.exists_hasLeaf_of_seq f
  obtain ⟨hsym, rfl⟩ := (hpath hleaf b p).mp hp
  have hb := (code_ne_nil_iff s hnd b).mpr hsym
  refine ⟨b, hb, hf, fun c hc hcf => by_contra fun hcb => ?_⟩
  rcases isPrefix_or_isPrefix_of_seq hcf hf with h | h
  · exact code_not_isPrefix s hcb hc hb h
  · exact code_not_isPrefix s (Ne.symm hcb) hb hc h

/-- Settles O35: the one leaf's symbol alone has a code (`code_ne_nil_iff`), and its code is "0". -/
theorem generateSingleLeafCode : Obligations.GenerateSingleLeafCode := by
  intro s b w hn ht
  have hnd : (Tree.leaf b w).syms.Nodup := List.nodup_singleton b
  refine ⟨s.generated (.leaf b w), exec_generate_of_tree hn ht, succeed_succeeded _,
    ((mem_codes_iff_code s hnd).mp List.mem_cons_self).2, fun c hc => by_contra fun h => ?_⟩
  exact hc (List.mem_singleton.mp ((code_ne_nil_iff s hnd c).mp h))

/-- Settles O36: the failing completion clears the code table (`raise_failed`). -/
theorem generateNullRoot : Obligations.GenerateNullRoot := fun s h =>
  ⟨_, exec_generate_of_noTree (beq_iff_eq.mpr h), raise_failed s .codes .corruptTree 0 (by decide)⟩

end Sys2Proof.Machine
end

section
/-!
SUPPORT. PACK (O37, O38, O39; 43_pack.md R181 to R185): its three outcomes, the stream bits of a
packed output, and the first failing test of the symbol loop.
-/

namespace Sys2Proof.Machine

/-! ## The outcomes -/

/-- An IN_LEN within IN_CAP passes the test of 60_exceptions.md R267. -/
theorem inLenBad_eq_false {s : State} (h : s.inLen.toNat ≤ s.inCap.toNat) : s.inLenBad = false := by
  simpa [State.inLenBad] using h

/-- PACK of an IN_LEN beyond IN_CAP clears its output (60_exceptions.md R267, R271). -/
theorem exec_pack_of_inLenBad {s : State} (h : s.inLenBad = true) :
    exec .pack s = .next (s.raise .packed .badOperand s.inLen) := by
  rw [exec, execPack, if_pos h]

/-- PACK whose symbol loop fails clears its output (43_pack.md R181, 60_exceptions.md R271). -/
theorem exec_pack_of_error {s : State} {e : ErrCode} {i : Nat} (h : s.inLenBad = false)
    (he : packStream s 0 0 s.input = .error (e, i)) :
    exec .pack s = .next (s.raise .packed e (BitVec.ofNat 32 i)) := by
  rw [exec, execPack, if_neg (by simp [h]), he]

/-- The block after PACK of a stream (43_pack.md R181). -/
def State.packed (s : State) (stream : Bits) : State :=
  ((s.setBitLen stream.length).setOutput (packBits stream)).succeed

/-- PACK whose symbol loop makes a stream writes it (43_pack.md R181). -/
theorem exec_pack_of_stream {s : State} {stream : Bits} (h : s.inLenBad = false)
    (hp : packStream s 0 0 s.input = .ok stream) : exec .pack s = .next (s.packed stream) := by
  rw [exec, execPack, if_neg (by simp [h]), hp, State.packed]

/-! ## The stream bits of the output -/

/-- An output reads as the bytes written (10_state.md R44). -/
theorem outByte_setOutput {s : State} {bytes : List Byte} {k : Nat} {b : Byte} (h : bytes[k]? = some b) :
    (s.setOutput bytes).outByte k = b := by
  have hread := Memory.read_ofBytes 0 bytes k
  rw [Nat.zero_add, h] at hread
  rw [State.outByte, State.setOutput_outBuf, hread, Option.getD_some]

section Packed
variable (s : State) {stream : Bits}

/-- BIT_LEN is the length of the stream, which BIT_LEN can hold (43_pack.md R184). -/
theorem toNat_packed_bitLen (h : stream.length < 2 ^ 32) : (s.packed stream).bitLen.toNat = stream.length :=
  (BitVec.toNat_ofNat _ _).trans (Nat.mod_eq_of_lt h)

/-- OUT_LEN is the number of bytes of the stream (43_pack.md R184). -/
theorem toNat_packed_outLen (h : stream.length < 2 ^ 32) :
    (s.packed stream).outLen.toNat = (stream.length + 7) / 8 := by
  rw [← length_packBits]
  exact (setOutput_output (s.setBitLen stream.length) _ (by rw [length_packBits]; omega)).1

/-- Stream bit j of OUT_BUF: the stream, then zeros up to the end of the last byte (43_pack.md R184). -/
theorem streamBit_packed {j : Nat} (hj : j < 8 * ((stream.length + 7) / 8)) :
    ((s.packed stream).outByte (j / 8)).getLsbD (7 - j % 8) = (stream[j]?).getD false := by
  obtain ⟨b, hb, hbit⟩ := streamBit_packBits stream j hj
  have hbyte : (s.packed stream).outByte (j / 8) = b := outByte_setOutput hb
  rw [hbyte, ← hbit, streamBitOfByte]

end Packed

/-- Settles O37: the symbol loop makes the concatenation of the codes (`packStream_ok`), the capacities keep its length
within BIT_LEN, and the output shows its bits (`streamBit_packed`). -/
theorem packWritesTheBitstream : Obligations.PackWritesTheBitstream := by
  intro s hcaps hfits hcodes hlen
  obtain ⟨-, -, -, hcap⟩ := hcaps
  set stream := s.input.flatMap s.code
  have hlt : stream.length < 2 ^ 32 := by simp only [Config.capMax] at hcap; omega
  have hbits := toNat_packed_bitLen s hlt
  have hbytes := toNat_packed_outLen s hlt
  refine ⟨s.packed stream, exec_pack_of_stream (inLenBad_eq_false hfits)
      (packStream_ok s 0 0 s.input hcodes (by rwa [Nat.zero_add])), succeed_succeeded _, hbits, hbytes, fun j hj => ?_,
    fun j hj hj' => ?_⟩
  · rw [hbits] at hj
    rw [streamBit_packed s (by omega), List.getElem?_eq_getElem hj, Option.getD_some]
  · rw [hbits] at hj
    rw [hbytes] at hj'
    rw [streamBit_packed s hj', List.getElem?_eq_none hj, Option.getD_none]

/-! ## The first failing test -/

/-- A symbol without a code fails at its index, whether or not the output is full (43_pack.md R182, 60_exceptions.md
R272). -/
theorem packStream_of_no_code {s : State} {b : Byte} (h : s.code b = []) (i len : Nat) (bs : List Byte) :
    packStream s i len (b :: bs) = .error (.unknownSymbol, i) := by
  rw [packStream, if_pos (List.length_eq_zero_iff.mpr h)]

/-- A symbol whose code does not fit behind the bits already there fails at its index (43_pack.md R183). -/
theorem packStream_of_no_room {s : State} {b : Byte} {len : Nat} (h : s.code b ≠ [])
    (hl : 8 * s.outCap.toNat < len + (s.code b).length) (i : Nat) (bs : List Byte) :
    packStream s i len (b :: bs) = .error (.outOverflow, i) := by
  rw [packStream, if_neg fun h0 => h (List.length_eq_zero_iff.mp h0), if_pos hl]

/-- PACK fails as its loop fails from index i on, when the symbols before i have codes that fit (43_pack.md R181). -/
theorem exec_pack_fails_at {s : State} {i : Nat} {e : ErrCode} (hfits : s.inLen.toNat ≤ s.inCap.toNat)
    (hi : i ≤ s.input.length) (hcodes : ∀ c ∈ s.input.take i, s.code c ≠ [])
    (hlen : ((s.input.take i).flatMap s.code).length ≤ 8 * s.outCap.toNat)
    (he : packStream s i ((s.input.take i).flatMap s.code).length (s.input.drop i) = .error (e, i)) (hne : e ≠ .ok) :
    ∃ t, exec .pack s = .next t ∧ t.Failed e (BitVec.ofNat 32 i) ∧ t.outLen = 0 ∧ t.bitLen = 0 := by
  have hloop := packStream_append_error s 0 0 (s.input.take i) (s.input.drop i) (e, i) hcodes (by omega)
    (by rwa [List.length_take_of_le hi, Nat.zero_add, Nat.zero_add])
  rw [List.take_append_drop] at hloop
  obtain ⟨hfailed, hempty⟩ := raise_failed s .packed e (BitVec.ofNat 32 i) hne
  exact ⟨_, exec_pack_of_error (inLenBad_eq_false hfits) hloop, hfailed, hempty⟩

/-- Settles O38: the loop passes the symbols before index i (`exec_pack_fails_at`) and fails at i by the test for a code
or by the test for room. -/
theorem packReportsTheFirstFailure : Obligations.PackReportsTheFirstFailure := by
  intro s i b hfits hb hcodes hlen
  obtain ⟨hi, hget⟩ := List.getElem?_eq_some_iff.mp hb
  have hdrop : s.input.drop i = b :: s.input.drop (i + 1) := by rw [List.drop_eq_getElem_cons hi, hget]
  refine ⟨fun hnone => exec_pack_fails_at hfits hi.le hcodes hlen ?_ (by decide), fun hcode hroom =>
    exec_pack_fails_at hfits hi.le hcodes hlen ?_ (by decide)⟩
  · rw [hdrop, packStream_of_no_code hnone]
  · rw [hdrop, packStream_of_no_room hcode hroom]

/-! ## What PACK reads -/

/-- Settles O39: IN_LEN and IN_CAP choose whether the loop runs, the loop reads the input, the codes and OUT_CAP
(`packStream_congr`), and PACK writes what the loop answers. -/
theorem packDependsOnlyOnItsOperands : Obligations.PackDependsOnlyOnItsOperands := by
  intro s s' t t' hlen hcap hout hinput hct ht ht'
  have hbad : s'.inLenBad = s.inLenBad := by rw [State.inLenBad, State.inLenBad, hlen, hcap]
  have hloop : packStream s' 0 0 s'.input = packStream s 0 0 s.input := by
    rw [hinput, packStream_congr (fun b => by rw [State.code, State.code, hct]) hout.symm]
  cases h : s.inLenBad with
  | true =>
    rw [exec_pack_of_inLenBad h] at ht
    rw [exec_pack_of_inLenBad (hbad.trans h), ← hlen] at ht'
    cases ht; cases ht'
    exact ⟨rfl, rfl, rfl, rfl, rfl⟩
  | false =>
    cases hp : packStream s 0 0 s.input with
    | error e =>
      rw [exec_pack_of_error h hp] at ht
      rw [exec_pack_of_error (hbad.trans h) (hloop.trans hp)] at ht'
      cases ht; cases ht'
      exact ⟨rfl, rfl, rfl, rfl, rfl⟩
    | ok stream =>
      rw [exec_pack_of_stream h hp] at ht
      rw [exec_pack_of_stream (hbad.trans h) (hloop.trans hp)] at ht'
      cases ht; cases ht'
      exact ⟨rfl, rfl, rfl, rfl, rfl⟩

end Sys2Proof.Machine
end

section
/-!
SUPPORT. DECODE (O40 to O43; 44_decode.md R197 to R202) and the round trip through it (O58; R203): its outcomes, the tree
below an arena index, the walk of the bits along the paths of that tree, and what PACK made of an input as DECODE's operand.
-/

namespace Sys2Proof

/-! ## Paths -/

@[simp] theorem Tree.follow_nil (t : Tree) : t.follow [] = some t := by cases t <;> rfl

/-- Following a path goes down by its length. -/
theorem Tree.depth_follow {t u : Tree} {p : Bits} (h : t.follow p = some u) : u.depth + p.length ≤ t.depth := by
  induction p generalizing t with
  | nil =>
    rw [Tree.follow_nil, Option.some.injEq] at h
    simp [h]
  | cons b p ih =>
    cases t with
    | leaf a w => cases h
    | node w l r => cases b <;> have := ih h <;> simp only [List.length_cons, Tree.depth] <;> omega

/-- A path to an internal node starts at an internal node. -/
theorem Tree.isLeaf_of_follow {t u : Tree} {p : Bits} (h : t.follow p = some u) (hu : u.isLeaf = false) :
    t.isLeaf = false := by
  cases p with
  | nil =>
    rw [Tree.follow_nil, Option.some.injEq] at h
    rwa [h]
  | cons b p =>
    cases t with
    | leaf a w => cases h
    | node w l r => rfl

/-- A proper beginning of a leaf's path leads to an internal node. -/
theorem Tree.HasLeaf.exists_follow {t : Tree} {p q : Bits} {b : Byte} (h : t.HasLeaf (p ++ q) b) (hq : q ≠ []) :
    ∃ u, t.follow p = some u ∧ u.isLeaf = false ∧ u.HasLeaf q b := by
  obtain ⟨w, hw⟩ := h
  rw [Tree.follow_append, Option.bind_eq_some_iff] at hw
  obtain ⟨u, hu, hleaf⟩ := hw
  refine ⟨u, hu, ?_, w, hleaf⟩
  cases u with
  | leaf a v =>
    cases q with
    | nil => exact absurd rfl hq
    | cons c q => cases hleaf
  | node v l r => rfl

/-- The path to a leaf of an internal root is not empty. -/
theorem Tree.HasLeaf.ne_nil {t : Tree} {p : Bits} {b : Byte} (h : t.HasLeaf p b) (ht : t.isLeaf = false) : p ≠ [] := by
  rintro rfl
  obtain ⟨w, hw⟩ := h
  rw [Tree.follow_nil, Option.some.injEq] at hw
  rw [hw] at ht
  cases ht

end Sys2Proof

namespace Sys2Proof.Machine

/-! ## The outcomes -/

/-- DECODE of more bits than the buffer holds (44_decode.md R199 (a)). -/
theorem exec_decode_of_too_many_bits {s : State} (hfits : s.inLen.toNat ≤ s.inCap.toNat) (hn : s.noTree = false)
    (hbits : 8 * s.inLen.toNat < s.nbits.toNat) :
    exec .decode s = .next (s.raise .output .truncatedStream (BitVec.ofNat 32 (8 * s.inLen.toNat))) := by
  rw [exec, execDecode, if_neg (by simp [inLenBad_eq_false hfits]), if_neg (by simp [hn]), if_pos hbits]

/-- The block after DECODE of some symbols (44_decode.md R197). -/
def State.decoded (s : State) (out : List Byte) : State := (s.setOutput out).succeed

section Outcomes
variable {s : State} (hfits : s.inLen.toNat ≤ s.inCap.toNat) (hn : s.noTree = false)
  (hbits : s.nbits.toNat ≤ 8 * s.inLen.toNat)
include hfits hn hbits

/-- DECODE fails as its loops fail, and clears its output (44_decode.md R197, 60_exceptions.md R271). -/
theorem decode_fails {e : ErrCode} {j : Nat} (he : decodeSymbols s = .error (e, j)) (hne : e ≠ .ok) :
    ∃ t, exec .decode s = .next t ∧ t.Failed e (BitVec.ofNat 32 j) ∧ t.outLen = 0 := by
  refine ⟨_, ?_, raise_failed s .output e _ hne⟩
  rw [exec, execDecode, if_neg (by simp [inLenBad_eq_false hfits]), if_neg (by simp [hn]),
    if_neg (Nat.not_lt.mpr hbits), he]

/-- DECODE delivers the symbols its loops emit (44_decode.md R197). -/
theorem decode_delivers {out : List Byte} (ho : decodeSymbols s = .ok out) :
    exec .decode s = .next (s.decoded out) ∧ (s.decoded out).Succeeded ∧
      (s.decoded out).outLen.toNat = out.length ∧ (s.decoded out).output = out := by
  refine ⟨?_, succeed_succeeded _, setOutput_output s out (lt_of_le_of_lt (decodeSymbols_bound ho) s.outCap.isLt)⟩
  rw [exec, execDecode, if_neg (by simp [inLenBad_eq_false hfits]), if_neg (by simp [hn]),
    if_neg (Nat.not_lt.mpr hbits), ho, State.decoded]

end Outcomes

/-! ## The tree below an index -/

/-- The tree below arena index i, as the walk reads it: through `State.node` and `State.move` (44_decode.md R202). -/
inductive State.Below (s : State) : Idx → Tree → Prop
  | leaf {i : Idx} (h : (s.node i.toNat).leaf = true) : s.Below i (.leaf (s.node i.toNat).sym (s.node i.toNat).w)
  | node {i : Idx} {l r : Tree} (h : (s.node i.toNat).leaf = false) (hl : s.Below (s.move i false) l)
      (hr : s.Below (s.move i true) r) : s.Below i (.node (s.node i.toNat).w l r)

section Below
variable {s : State}

/-- The tree read from the arena at an index is below it (00_scope.md R11). -/
theorem below_of_treeAt {fuel : Nat} {i : Idx} {t : Tree} (h : treeAt s.nodes fuel i = some t) : s.Below i t := by
  induction fuel generalizing i t with
  | zero => cases h
  | succ fuel ih =>
    simp only [treeAt] at h
    split at h
    · cases h
    next e he =>
      obtain rfl := State.node_of_getElem? he
      split at h
      · next hleaf => cases h; exact .leaf hleaf
      · next hleaf =>
        split at h <;> cases h
        next l r hl hr => exact .node (by simpa using hleaf) (ih hl) (ih hr)

/-- One index has one tree below it. -/
theorem State.Below.unique {i : Idx} {t t' : Tree} (h : s.Below i t) (h' : s.Below i t') : t = t' := by
  induction h generalizing t' with
  | leaf hleaf =>
    cases h' with
    | leaf => rfl
    | node hinner => simp [hleaf] at hinner
  | node hinner _ _ ihl ihr =>
    cases h' with
    | leaf hleaf => simp [hleaf] at hinner
    | node _ hl hr => rw [ihl hl, ihr hr]

theorem State.Below.leaf_eq {i : Idx} {t : Tree} (h : s.Below i t) : (s.node i.toNat).leaf = t.isLeaf := by
  cases h with
  | leaf h | node h => exact h

theorem State.Below.leaf_sym {i : Idx} {b : Byte} {w : Word} (h : s.Below i (.leaf b w)) :
    (s.node i.toNat).leaf = true ∧ (s.node i.toNat).sym = b :=
  ⟨h.leaf_eq, by cases h; rfl⟩

/-- The moves along a path lead to the index of the subtree at its end (44_decode.md R202). -/
theorem State.Below.foldl_move {i : Idx} {t u : Tree} {p : Bits} (h : s.Below i t) (hu : t.follow p = some u) :
    s.Below (p.foldl s.move i) u := by
  induction p generalizing i t with
  | nil => rw [Tree.follow_nil, Option.some.injEq] at hu; exact hu ▸ h
  | cons b p ih =>
    cases h with
    | leaf => cases hu
    | node _ hl hr =>
      cases b
      · exact ih hl hu
      · exact ih hr hu

/-- A walk along a path that is not empty is at another index than before: the tree below is less deep. -/
theorem State.Below.foldl_move_ne {i : Idx} {t u : Tree} {p : Bits} (h : s.Below i t) (hu : t.follow p = some u)
    (hp : p ≠ []) : p.foldl s.move i ≠ i := by
  intro heq
  have hbelow := h.foldl_move hu
  rw [heq] at hbelow
  cases h.unique hbelow
  have := Tree.depth_follow hu
  have := List.length_pos_of_ne_nil hp
  omega

/-! ## The walk of the bits -/

/-- Bits that lead to an internal node emit nothing (44_decode.md R202). -/
theorem walkBits_path {cur : Idx} {t u : Tree} {p : Bits} (h : s.Below cur t) (hp : t.follow p = some u)
    (hu : u.isLeaf = false) (j n : Nat) (rest : Bits) :
    walkBits s j n cur (p ++ rest) = walkBits s (j + p.length) n (p.foldl s.move cur) rest := by
  induction p generalizing cur t j with
  | nil => rfl
  | cons b p ih =>
    obtain ⟨v, hv, hpv⟩ : ∃ v, t.follow [b] = some v ∧ v.follow p = some u :=
      Option.bind_eq_some_iff.mp (Tree.follow_append t [b] p ▸ hp)
    have hbelow : s.Below (s.move cur b) v := h.foldl_move hv
    have hinner : ¬ (s.node (s.move cur b).toNat).leaf = true := by
      simp [hbelow.leaf_eq, Tree.isLeaf_of_follow hpv hu]
    rw [List.cons_append, walkBits, if_neg hinner, ih hbelow hpv, List.length_cons, Nat.add_assoc, Nat.add_comm 1,
      List.foldl_cons]

/-- Symbols emitted before those that a walk emits. -/
def emitBefore (bs : List Byte) (w : Except (ErrCode × Nat) (List Byte × Idx)) :
    Except (ErrCode × Nat) (List Byte × Idx) :=
  w.map fun r => (bs ++ r.1, r.2)

@[simp] theorem emitBefore_ok (bs : List Byte) (r : List Byte × Idx) :
    emitBefore bs (.ok r) = .ok (bs ++ r.1, r.2) := rfl

@[simp] theorem emitBefore_error (bs : List Byte) (e : ErrCode × Nat) : emitBefore bs (.error e) = .error e := rfl

@[simp] theorem emitBefore_nil (w : Except (ErrCode × Nat) (List Byte × Idx)) : emitBefore [] w = w := by
  cases w <;> rfl

theorem emitBefore_emitBefore (bs cs : List Byte) (w : Except (ErrCode × Nat) (List Byte × Idx)) :
    emitBefore bs (emitBefore cs w) = emitBefore (bs ++ cs) w := by
  cases w <;> simp

section Root
variable {t : Tree} (h : s.Below s.root t) (ht : t.isLeaf = false)
include h ht

/-- The path of a leaf from an internal root emits the leaf's symbol at its last bit and is back at the root, or finds no
room for it there (44_decode.md R197). -/
theorem walkBits_code {p : Bits} {b : Byte} (hp : t.HasLeaf p b) (j n : Nat) (rest : Bits) :
    walkBits s j n s.root (p ++ rest) =
      if n = s.outCap.toNat then .error (.outOverflow, j + p.length - 1)
      else emitBefore [b] (walkBits s (j + p.length) (n + 1) s.root rest) := by
  obtain ⟨p, c, rfl⟩ := (List.eq_nil_or_concat p).resolve_left (hp.ne_nil ht)
  rw [List.concat_eq_append] at hp ⊢
  obtain ⟨u, hu, huleaf, w, hw⟩ := hp.exists_follow (List.cons_ne_nil c [])
  obtain ⟨hleaf, hsym⟩ := State.Below.leaf_sym ((h.foldl_move hu).foldl_move (p := [c]) hw)
  rw [List.foldl_cons, List.foldl_nil] at hleaf hsym
  rw [List.append_assoc, walkBits_path h hu huleaf, List.singleton_append, walkBits, if_pos hleaf,
    hsym, List.length_append, List.length_singleton, ← Nat.add_assoc, Nat.add_sub_cancel]
  split
  · rfl
  · split <;> next heq => rw [heq]; rfl

/-- Bits that begin with the paths of leaves emit the leaves' symbols and go on from the root (44_decode.md R197). -/
theorem walkBits_codes {xs : List (Byte × Bits)} (hxs : ∀ x ∈ xs, t.HasLeaf x.2 x.1) (j n : Nat) (rest : Bits)
    (hroom : n + xs.length ≤ s.outCap.toNat) :
    walkBits s j n s.root (xs.flatMap Prod.snd ++ rest) =
      emitBefore (xs.map Prod.fst)
        (walkBits s (j + (xs.flatMap Prod.snd).length) (n + xs.length) s.root rest) := by
  induction xs generalizing j n with
  | nil => simp
  | cons x xs ih =>
    rw [List.length_cons] at hroom
    rw [List.flatMap_cons, List.append_assoc, walkBits_code h ht (hxs x List.mem_cons_self), if_neg (by omega),
      ih (fun y hy => hxs y (List.mem_cons_of_mem x hy)) _ _ (by omega), emitBefore_emitBefore, List.length_append,
      List.length_cons, List.map_cons, List.singleton_append, Nat.add_assoc j, Nat.add_assoc n, Nat.add_comm 1]

/-- Paths of leaves in a row that fit decode to the leaves' symbols (44_decode.md R197). -/
theorem decodeSymbols_codes {xs : List (Byte × Bits)} (hxs : ∀ x ∈ xs, t.HasLeaf x.2 x.1)
    (hbits : s.inBits s.nbits.toNat = xs.flatMap Prod.snd) (hroom : xs.length ≤ s.outCap.toNat) :
    decodeSymbols s = .ok (xs.map Prod.fst) := by
  have hwalk := walkBits_codes h ht hxs 0 0 [] (by omega)
  rw [List.append_nil, ← hbits, walkBits] at hwalk
  simp [decodeSymbols, h.leaf_eq, ht, hwalk]

/-- Paths of leaves in a row that fit, then a proper beginning of a path, end off the root (44_decode.md R199 (b)). -/
theorem decodeSymbols_midPath {xs : List (Byte × Bits)} {p q : Bits} {b : Byte} (hxs : ∀ x ∈ xs, t.HasLeaf x.2 x.1)
    (hpq : t.HasLeaf (p ++ q) b) (hp : p ≠ []) (hq : q ≠ [])
    (hbits : s.inBits s.nbits.toNat = xs.flatMap Prod.snd ++ p) (hroom : xs.length ≤ s.outCap.toNat) :
    decodeSymbols s = .error (.truncatedStream, s.nbits.toNat) := by
  obtain ⟨u, hu, huleaf, -⟩ := hpq.exists_follow hq
  have hpath := walkBits_path h hu huleaf (0 + (xs.flatMap Prod.snd).length) (0 + xs.length) []
  have hwalk := walkBits_codes h ht hxs 0 0 p (by omega)
  rw [List.append_nil, walkBits] at hpath
  rw [hpath, ← hbits] at hwalk
  simp [decodeSymbols, h.leaf_eq, ht, hwalk, h.foldl_move_ne hu hp]

/-- The last bit of the path of leaf number OUT_CAP + 1 overflows (44_decode.md R197, 60_exceptions.md R263). -/
theorem decodeSymbols_overflow {xs : List (Byte × Bits)} {rest : Bits} (hxs : ∀ x ∈ xs, t.HasLeaf x.2 x.1)
    (hbits : s.inBits s.nbits.toNat = xs.flatMap Prod.snd ++ rest) (hlen : xs.length = s.outCap.toNat + 1) :
    decodeSymbols s = .error (.outOverflow, (xs.flatMap Prod.snd).length - 1) := by
  obtain ⟨ys, x, rfl⟩ := (List.eq_nil_or_concat xs).resolve_left (List.ne_nil_of_length_eq_add_one hlen)
  rw [List.concat_eq_append] at hxs hbits hlen ⊢
  rw [List.length_append, List.length_singleton, Nat.add_right_cancel_iff] at hlen
  have hwalk := walkBits_codes h ht (fun y hy => hxs y (List.mem_append_left _ hy)) 0 0 (x.2 ++ rest) (by omega)
  rw [walkBits_code h ht (hxs x (by simp)), if_pos (by omega)] at hwalk
  rw [List.flatMap_append, List.flatMap_singleton, List.append_assoc] at hbits
  rw [← hbits] at hwalk
  simp [decodeSymbols, h.leaf_eq, ht, hwalk]

end Root
end Below

/-! ## The statements about DECODE alone -/

theorem length_inBits (s : State) (n : Nat) : (s.inBits n).length = n := by simp [State.inBits]

/-- Settles O40: the walk emits the symbols (`decodeSymbols_codes`) and DECODE delivers them. -/
theorem decodeEmitsTheLeavesOnThePaths : Obligations.DecodeEmitsTheLeavesOnThePaths := by
  intro s tree xs _ hn htree hleaf hfits hnbits hxs hbits hroom
  have ⟨hexec, hok, hlen, hout⟩ :=
    decode_delivers hfits hn hnbits (decodeSymbols_codes (below_of_treeAt htree) hleaf hxs hbits hroom)
  exact ⟨_, hexec, hok, by rw [hlen, List.length_map], hout⟩

/-- Settles O41: the loop for a leaf root counts bits (`repeatLeaf_ok`) and stops at bit OUT_CAP (`repeatLeaf_error`). -/
theorem decodeSingleLeaf : Obligations.DecodeSingleLeaf := by
  intro s b w hn htree hfits hnbits
  obtain ⟨hleaf, hsym⟩ := State.Below.leaf_sym (below_of_treeAt htree)
  have hloop : decodeSymbols s = repeatLeaf s 0 s.nbits.toNat := by rw [decodeSymbols, if_pos hleaf]
  constructor
  · intro hroom
    rw [repeatLeaf_ok s 0 _ (by omega), hsym] at hloop
    have ⟨hexec, hok, hlen, hout⟩ := decode_delivers hfits hn hnbits hloop
    exact ⟨_, hexec, hok, BitVec.eq_of_toNat_eq (by rw [hlen, List.length_replicate]), hout⟩
  · intro hfull
    rw [repeatLeaf_error s 0 _ (Nat.zero_le _) (by omega)] at hloop
    simpa only [BitVec.ofNat_toNat, BitVec.setWidth_eq] using decode_fails hfits hn hnbits hloop (by decide)

/-- Settles O42: (a) is the test before the loops, whose detail ERR_INFO can hold; (b) is the test after them
(`decodeSymbols_midPath`). -/
theorem decodeTruncatedStream : Obligations.DecodeTruncatedStream := by
  constructor
  · intro s hn hfits hcap hbits
    have ⟨⟨hstatus, herr, hinfo⟩, hempty⟩ :=
      raise_failed s .output .truncatedStream (BitVec.ofNat 32 (8 * s.inLen.toNat)) (by decide)
    refine ⟨_, exec_decode_of_too_many_bits hfits hn hbits, hempty, hstatus, herr, ?_⟩
    rw [hinfo, BitVec.toNat_ofNat]
    simp only [Config.capMax] at hcap
    omega
  · intro s tree xs p q b _ hn htree hleaf hfits hnbits hxs hpq hp hq hbits hroom
    have hloop := decodeSymbols_midPath (below_of_treeAt htree) hleaf hxs hpq hp hq hbits hroom
    simpa only [BitVec.ofNat_toNat, BitVec.setWidth_eq] using decode_fails hfits hn hnbits hloop (by decide)

/-- Settles O43: the walk overflows at the last bit of the paths (`decodeSymbols_overflow`), an index below NBITS, which
ERR_INFO can hold. -/
theorem decodeOverflowAtTheCompletingBit : Obligations.DecodeOverflowAtTheCompletingBit := by
  intro s tree xs rest _ hn htree hleaf hfits hnbits hxs hbits hlen
  have hloop := decodeSymbols_overflow (below_of_treeAt htree) hleaf hxs hbits hlen
  obtain ⟨t, hexec, ⟨hstatus, herr, hinfo⟩, hempty⟩ := decode_fails hfits hn hnbits hloop (by decide)
  refine ⟨t, hexec, herr, hstatus, hempty, ?_⟩
  obtain ⟨x, xs, rfl⟩ := List.exists_cons_of_length_eq_add_one hlen
  have hpos := List.length_pos_of_ne_nil ((hxs x List.mem_cons_self).ne_nil hleaf)
  have htotal := congrArg List.length hbits
  rw [length_inBits, List.length_append] at htotal
  have := s.nbits.isLt
  rw [hinfo, BitVec.toNat_ofNat, List.flatMap_cons, List.length_append]
  rw [List.flatMap_cons, List.length_append] at htotal
  omega

/-! ## What the commands before DECODE leave -/

/-- A failing completion is no success (60_exceptions.md R269, R270). -/
theorem not_succeeded_raise {s : State} {d : Dest} {e : ErrCode} {info : Word} (he : e ≠ .ok) :
    ¬ (s.raise d e info).Succeeded := fun ⟨_, herr, _⟩ => he ((code_eq_zero_iff e).mp herr)

/-- A GENERATE that succeeded has written the codes of the tree (42_generate.md R166). -/
theorem generate_succeeded {s t : State} (h : exec .generate s = .next t) (ht : t.Succeeded) :
    ∃ tree, s.tree = some tree ∧ t = s.generated tree := by
  cases exec_completes h with
  | failed e info _ he => exact absurd ht (not_succeeded_raise he)
  | generated tree _ htree => exact ⟨tree, htree, rfl⟩

/-- The symbol loop of PACK makes a stream only of symbols that have codes, and it is their codes in a row
(43_pack.md R181). -/
theorem packStream_eq_ok {s : State} {i len : Nat} {bs : List Byte} {stream : Bits}
    (h : packStream s i len bs = .ok stream) : (∀ b ∈ bs, s.code b ≠ []) ∧ stream = bs.flatMap s.code := by
  induction bs generalizing i len stream with
  | nil => cases h; exact ⟨by simp, rfl⟩
  | cons b bs ih =>
    simp only [packStream] at h
    split_ifs at h with hcode hfit
    split at h <;> cases h
    next rest hrest =>
      obtain ⟨hcodes, rfl⟩ := ih hrest
      exact ⟨List.forall_mem_cons.mpr ⟨fun h0 => hcode (by rw [h0]; rfl), hcodes⟩, List.flatMap_cons.symm⟩

/-- A PACK that succeeded has written the codes of its input in a row, which fit OUT_BUF (43_pack.md R181). -/
theorem pack_succeeded {s t : State} (h : exec .pack s = .next t) (ht : t.Succeeded) :
    t = s.packed (s.input.flatMap s.code) ∧ (∀ b ∈ s.input, s.code b ≠ []) ∧
      (s.input.flatMap s.code).length ≤ 8 * s.outCap.toNat := by
  cases exec_completes h with
  | failed e info _ he => exact absurd ht (not_succeeded_raise he)
  | packed stream _ hp =>
    have hfit := packStream_bound hp (Nat.zero_le _)
    obtain ⟨hcodes, rfl⟩ := packStream_eq_ok hp
    exact ⟨rfl, hcodes, by omega⟩

/-- A command leaves the input as it was (10_state.md R43). -/
theorem exec_input {i : Instr} {s t : State} (h : exec i s = .next t) : t.input = s.input := by
  obtain ⟨-, hlen, -, -, -, hbyte, -⟩ := (exec_completes h).sameHostSide
  rw [State.input, State.input, State.inBytes, State.inBytes, hlen, funext hbyte]

/-- A command leaves OUT_CAP as it was (10_state.md R36). -/
theorem exec_outCap {i : Instr} {s t : State} (h : exec i s = .next t) : t.outCap = s.outCap :=
  have ⟨_, _, _, _, hcap, _⟩ := (exec_completes h).sameHostSide
  hcap

theorem inByte_of_input {s : State} {k : Nat} {b : Byte} (h : s.input[k]? = some b) : s.inByte k = b := by
  obtain ⟨hk, rfl⟩ := List.getElem?_eq_some_iff.mp h
  simp [State.input, State.inBytes]

/-- A block whose input is a packed stream reads the stream's bits (44_decode.md R196, 43_pack.md R184). -/
theorem inBits_of_packBits {u : State} {stream : Bits} (h : u.input = packBits stream) :
    u.inBits stream.length = stream := by
  refine List.ext_getElem (length_inBits _ _) fun j _ hj => ?_
  obtain ⟨b, hb, hbit⟩ := streamBit_packBits stream j (by omega)
  rw [List.getElem?_eq_getElem hj, Option.getD_some] at hbit
  simp [State.inBits, State.inBit, inByte_of_input (h ▸ hb), hbit]

/-- The output of PACK is the packed stream (43_pack.md R184). -/
theorem output_packed (s : State) {stream : Bits} (h : stream.length < 2 ^ 32) :
    (s.packed stream).output = packBits stream :=
  (setOutput_output (s.setBitLen stream.length) _ (by rw [length_packBits]; omega)).2

/-! ## The round trip -/

/-- DECODE of an input's codes in a row gives the input: with an internal root the codes are paths (O40), with a leaf root
every code is one bit and every symbol the root's (O41). -/
theorem decode_codes {u : State} {tree : Tree} {input : List Byte} {code : Byte → Bits} (hinv : u.TreeInv)
    (hn : u.noTree = false) (htree : u.tree = some tree) (hfits : u.inLen.toNat ≤ u.inCap.toNat)
    (hnbits : u.nbits.toNat ≤ 8 * u.inLen.toNat) (hcodes : ∀ b ∈ input, (b, code b) ∈ tree.codes)
    (hbits : u.inBits u.nbits.toNat = input.flatMap code) (hroom : input.length ≤ u.outCap.toNat) :
    ∃ v, exec .decode u = .next v ∧ v.Succeeded ∧ v.outLen.toNat = input.length ∧ v.output = input := by
  cases tree with
  | leaf a w =>
    simp only [Tree.codes, List.mem_singleton, Prod.mk.injEq] at hcodes
    have hinput : input = List.replicate input.length a :=
      List.eq_replicate_iff.mpr ⟨rfl, fun b hb => (hcodes b hb).1⟩
    have hlen : u.nbits.toNat = input.length := by
      have hone : ∀ b ∈ input, (code b).length = 1 := fun b hb => by rw [(hcodes b hb).2, List.length_singleton]
      rw [← length_inBits u u.nbits.toNat, hbits, List.length_flatMap, List.map_congr_left hone]
      simp
    obtain ⟨v, hexec, hok, hout, hbytes⟩ := (decodeSingleLeaf u a w hn htree hfits hnbits).1 (hlen ▸ hroom)
    exact ⟨v, hexec, hok, by rw [hout, hlen], by rw [hbytes, hlen, ← hinput]⟩
  | node w l r =>
    have hpaths : ∀ x ∈ input.map fun b => (b, code b), (Tree.node w l r).HasLeaf x.2 x.1 := fun x hx => by
      obtain ⟨b, hb, rfl⟩ := List.mem_map.mp hx
      exact (Tree.mem_codes_iff_hasLeaf rfl).mp (hcodes b hb)
    obtain ⟨v, hexec, hok, hout, hbytes⟩ := decodeEmitsTheLeavesOnThePaths u _ _ hinv hn htree rfl hfits hnbits hpaths
      (by rw [hbits, List.flatMap_map]) (by rwa [List.length_map])
    exact ⟨v, hexec, hok, by rw [hout, List.length_map], by simp [hbytes, Function.comp_def]⟩

/-- Settles O58: PACK's success shows that every symbol of the input has a code, which is the tree's
(`codeTable_mem_codes`), and its output spells those codes in a row (`inBits_of_packBits`), which DECODE turns back
(`decode_codes`). -/
theorem packedInputDecodesToItself : Obligations.PackedInputDecodesToItself := by
  intro s t₁ t₂ t₃ t₄ u hcaps _ h₁ _ h₂ _ h₃ hok₃ h₄ hok₄ _ hinv hn htree hinLen hfits hinput hnbits hroom
  obtain ⟨tree, ht₂, rfl⟩ := generate_succeeded h₃ hok₃
  obtain ⟨rfl, hcodes, hlen⟩ := pack_succeeded h₄ hok₄
  have hin : (t₂.generated tree).input = s.input := by rw [exec_input h₃, exec_input h₂, exec_input h₁]
  have hcap : (t₂.generated tree).outCap = s.outCap := by rw [exec_outCap h₃, exec_outCap h₂, exec_outCap h₁]
  rw [hin] at hcodes hinLen hinput hnbits hlen
  set stream := s.input.flatMap (t₂.generated tree).code
  have hlt : stream.length < 2 ^ 32 := by
    obtain ⟨-, -, -, hmax⟩ := hcaps
    rw [hcap] at hlen
    simp only [Config.capMax] at hmax
    omega
  have hbitLen : u.nbits.toNat = stream.length := by rw [hnbits, toNat_packed_bitLen _ hlt]
  have hbyteLen : u.inLen.toNat = (stream.length + 7) / 8 := by rw [hinLen, toNat_packed_outLen _ hlt]
  rw [output_packed _ hlt] at hinput
  obtain ⟨v, hexec, hok, hout, hbytes⟩ := decode_codes (code := (t₂.generated tree).code) hinv hn (htree.trans ht₂)
    hfits (by omega) (fun b hb => codeTable_mem_codes (hcodes b hb)) (by rw [hbitLen, inBits_of_packBits hinput])
    (by rwa [length_input])
  exact ⟨v, hexec, hok, BitVec.eq_of_toNat_eq (by rw [hout, length_input]), hbytes⟩

end Sys2Proof.Machine
end

section
/-!
SUPPORT. SERIALIZE and DESERIALIZE (O46 to O50; 45_treecodec.md R216 to R226): the bytes DESERIALIZE accepts, the tree an
arena holds, the outcomes of both commands, the pre-order placement, and the reads of a tree that do not depend on it.
-/

namespace Sys2Proof

/-! ## The size of a tree -/

theorem Tree.depth_lt_size (t : Tree) : t.depth < t.size := by
  have := t.depth_lt_syms
  have := t.size_eq
  omega

/-- A tree with distinct leaf symbols fits the arena (00_scope.md R6, 10_state.md R40). -/
theorem Tree.size_le_nodeCap {t : Tree} (h : t.syms.Nodup) : t.size ≤ Config.nodeCap := by
  have := t.size_eq
  have := length_le_of_nodup h
  simp only [Config.nodeCap]
  omega

end Sys2Proof

namespace Sys2Proof.Machine

/-! ## The bytes of a tree -/

/-- DESERIALIZE accepts the serializations of the null tree and of the trees with distinct leaf symbols, and nothing else
(45_treecodec.md R221, R222). -/
theorem deserialBytes_eq_some_iff {bytes : List Byte} {ot : Option Tree} :
    deserialBytes bytes = some ot ↔ bytes = serialBytes ot ∧ (symsOf ot).Nodup := by
  constructor
  · intro h
    simp only [deserialBytes] at h
    split at h
    · next ot' p hp =>
      split_ifs at h with hrest
      cases h
      obtain ⟨hbytes, -, -, hseen, hnd⟩ := parseTree_sound _ _ _ _ hp (Nat.zero_le _) List.nodup_nil
      rw [hrest, List.append_nil] at hbytes
      rw [hseen, List.append_nil, List.nodup_reverse] at hnd
      exact ⟨hbytes, hnd⟩
    · cases h
  · rintro ⟨rfl, hnd⟩
    cases ot with
    | none => rfl
    | some t =>
      have hsize : t.size ≤ Config.nodeCap := Tree.size_le_nodeCap hnd
      have hdepth := t.depth_lt_size
      have hparse := parseTree_bytes t (Config.nodeCap + 1) { rest := t.bytes, cnt := 0, seen := [] } []
        (List.append_nil _).symm (by omega) (by simpa using hsize) (by rwa [List.append_nil])
      simp [deserialBytes, serialBytes, hparse]

/-- The serialization of a legal tree or of none fits every legal OUT_BUF (30_encoding.md R119). -/
theorem length_serialBytes_le {ot : Option Tree} (h : (symsOf ot).Nodup) :
    (serialBytes ot).length ≤ Config.capMin := by
  cases ot with
  | none => decide
  | some t => exact length_serialBytes_le_capMin (length_le_of_nodup h)

/-! ## The tree in the arena -/

/-- The block holds a tree, or none (10_state.md R40, 00_scope.md R11). -/
structure State.Holds (s : State) (ot : Option Tree) : Prop where
  noTree : s.noTree = ot.isNone
  tree : s.noTree = false → s.tree = ot

/-- A legal arena holds a tree with distinct leaf symbols, or none (10_state.md R40). -/
theorem State.TreeInv.exists_holds {s : State} (h : s.TreeInv) : ∃ ot, s.Holds ot ∧ (symsOf ot).Nodup := by
  cases hn : s.noTree with
  | true => exact ⟨none, ⟨hn, fun h => by simp [hn] at h⟩, List.nodup_nil⟩
  | false =>
    rcases h with ⟨hroot, -⟩ | ⟨-, -, -, -, -, t, ht, hnd, -⟩
    · simp [State.noTree, hroot] at hn
    · exact ⟨some t, ⟨hn, fun _ => ht⟩, hnd⟩

/-! ## The outcomes -/

/-- The block after SERIALIZE of a tree or of none (45_treecodec.md R216, R217). -/
def State.serialized (s : State) (ot : Option Tree) : State := (s.setOutput (serialBytes ot)).succeed

/-- SERIALIZE of what the arena holds succeeds (45_treecodec.md R216). -/
theorem exec_serialize {s : State} {ot : Option Tree} (h : s.Holds ot) :
    exec .serialize s = .next (s.serialized ot) := by
  cases ot with
  | none =>
    have hn : s.noTree = true := h.noTree
    rw [exec, execSerialize, if_pos hn, State.serialized]
  | some t =>
    have hn : s.noTree = false := h.noTree
    rw [exec, execSerialize, if_neg (by simp [hn]), h.tree hn, State.serialized]

/-- The output of SERIALIZE is the serialization (45_treecodec.md R216). -/
theorem serialized_output (s : State) {ot : Option Tree} (h : (symsOf ot).Nodup) :
    (s.serialized ot).outLen.toNat = (serialBytes ot).length ∧ (s.serialized ot).output = serialBytes ot :=
  setOutput_output s _ (lt_of_le_of_lt (length_serialBytes_le h) (by decide))

/-- The block after an accepted DESERIALIZE of a tree or of the null tree (45_treecodec.md R223, R225). -/
def State.deserialized (s : State) : Option Tree → State
  | none => (s.setTree [] Config.nullIdx).succeed
  | some t => (s.setTree (layTree 0 t) 0).succeed

/-- DESERIALIZE accepts the bytes of a legal tree or of none (45_treecodec.md R221). -/
theorem exec_deserialize_of_serialBytes {s : State} {ot : Option Tree} (hfits : s.inLen.toNat ≤ s.inCap.toNat)
    (hbytes : s.input = serialBytes ot) (hnd : (symsOf ot).Nodup) :
    exec .deserialize s = .next (s.deserialized ot) := by
  have hparse := deserialBytes_eq_some_iff.mpr ⟨hbytes, hnd⟩
  cases ot <;> rw [exec, execDeserialize, if_neg (by simp [inLenBad_eq_false hfits]), hparse, State.deserialized]

/-- DESERIALIZE of other bytes clears the tree (45_treecodec.md R222, 60_exceptions.md R271). -/
theorem exec_deserialize_of_none {s : State} (hfits : s.inLen.toNat ≤ s.inCap.toNat)
    (h : deserialBytes s.input = none) : exec .deserialize s = .next (s.raise .tree .corruptTree 0) := by
  rw [exec, execDeserialize, if_neg (by simp [inLenBad_eq_false hfits]), h]

theorem deserialized_succeeded (s : State) (ot : Option Tree) : (s.deserialized ot).Succeeded := by
  cases ot <;> exact succeed_succeeded _

/-- An accepted DESERIALIZE leaves a legal arena (10_state.md R40). -/
theorem deserialized_treeInv (s : State) {ot : Option Tree} (h : (symsOf ot).Nodup) :
    (s.deserialized ot).TreeInv := by
  cases ot with
  | none => exact succeed_treeInv (treeInv_of_empty rfl rfl rfl)
  | some t => exact succeed_treeInv (setTree_layTree_treeInv s h)

/-- After an accepted DESERIALIZE the arena holds the tree (45_treecodec.md R223, R225). -/
theorem deserialized_holds (s : State) {ot : Option Tree} (h : (symsOf ot).Nodup) : (s.deserialized ot).Holds ot := by
  cases ot with
  | none => exact ⟨rfl, fun hn => by cases hn⟩
  | some t =>
    have hsize : t.size ≤ Config.nodeCap := Tree.size_le_nodeCap h
    exact ⟨rfl, fun _ => treeAt_layTree t (layTree 0 t) 0 Config.nodeCap (lt_of_lt_of_le t.depth_lt_size hsize)
      (by simp only [Config.nodeCap] at hsize; omega) fun k _ => by rw [Nat.zero_add]⟩

/-! ## The statements about the bytes -/

/-- Settles O48: the parser accepts exactly the serializations (`deserialBytes_eq_some_iff`), and an accepted tree is what
the arena holds (`deserialized_holds`). -/
theorem deserializeAcceptsExactlyTrees : Obligations.DeserializeAcceptsExactlyTrees := by
  intro s hfits
  refine ⟨fun tree hnd hbytes => ?_, fun hnull => ?_, fun hnull htrees => ?_⟩
  · have hholds := deserialized_holds s (ot := some tree) hnd
    exact ⟨_, exec_deserialize_of_serialBytes (ot := some tree) hfits hbytes hnd, deserialized_succeeded s _,
      hholds.noTree, hholds.tree hholds.noTree, deserialized_treeInv s hnd⟩
  · exact ⟨_, exec_deserialize_of_serialBytes (ot := none) hfits hnull List.nodup_nil, deserialized_succeeded s none,
      rfl, rfl⟩
  · have hnone : deserialBytes s.input = none := by
      cases h : deserialBytes s.input with
      | none => rfl
      | some ot =>
        obtain ⟨hbytes, hnd⟩ := deserialBytes_eq_some_iff.mp h
        cases ot with
        | none => exact absurd hbytes hnull
        | some tree => exact absurd hbytes (htrees tree hnd)
    exact ⟨_, exec_deserialize_of_none hfits hnone, raise_failed s .tree .corruptTree 0 (by decide)⟩

/-- Settles O50: SERIALIZE writes the serialization of what the arena holds, which DESERIALIZE turns back to the same tree
value in another arena (`deserialized_holds`), whose SERIALIZE writes the same again. -/
theorem treeRoundTrip : Obligations.TreeRoundTrip := by
  intro s _ htree
  obtain ⟨ot, hholds, hnd⟩ := htree.exists_holds
  obtain ⟨hlen, hout⟩ := serialized_output s hnd
  refine ⟨s.serialized ot, exec_serialize hholds, succeed_succeeded _, fun u hucaps hulen huinput => ?_⟩
  have hfits : u.inLen.toNat ≤ u.inCap.toNat := by
    rw [hulen, hlen]
    exact le_trans (length_serialBytes_le hnd) hucaps.1
  have hback := deserialized_holds u hnd
  have hsame : (u.deserialized ot).noTree = s.noTree := hback.noTree.trans hholds.noTree.symm
  exact ⟨_, exec_deserialize_of_serialBytes hfits (huinput.trans hout) hnd, deserialized_succeeded u ot,
    deserialized_treeInv u hnd, hsame, fun hn => (hback.tree (hsame.trans hn)).trans (hholds.tree hn).symm,
    _, exec_serialize hback, succeed_succeeded _, rfl, (serialized_output _ hnd).2.trans hout.symm⟩

/-- Settles O46: the output is the tree's bytes (`serialized_output`), counted by `Tree.length_bytes`. -/
theorem serializeWritesTheRecords : Obligations.SerializeWritesTheRecords := by
  rintro s tree ⟨-, -, hmin, -⟩ htree hn ht
  have hnd := htree.nodup_syms hn ht
  obtain ⟨hlen, hout⟩ := serialized_output s (ot := some tree) hnd
  have hfit := length_serialBytes_le (ot := some tree) hnd
  have hbytes := tree.length_bytes
  simp only [serialBytes] at hlen hfit
  refine ⟨s.serialized (some tree), exec_serialize ⟨hn, fun _ => ht⟩, succeed_succeeded _, hout, by omega, by omega,
    ?_, ?_⟩
  · rintro b w rfl
    rfl
  · rintro w l r rfl
    rfl

/-- Settles O47: the arena holds no tree, whose serialization is the one byte 00. -/
theorem serializeNullRoot : Obligations.SerializeNullRoot := by
  intro s hroot
  have hn : s.noTree = true := beq_iff_eq.mpr hroot
  exact ⟨s.serialized none, exec_serialize ⟨hn, fun h => by simp [hn] at h⟩, succeed_succeeded _, rfl,
    outByte_setOutput (bytes := serialBytes none) rfl⟩

/-! ## The placement -/

/-- From each entry on, a pre-order layout goes on with the layout of the subtree at that entry (45_treecodec.md R223). -/
theorem drop_layTree (t : Tree) (i : Nat) {k : Nat} (hk : k < t.size) :
    ∃ u rest, (layTree i t).drop k = layTree (i + k) u ++ rest := by
  induction t generalizing i k with
  | leaf b w =>
    obtain rfl : k = 0 := by simpa [Tree.size] using hk
    exact ⟨.leaf b w, [], (List.append_nil _).symm⟩
  | node w l r ihl ihr =>
    cases k with
    | zero => exact ⟨.node w l r, [], (List.append_nil _).symm⟩
    | succ k =>
      simp only [Tree.size] at hk
      rw [layTree, List.drop_succ_cons, List.drop_append, length_layTree]
      rcases Nat.lt_or_ge k l.size with hlt | hge
      · obtain ⟨u, rest, hu⟩ := ihl (i + 1) hlt
        refine ⟨u, rest ++ layTree (i + 1 + l.size) r, ?_⟩
        rw [hu, Nat.sub_eq_zero_of_le hlt.le, List.drop_zero, List.append_assoc, Nat.add_assoc i, Nat.add_comm 1]
      · obtain ⟨u, rest, hu⟩ := ihr (i + 1 + l.size) (k := k - l.size) (by omega)
        refine ⟨u, rest, ?_⟩
        rw [hu, List.drop_eq_nil_of_le (by simpa using hge), List.nil_append]
        congr 2
        omega

/-- An internal entry of a pre-order layout has its left subtree right behind it and its right subtree behind that
(45_treecodec.md R223). -/
theorem layTree_children {t : Tree} (hnd : t.syms.Nodup) {i : Nat} {e : Node} (he : (layTree 0 t)[i]? = some e)
    (hinner : e.leaf = false) :
    ∃ l, treeAt (layTree 0 t) Config.nodeCap e.l = some l ∧ e.l.toNat = i + 1 ∧ e.r.toNat = i + 1 + l.size := by
  have hi : i < t.size := by simpa using (List.getElem?_eq_some_iff.mp he).1
  obtain ⟨u, rest, hu⟩ := drop_layTree t 0 hi
  rw [Nat.zero_add] at hu
  have hentry : ∀ k, (layTree 0 t)[i + k]? = (layTree i u ++ rest)[k]? := fun k => by rw [← hu, List.getElem?_drop]
  have hhead := (hentry 0).symm.trans he
  cases u with
  | leaf b w =>
    obtain rfl := Option.some.inj hhead
    cases hinner
  | node w l r =>
    obtain rfl := Option.some.inj hhead
    have hsize := Tree.size_le_nodeCap hnd
    have hdepth := l.depth_lt_size
    have hlen := congrArg List.length hu
    simp only [List.length_drop, List.length_append, length_layTree, Tree.size] at hlen
    have hcap : Config.nodeCap = 511 := rfl
    refine ⟨l, treeAt_layTree l _ (i + 1) _ (by omega) (by omega) fun k hk => ?_, ?_, ?_⟩
    · rw [Nat.add_right_comm, Nat.add_assoc, hentry, layTree, List.cons_append, List.getElem?_cons_succ,
        List.append_assoc, List.getElem?_append_left (by simpa using hk)]
    · simp only [BitVec.toNat_ofNat]; omega
    · simp only [BitVec.toNat_ofNat]; omega

end Sys2Proof.Machine

namespace Sys2Proof

/-- From an internal root every bit string is the paths of leaves in a row and a path to an internal node. -/
theorem Tree.exists_paths_of_bits {t : Tree} (ht : t.isLeaf = false) (bits : Bits) :
    ∃ (xs : List (Byte × Bits)) (p : Bits) (u : Tree), bits = xs.flatMap Prod.snd ++ p ∧
      (∀ x ∈ xs, t.HasLeaf x.2 x.1) ∧ t.follow p = some u ∧ u.isLeaf = false := by
  induction bits using List.reverseRecOn with
  | nil => exact ⟨[], [], t, rfl, by simp, Tree.follow_nil t, ht⟩
  | append_singleton bits b ih =>
    obtain ⟨xs, p, u, rfl, hxs, hp, hu⟩ := ih
    obtain ⟨v, hv⟩ : ∃ v, u.follow [b] = some v := by
      cases u with
      | leaf => cases hu
      | node w l r => cases b <;> exact ⟨_, Tree.follow_nil _⟩
    have hpb : t.follow (p ++ [b]) = some v := by rw [Tree.follow_append, hp, Option.bind_some, hv]
    rw [List.append_assoc]
    cases v with
    | node w l r => exact ⟨xs, p ++ [b], _, rfl, hxs, hpb, rfl⟩
    | leaf a w =>
      refine ⟨xs ++ [(a, p ++ [b])], [], t, by simp, fun x hx => ?_, Tree.follow_nil t, ht⟩
      rcases List.mem_append.mp hx with hx | hx
      · exact hxs x hx
      · obtain rfl := List.mem_singleton.mp hx
        exact ⟨w, hpb⟩

/-- A path to an internal node is a proper beginning of a leaf's path. -/
theorem Tree.exists_hasLeaf_append {t u : Tree} {p : Bits} (hp : t.follow p = some u) (hu : u.isLeaf = false) :
    ∃ q b, q ≠ [] ∧ t.HasLeaf (p ++ q) b := by
  obtain ⟨q, b, hleaf, -⟩ := u.exists_hasLeaf_of_seq fun _ => false
  refine ⟨q, b, hleaf.ne_nil hu, ?_⟩
  obtain ⟨w, hw⟩ := hleaf
  exact ⟨w, by rw [Tree.follow_append, hp, Option.bind_some, hw]⟩

end Sys2Proof

namespace Sys2Proof.Machine

/-- DECODE's loops read the arena through the tree below ROOT only (45_treecodec.md R223): with a leaf root they emit its
symbol, and from an internal root the bits are paths, on which the walk emits, overflows or ends off the root. -/
theorem decodeSymbols_eq_of_below {s s' : State} {t : Tree} (h : s.Below s.root t) (h' : s'.Below s'.root t)
    (hcap : s'.outCap = s.outCap) (hn : s'.nbits = s.nbits)
    (hbits : s'.inBits s.nbits.toNat = s.inBits s.nbits.toNat) : decodeSymbols s' = decodeSymbols s := by
  cases t with
  | leaf b w =>
    obtain ⟨hleaf, hsym⟩ := h.leaf_sym
    obtain ⟨hleaf', hsym'⟩ := h'.leaf_sym
    rw [decodeSymbols, decodeSymbols, if_pos hleaf, if_pos hleaf', hn]
    rcases Nat.lt_or_ge s.outCap.toNat (0 + s.nbits.toNat) with hfull | hroom
    · rw [repeatLeaf_error s 0 _ (Nat.zero_le _) hfull, repeatLeaf_error s' 0 _ (Nat.zero_le _) (hcap ▸ hfull), hcap]
    · rw [repeatLeaf_ok s 0 _ hroom, repeatLeaf_ok s' 0 _ (hcap ▸ hroom), hsym, hsym']
  | node w l r =>
    obtain ⟨xs, p, u, hsplit, hxs, hp, hu⟩ :=
      Tree.exists_paths_of_bits (t := .node w l r) rfl (s.inBits s.nbits.toNat)
    have hsplit' : s'.inBits s'.nbits.toNat = xs.flatMap Prod.snd ++ p := by rw [hn, hbits, hsplit]
    rcases Nat.lt_or_ge s.outCap.toNat xs.length with hfull | hroom
    · have hover : xs.flatMap Prod.snd ++ p = (xs.take (s.outCap.toNat + 1)).flatMap Prod.snd ++
          ((xs.drop (s.outCap.toNat + 1)).flatMap Prod.snd ++ p) := by
        rw [← List.append_assoc, ← List.flatMap_append, List.take_append_drop]
      have hxs' : ∀ x ∈ xs.take (s.outCap.toNat + 1), (Tree.node w l r).HasLeaf x.2 x.1 := fun x hx =>
        hxs x (List.mem_of_mem_take hx)
      have hlen : (xs.take (s.outCap.toNat + 1)).length = s.outCap.toNat + 1 := by rw [List.length_take]; omega
      rw [decodeSymbols_overflow h rfl hxs' (hsplit.trans hover) hlen,
        decodeSymbols_overflow h' rfl hxs' (hsplit'.trans hover) (hcap ▸ hlen)]
    · by_cases hnil : p = []
      · subst hnil
        rw [List.append_nil] at hsplit hsplit'
        rw [decodeSymbols_codes h rfl hxs hsplit hroom, decodeSymbols_codes h' rfl hxs hsplit' (hcap ▸ hroom)]
      · obtain ⟨q, b, hq, hleaf⟩ := Tree.exists_hasLeaf_append hp hu
        rw [decodeSymbols_midPath h rfl hxs hleaf hnil hq hsplit hroom,
          decodeSymbols_midPath h' rfl hxs hleaf hnil hq hsplit' (hcap ▸ hroom), hn]

/-- The state with another arena: entries, ROOT, NNODE and the draw behind the entries not in use. -/
def State.withArena (s : State) (nodes : List Node) (root : Idx) (nnode : BitVec 10) (fill : Nat) : State :=
  { s with nodes := nodes, root := root, nnode := nnode, nodeFill := fill }

section Arena
variable {s : State} {nodes : List Node} {root : Idx} {nnode : BitVec 10} {fill : Nat} {ot : Option Tree}
  (h : s.Holds ot) (h' : (s.withArena nodes root nnode fill).Holds ot)
include h h'

/-- GENERATE writes the same for the same tree in another arena (45_treecodec.md R223). -/
theorem generate_withArena : ∃ t, exec .generate s = .next t ∧
    exec .generate (s.withArena nodes root nnode fill) = .next (t.withArena nodes root nnode fill) := by
  cases ot with
  | none => exact ⟨_, exec_generate_of_noTree h.noTree, exec_generate_of_noTree h'.noTree⟩
  | some t =>
    exact ⟨_, exec_generate_of_tree h.noTree (h.tree h.noTree), exec_generate_of_tree h'.noTree (h'.tree h'.noTree)⟩

/-- SERIALIZE writes the same for the same tree in another arena (45_treecodec.md R223). -/
theorem serialize_withArena : ∃ t, exec .serialize s = .next t ∧
    exec .serialize (s.withArena nodes root nnode fill) = .next (t.withArena nodes root nnode fill) :=
  ⟨_, exec_serialize h, exec_serialize h'⟩

/-- DECODE writes the same for the same tree in another arena (45_treecodec.md R223). -/
theorem decode_withArena : ∃ t, exec .decode s = .next t ∧
    exec .decode (s.withArena nodes root nnode fill) = .next (t.withArena nodes root nnode fill) := by
  set s' := s.withArena nodes root nnode fill
  have hbad : s'.inLenBad = s.inLenBad := rfl
  have hinLen : s'.inLen = s.inLen := rfl
  have hnbits : s'.nbits = s.nbits := rfl
  rw [exec, exec, execDecode, execDecode, h'.noTree, h.noTree, hbad, hinLen, hnbits]
  split_ifs with _ hnone
  · exact ⟨_, rfl, rfl⟩
  · exact ⟨_, rfl, rfl⟩
  · exact ⟨_, rfl, rfl⟩
  · obtain ⟨t, rfl⟩ : ∃ t, ot = some t := Option.ne_none_iff_exists'.mp (by simpa using hnone)
    have hsymbols : decodeSymbols s' = decodeSymbols s := decodeSymbols_eq_of_below
      (below_of_treeAt (h.tree h.noTree)) (below_of_treeAt (h'.tree h'.noTree)) rfl rfl rfl
    rw [hsymbols]
    cases decodeSymbols s <;> exact ⟨_, rfl, rfl⟩

end Arena

/-- Settles O49: the layout places the children (`layTree_children`); of two arenas that hold the same tree value GENERATE
and SERIALIZE read that value, and DECODE's walk reads the tree below ROOT (`decodeSymbols_eq_of_below`). -/
theorem arenaPlacement : Obligations.ArenaPlacement := by
  refine ⟨fun s t hexec herr hn => ?_, fun s nodes root nnode fill => ?_⟩
  · cases exec_completes hexec with
    | failed e info _ he => exact absurd ((code_eq_zero_iff e).mp herr) he
    | deserializedNull => cases hn
    | deserialized tree _ hd => exact ⟨rfl, fun i e => layTree_children (deserialBytes_nodup hd)⟩
  · intro s' htree _ hnone hsame i hi
    obtain ⟨ot, hholds, -⟩ := htree.exists_holds
    have hholds' : (s.withArena nodes root nnode fill).Holds ot :=
      ⟨hnone.symm.trans hholds.noTree, fun hn =>
        (hsame (hnone.trans hn)).symm.trans (hholds.tree (hnone.trans hn))⟩
    suffices hrun : ∃ t, exec i s = .next t ∧
        exec i (s.withArena nodes root nnode fill) = .next (t.withArena nodes root nnode fill) by
      obtain ⟨t, ht, ht'⟩ := hrun
      exact ⟨t, _, ht, ht', rfl⟩
    simp only [List.mem_cons, List.not_mem_nil, or_false] at hi
    rcases hi with rfl | rfl | rfl
    · exact generate_withArena hholds hholds'
    · exact decode_withArena hholds hholds'
    · exact serialize_withArena hholds hholds'

end Sys2Proof.Machine
end

section
/-!
SUPPORT. The host sequences (O59; 46_sequences.md R241 to R244): one event of a sequence, LOAD, SAVE and a command with
its wait; two blocks alike but for what no command reads; COMPRESS and DECOMPRESS as the commands they run.
-/

namespace Sys2Proof.Machine

/-! ## One event -/

/-- An event goes on exactly when the step of it answers a next state (20_memory.md R87). -/
theorem feed_ok_iff {s t : State} {e : Event} : feed s e = .ok t ↔ step { s with agenda := [e] } = .next t := by
  unfold feed
  split <;> next h => simp [h]

/-- A sequence goes on exactly when its first part does and the rest goes on from there. -/
theorem bind_ok_iff {α β : Type} {x : Except SeqStop α} {f : α → Except SeqStop β} {b : β} :
    x >>= f = .ok b ↔ ∃ a, x = .ok a ∧ f a = .ok b := by
  cases x with
  | ok a => exact ⟨fun h => ⟨a, rfl, h⟩, fun ⟨_, ha, hb⟩ => Except.ok.inj ha ▸ hb⟩
  | error e => exact ⟨fun h => (by cases h), fun ⟨_, ha, _⟩ => (by cases ha)⟩

theorem ok_bind {α β : Type} (a : α) (f : α → Except SeqStop β) : Except.ok a >>= f = f a := rfl

theorem feedAll_cons (e : Event) (es : List Event) (s : State) : feedAll (e :: es) s = feed s e >>= feedAll es := by
  rw [feedAll]
  cases feed s e <;> rfl

theorem feedAll_append (es es' : List Event) (s : State) : feedAll (es ++ es') s = feedAll es s >>= feedAll es' := by
  induction es generalizing s with
  | nil => rfl
  | cons e es ih =>
    rw [List.cons_append, feedAll_cons, feedAll_cons]
    cases feed s e with
    | ok t => exact ih t
    | error r => rfl

/-- The block after the events so far when the host has received these words (log 4). -/
def State.heard (s : State) (vs : List Word) : State := { s with agenda := [], hostReads := vs }

/-- `RD` of a register that the busy lock does not hide changes nothing but what the host has received (20_memory.md R72). -/
theorem feed_regRead {s : State} (g : Reg) (hb : s.busy = false ∨ g.readableBusy = true) :
    feed s (regRead g) = .ok (s.heard (s.readReg g :: s.hostReads)) :=
  feed_ok_iff.mpr (step_readReg (s := { s with agenda := [regRead g] }) g rfl hb)

/-- `WR` of a register of an idle block does what the register's access says (20_memory.md R72). -/
theorem feed_regWrite {s : State} (g : Reg) (v : Word) (hb : s.busy = false) :
    feed s (regWrite g v) = .ok (({ s with agenda := [] } : State).writeReg v g) :=
  feed_ok_iff.mpr (step_writeReg (s := { s with agenda := [regWrite g v] }) g rfl hb)

/-- The engine's turn of a busy block runs the command that CMD spells (10_state.md R46). -/
theorem feed_engine_ok_iff {s t : State} (hb : s.busy = true) :
    feed s .engine = .ok t ↔ exec (decode s.cmd) { s with agenda := [] } = .next t := by
  rw [feed_ok_iff, step_of_agenda_cons (s := { s with agenda := [.engine] }) rfl]
  exact Eq.congr_left (engineTurn_of_busy (s := { s with agenda := [] }) hb)

/-- Reads that leave the block as it is deliver their values one after the other, the last one first (20_memory.md R72). -/
theorem feedAll_reads {α : Type} {s : State} {read : α → Event} {value : α → Word} {xs : List α}
    (h : ∀ x ∈ xs, ∀ vs, feed (s.heard vs) (read x) = .ok (s.heard (value x :: vs))) (vs : List Word) :
    feedAll (xs.map read) (s.heard vs) = .ok (s.heard ((xs.map value).reverse ++ vs)) := by
  induction xs generalizing vs with
  | nil => rfl
  | cons x xs ih =>
    rw [List.map_cons, feedAll_cons, h x List.mem_cons_self vs]
    refine (ih (fun y hy => h y (List.mem_cons_of_mem x hy)) (value x :: vs)).trans ?_
    simp

/-! ## LOAD -/

/-- A memory after bytes have been stored in it from an index on. -/
def Memory.load : Memory → Nat → List Byte → Memory
  | m, _, [] => m
  | m, i, b :: bs => Memory.load (m.write i b) (i + 1) bs

/-- A read after a load: the byte loaded at the index, what was there before elsewhere. -/
theorem Memory.read_load (m : Memory) (i : Nat) (bs : List Byte) (a : Nat) :
    (m.load i bs).read a = if a < i then m.read a else (bs[a - i]?).or (m.read a) := by
  induction bs generalizing m i with
  | nil => simp [Memory.load]
  | cons b bs ih =>
    rw [Memory.load, ih, Memory.read_write]
    rcases Nat.lt_trichotomy a i with hlt | rfl | hgt
    · simp [hlt, Nat.lt_succ_of_lt hlt, hlt.ne]
    · simp
    · have hidx : a - i = a - (i + 1) + 1 := by omega
      simp (disch := omega) only [if_neg, hidx, List.getElem?_cons_succ]

/-- The block after LOAD of some bytes (30_encoding.md R125). -/
def State.loaded (s : State) (bytes : List Byte) : State :=
  { s with agenda := [], inBuf := s.inBuf.load 0 bytes, inLen := BitVec.ofNat 32 bytes.length }

theorem feed_bufWrite {s : State} {i : Nat} (b : Byte) (hb : s.busy = false) (hi : i < s.inCap.toNat) :
    feed s (bufWrite i b) = .ok { s with agenda := [], inBuf := s.inBuf.write i b } := by
  rw [feed_ok_iff, step_write (s := { s with agenda := [bufWrite i b] }) rfl (locate_inBuf hi) hb]
  simp [State.writeUnit]

/-- Bytes written to IN_BUF one after the other, then the length (30_encoding.md R125). -/
theorem feedAll_bufWrites {s : State} {bytes : List Byte} {i : Nat} (n : Word) (hb : s.busy = false)
    (hfits : i + bytes.length ≤ s.inCap.toNat) :
    feedAll (bytes.mapIdx (fun k => bufWrite (i + k)) ++ [regWrite .inLen n]) s =
      .ok { s with agenda := [], inBuf := s.inBuf.load i bytes, inLen := n } := by
  induction bytes generalizing s i with
  | nil => rw [List.mapIdx_nil, List.nil_append, feedAll_cons, feed_regWrite .inLen n hb]; rfl
  | cons b bytes ih =>
    rw [List.length_cons] at hfits
    have hshift : (fun k => bufWrite (i + (k + 1))) = fun k => bufWrite (i + 1 + k) :=
      funext fun k => by rw [Nat.add_assoc, Nat.add_comm 1]
    have hrest := ih (s := { s with agenda := [], inBuf := s.inBuf.write i b }) (i := i + 1) hb
      (by rwa [Nat.add_assoc, Nat.add_comm 1])
    rw [List.mapIdx_cons, List.cons_append, feedAll_cons, Nat.add_zero, feed_bufWrite b hb (by omega), hshift]
    exact hrest

/-- LOAD of bytes that fit leaves an idle block with them in IN_BUF (30_encoding.md R125). -/
theorem feedAll_load {s : State} {bytes : List Byte} (hb : s.busy = false) (hfits : bytes.length ≤ s.inCap.toNat) :
    feedAll (loadEvents bytes) s = .ok (s.loaded bytes) := by
  have h := feedAll_bufWrites (i := 0) (BitVec.ofNat 32 bytes.length) hb (by rwa [Nat.zero_add])
  simp only [Nat.zero_add] at h
  exact h

/-- The input after LOAD is the bytes (10_state.md R30, R43). -/
theorem loaded_input {s : State} {bytes : List Byte} (h : bytes.length < 2 ^ 32) : (s.loaded bytes).input = bytes := by
  have hlen : (s.loaded bytes).inLen.toNat = bytes.length := Nat.mod_eq_of_lt h
  refine List.ext_getElem (by rw [length_input, hlen]) fun k _ hk => ?_
  simp [State.input, State.inBytes, State.inByte, State.loaded, Memory.read_load, hk]

/-! ## SAVE -/

/-- OUT_BUF is behind every legal IN_BUF (20_memory.md R73, 00_scope.md R6). -/
theorem locate_outBuf {s : State} {i : Nat} (hcap : s.inCap.toNat ≤ Config.capMax) (hi : i < s.outCap.toNat) :
    locate s .b8 (0x40000000 + i) = .ok (.outBuf, i) := by
  have hcap' : s.inCap.toNat < 0x20000000 := Nat.lt_of_le_pred (by decide) hcap
  have hregion : regionOf s (0x40000000 + i) = some .outBuf := by
    simp (disch := omega) only [regionOf, if_pos, if_neg]
  simp [locate, hregion, Region.width, Region.base, Width.bytes, Nat.mod_one]

theorem readBack_eq {s : State} (g : Reg) (hb : s.busy = false) :
    readBack g s = .ok (s.readReg g, s.heard (s.readReg g :: s.hostReads)) := by
  rw [readBack, feed_regRead g (.inl hb)]
  rfl

theorem feed_outRead {s : State} {i : Nat} (hb : s.busy = false) (hcap : s.inCap.toNat ≤ Config.capMax)
    (hi : i < s.outCap.toNat) :
    feed s (outRead i) = .ok (s.heard ((s.outByte i).setWidth 32 :: s.hostReads)) :=
  feed_ok_iff.mpr (step_read (s := { s with agenda := [outRead i] }) rfl (locate_outBuf hcap hi) (.inl hb))

/-- SAVE gives the host the output and changes nothing but what the host has received (30_encoding.md R125). -/
theorem save_eq {s : State} (hb : s.busy = false) (hcap : s.inCap.toNat ≤ Config.capMax)
    (hfits : s.outLen.toNat ≤ s.outCap.toNat) :
    save s = .ok (s.output, s.heard ((s.output.map (·.setWidth 32)).reverse ++ s.outLen :: s.hostReads)) := by
  have hread : ∀ i ∈ List.range s.outLen.toNat, ∀ vs,
      feed (s.heard vs) (outRead i) = .ok (s.heard ((s.outByte i).setWidth 32 :: vs)) := fun i hi vs =>
    feed_outRead (s := s.heard vs) hb hcap (lt_of_lt_of_le (List.mem_range.mp hi) hfits)
  have hreads : feedAll ((List.range s.outLen.toNat).map outRead) (s.heard (s.outLen :: s.hostReads)) =
      .ok (s.heard ((s.output.map (·.setWidth 32)).reverse ++ s.outLen :: s.hostReads)) := by
    rw [State.output, List.map_map]
    exact feedAll_reads hread _
  have hlen : (s.output.map (BitVec.setWidth 32)).reverse.length = s.outLen.toNat := by simp [State.output]
  have hbytes : (s.output.map (BitVec.setWidth 32)).map (BitVec.setWidth 8) = s.output := by
    rw [List.map_map]
    exact List.map_id'' (fun b => by simp) s.output
  simp only [save, readBack_eq .outLen hb, ok_bind, State.readReg, hreads]
  simp only [State.heard, ← hlen, List.take_left, List.reverse_reverse, hbytes]
  rfl

/-! ## A command and its wait -/

/-- The block while a command runs, after some reads of STATUS (30_encoding.md R125). -/
def State.running (s : State) (polls : Nat) (i : Instr) : State :=
  (s.start (encode i)).heard (List.replicate polls 1 ++ s.hostReads)

/-- The CMD write starts the command, and the reads of STATUS find it busy (60_exceptions.md R268, 20_memory.md R85). -/
theorem feedAll_polls {s : State} {polls : Nat} {i : Instr} (hb : s.busy = false) :
    feedAll ([regWrite .cmd (encode i)] ++ List.replicate polls (regRead .status)) s = .ok (s.running polls i) := by
  have hread : ∀ g ∈ List.replicate polls Reg.status, ∀ vs,
      feed ((s.start (encode i)).heard vs) (regRead g) = .ok ((s.start (encode i)).heard ((1 : Word) :: vs)) := by
    intro g hg vs
    obtain ⟨-, rfl⟩ := List.mem_replicate.mp hg
    exact feed_regRead (s := (s.start (encode i)).heard vs) .status (.inr rfl)
  have hpolls := feedAll_reads hread s.hostReads
  rw [List.map_replicate, List.map_replicate, List.reverse_replicate] at hpolls
  rw [List.singleton_append, feedAll_cons, feed_regWrite .cmd _ hb]
  exact hpolls

/-- Either completion leaves the block idle (60_exceptions.md R269, R270). -/
theorem exec_idle {i : Instr} {s t : State} (h : exec i s = .next t) : t.busy = false := by
  cases exec_completes h with
  | failed e info => exact (complete_flags _ e info).1
  | _ => exact (complete_flags _ .ok 0).1

/-- The engine's turn of a running block is the command that was issued (30_encoding.md R101). -/
theorem feed_engine_running {polls : Nat} {i : Instr} {s t : State} (hwf : i.wf = true) :
    feed (s.running polls i) .engine = .ok t ↔ exec i (s.running polls i) = .next t := by
  refine (feed_engine_ok_iff (s := s.running polls i) (start_flags s (encode i)).1).trans (Eq.congr_left ?_)
  exact congrArg (fun j => exec j (s.running polls i)) (decode_encode i hwf)

/-- Issuing a command of an idle block runs it (30_encoding.md R125). -/
theorem feedAll_issue_ok_iff {polls : Nat} {i : Instr} {s u : State} (hb : s.busy = false) (hwf : i.wf = true) :
    feedAll (issueEvents polls i) s = .ok u ↔
      ∃ t, exec i (s.running polls i) = .next t ∧ t.heard (t.status :: t.hostReads) = u := by
  rw [issueEvents, feedAll_append, feedAll_polls hb, ok_bind, feedAll_cons, bind_ok_iff]
  refine exists_congr fun t => and_congr (feed_engine_running hwf) ?_
  rw [feedAll_cons, feed_regRead .status (.inr rfl)]
  exact Iff.of_eq (Except.ok.injEq _ u)

/-- The host's command goes on exactly when the command it runs ends with ERR = 0 (46_sequences.md R244). -/
theorem command_ok_iff {polls : Nat} {i : Instr} {s u : State} (hb : s.busy = false) (hwf : i.wf = true) :
    command polls i s = .ok u ↔
      ∃ t, exec i (s.running polls i) = .next t ∧ t.err = 0 ∧ t.heard (t.err :: t.status :: t.hostReads) = u := by
  have hread {t : State} (h : exec i (s.running polls i) = .next t) :
      readBack .err (t.heard (t.status :: t.hostReads)) = .ok (t.err, t.heard (t.err :: t.status :: t.hostReads)) :=
    readBack_eq (s := t.heard (t.status :: t.hostReads)) .err (show t.busy = false from exec_idle h)
  simp only [command, bind_ok_iff, feedAll_issue_ok_iff hb hwf]
  constructor
  · rintro ⟨_, ⟨t, hexec, rfl⟩, ⟨e, v⟩, hev, hu⟩
    rw [hread hexec] at hev
    cases hev
    dsimp only at hu
    split_ifs at hu with herr
    cases hu
    exact ⟨t, hexec, herr, rfl⟩
  · rintro ⟨t, hexec, herr, rfl⟩
    exact ⟨_, ⟨t, hexec, rfl⟩, _, hread hexec, if_pos herr⟩

/-! ## Blocks alike but for what no command reads -/

/-- Command i of a block ends without error (60_exceptions.md R269). -/
def Succeeds (i : Instr) (s t : State) : Prop := exec i s = .next t ∧ t.Succeeded

/-- A command that ends with ERR = 0 has succeeded (60_exceptions.md R269, R270). -/
theorem succeeded_of_err_eq_zero {i : Instr} {s t : State} (h : exec i s = .next t) (herr : t.err = 0) :
    t.Succeeded := by
  cases exec_completes h with
  | failed e info _ he => exact absurd ((code_eq_zero_iff e).mp herr) he
  | _ => exact succeed_succeeded _

/-- Two blocks are alike but for CMD, STATUS and the model's record of the outside, which no command reads. -/
def State.Alike (s t : State) : Prop :=
  ∃ (c st : Word) (a : List Event) (vs : List Word), t = { s with cmd := c, status := st, agenda := a, hostReads := vs }

theorem State.Alike.symm {s t : State} (h : s.Alike t) : t.Alike s := by
  obtain ⟨c, st, a, vs, rfl⟩ := h
  exact ⟨s.cmd, s.status, s.agenda, s.hostReads, rfl⟩

theorem State.Alike.trans {s t u : State} (h : s.Alike t) (h' : t.Alike u) : s.Alike u := by
  obtain ⟨_, _, _, _, rfl⟩ := h
  obtain ⟨c, st, a, vs, rfl⟩ := h'
  exact ⟨c, st, a, vs, rfl⟩

theorem State.Alike.refl (s : State) : s.Alike s := ⟨s.cmd, s.status, s.agenda, s.hostReads, rfl⟩

theorem State.alike_heard (s : State) (vs : List Word) : s.Alike (s.heard vs) := ⟨s.cmd, s.status, [], vs, rfl⟩

theorem State.alike_running (s : State) (polls : Nat) (i : Instr) : s.Alike (s.running polls i) :=
  ⟨encode i, _, [], _, rfl⟩

theorem inLen_le_of_inLenBad_eq_false {s : State} (h : s.inLenBad = false) : s.inLen.toNat ≤ s.inCap.toNat := by
  simpa [State.inLenBad] using h

/-- A DECODE that succeeded had no more bits than the buffer holds (44_decode.md R199 (a)). -/
theorem nbits_le_of_decode_succeeds {s t : State} (hn : s.noTree = false) (hl : s.inLenBad = false)
    (h : Succeeds .decode s t) : s.nbits.toNat ≤ 8 * s.inLen.toNat := by
  refine Nat.le_of_not_lt fun hlt => ?_
  obtain ⟨hexec, hok⟩ := h
  rw [exec_decode_of_too_many_bits (inLen_le_of_inLenBad_eq_false hl) hn hlt] at hexec
  cases hexec
  exact not_succeeded_raise (by decide) hok

/-- DESERIALIZE lays out what the parser accepts (45_treecodec.md R221). -/
theorem exec_deserialize_of_deserialBytes {s : State} {ot : Option Tree} (hl : s.inLenBad = false)
    (hd : deserialBytes s.input = some ot) : exec .deserialize s = .next (s.deserialized ot) :=
  have ⟨hbytes, hnd⟩ := deserialBytes_eq_some_iff.mp hd
  exec_deserialize_of_serialBytes (inLen_le_of_inLenBad_eq_false hl) hbytes hnd

/-- A command that succeeds on one block succeeds on a block alike, and leaves the two alike. -/
theorem Succeeds.of_alike {i : Instr} {s t s' : State} (hst : s.Alike t) (h : Succeeds i s s') :
    ∃ t', Succeeds i t t' ∧ s'.Alike t' := by
  obtain ⟨c, st, a, vs, rfl⟩ := hst
  set t : State := { s with cmd := c, status := st, agenda := a, hostReads := vs }
  cases exec_completes h.1 with
  | failed e info _ he => exact absurd h.2 (not_succeeded_raise he)
  | analyzed hl => exact ⟨_, ⟨exec_analyze_of_fits (s := t) hl, succeed_succeeded _⟩, c, _, a, vs, rfl⟩
  | built hn => exact ⟨_, ⟨exec_build_of_keys (s := t) hn, succeed_succeeded _⟩, c, _, a, vs, rfl⟩
  | generated tree hn ht => exact ⟨_, ⟨exec_generate_of_tree (s := t) hn ht, succeed_succeeded _⟩, c, _, a, vs, rfl⟩
  | packed stream hl hp =>
    have hp' : packStream t 0 0 t.input = .ok stream :=
      (packStream_congr (s := s) (t := t) (fun _ => rfl) rfl 0 0 _).trans hp
    exact ⟨_, ⟨exec_pack_of_stream (s := t) hl hp', succeed_succeeded _⟩, c, _, a, vs, rfl⟩
  | decoded out hl hn hd =>
    have hd' : decodeSymbols t = .ok out :=
      (decodeSymbols_congr (s := s) (t := t) ⟨rfl, rfl, fun _ => rfl⟩ rfl rfl rfl).trans hd
    have hnbits : t.nbits.toNat ≤ 8 * t.inLen.toNat := nbits_le_of_decode_succeeds (s := s) hn hl h
    obtain ⟨hexec, hok, -⟩ := decode_delivers (s := t) (inLen_le_of_inLenBad_eq_false hl) hn hnbits hd'
    exact ⟨_, ⟨hexec, hok⟩, c, _, a, vs, rfl⟩
  | serializedNull hn =>
    have hholds : t.Holds none := ⟨hn, fun hn' => absurd hn' (by simp [show t.noTree = true from hn])⟩
    exact ⟨_, ⟨exec_serialize hholds, succeed_succeeded _⟩, c, _, a, vs, rfl⟩
  | serialized tree hn ht =>
    exact ⟨_, ⟨exec_serialize (s := t) (ot := some tree) ⟨hn, fun _ => ht⟩, succeed_succeeded _⟩, c, _, a, vs, rfl⟩
  | deserializedNull hl hd =>
    exact ⟨_, ⟨exec_deserialize_of_deserialBytes (s := t) hl hd, succeed_succeeded _⟩, c, _, a, vs, rfl⟩
  | deserialized tree hl hd =>
    exact ⟨_, ⟨exec_deserialize_of_deserialBytes (s := t) hl hd, succeed_succeeded _⟩, c, _, a, vs, rfl⟩

/-- Block t is idle and like s: a host that runs a sequence on t sees what the commands make of s. -/
structure State.Tracks (s t : State) : Prop where
  alike : s.Alike t
  idle : t.busy = false

section Tracks
variable {s t : State} (h : s.Tracks t)
include h

theorem State.Tracks.heard (vs : List Word) : s.Tracks (t.heard vs) := ⟨h.alike.trans (t.alike_heard vs), h.idle⟩

theorem State.Tracks.load {bytes : List Byte} (hfits : bytes.length ≤ s.inCap.toNat) :
    ∃ u, feedAll (loadEvents bytes) t = .ok u ∧ (s.loaded bytes).Tracks u := by
  obtain ⟨⟨c, st, a, vs, rfl⟩, hb⟩ := h
  exact ⟨_, feedAll_load hb hfits, ⟨c, st, [], vs, rfl⟩, hb⟩

theorem State.Tracks.writeNbits (w : Word) :
    ∃ u, feedAll [regWrite .nbits w] t = .ok u ∧ ({ s with nbits := w } : State).Tracks u := by
  obtain ⟨⟨c, st, a, vs, rfl⟩, hb⟩ := h
  exact ⟨_, by rw [feedAll_cons, feed_regWrite .nbits w hb]; rfl, ⟨c, st, [], vs, rfl⟩, hb⟩

theorem State.Tracks.readBitLen : ∃ u, readBack .bitLen t = .ok (s.bitLen, u) ∧ s.Tracks u := by
  have hread := readBack_eq .bitLen h.idle
  obtain ⟨⟨c, st, a, vs, rfl⟩, hb⟩ := h
  exact ⟨_, hread, ⟨c, st, [], _, rfl⟩, hb⟩

theorem State.Tracks.save (hinv : s.Inv) : ∃ u, save t = .ok (s.output, u) ∧ s.Tracks u := by
  obtain ⟨⟨-, hcap, -⟩, -, -, -, ⟨-, -, -, -, hlen, -⟩, -⟩ := hinv
  obtain ⟨⟨c, st, a, vs, rfl⟩, hb⟩ := h
  exact ⟨_, save_eq hb hcap hlen, ⟨c, st, [], _, rfl⟩, hb⟩

/-- The host's command on a block does what the command does to a block alike (46_sequences.md R244). -/
theorem State.Tracks.command {polls : Nat} {i : Instr} {s' : State} (hwf : i.wf = true) (hs : Succeeds i s s') :
    ∃ u, Machine.command polls i t = .ok u ∧ s'.Tracks u := by
  obtain ⟨t', ⟨hexec, hok⟩, halike⟩ := hs.of_alike (h.alike.trans (t.alike_running polls i))
  obtain ⟨_, herr, _⟩ := hok
  exact ⟨_, (command_ok_iff h.idle hwf).mpr ⟨t', hexec, herr, rfl⟩, State.Tracks.heard ⟨halike, exec_idle hexec⟩ _⟩

/-- A host's command that goes on has run a command that succeeds on a block alike (46_sequences.md R244). -/
theorem State.Tracks.succeeds_of_command {polls : Nat} {i : Instr} {u : State} (hwf : i.wf = true)
    (hu : Machine.command polls i t = .ok u) : ∃ s', Succeeds i s s' ∧ s'.Tracks u := by
  obtain ⟨t', hexec, herr, rfl⟩ := (command_ok_iff h.idle hwf).mp hu
  obtain ⟨s', hs, halike⟩ := Succeeds.of_alike (h.alike.trans (t.alike_running polls i)).symm
    ⟨hexec, succeeded_of_err_eq_zero hexec herr⟩
  exact ⟨s', hs, State.Tracks.heard ⟨halike.symm, exec_idle hexec⟩ _⟩

end Tracks

/-! ## The invariant along a sequence -/

/-- A command keeps the invariant of the block. -/
theorem Succeeds.inv {i : Instr} {s t : State} (h : Succeeds i s t) (hs : s.Inv) : t.Inv := by
  obtain ⟨hcaps, htable, htree, hcode, hbuffer, -⟩ := hs
  have hc := exec_completes h.1
  refine ⟨?_, hc.tableInv htable, hc.treeInv htable htree, hc.codeInv htree hcode, hc.bufferInv hcaps htree hbuffer,
    hc.statusInv⟩
  obtain ⟨hin, hout⟩ := hc.capacities
  rwa [State.Caps, hin, hout]

/-- Bytes loaded inside IN_CAP keep the buffers legal (20_memory.md R80). -/
theorem load_bufferInv {s : State} {bytes : List Byte} {i : Nat} (hs : s.BufferInv)
    (hfits : i + bytes.length ≤ s.inCap.toNat) : ({ s with inBuf := s.inBuf.load i bytes } : State).BufferInv := by
  induction bytes generalizing s i with
  | nil => exact hs
  | cons b bytes ih =>
    rw [List.length_cons] at hfits
    have hi : i < s.inCap.toNat := by omega
    exact ih (s := { s with inBuf := s.inBuf.write i b }) (write_inBuf_bufferInv b hi hs)
      (by rwa [Nat.add_assoc, Nat.add_comm 1])

/-- LOAD of bytes that fit keeps the invariant of the block. -/
theorem loaded_inv {s : State} {bytes : List Byte} (hs : s.Inv) (hfits : bytes.length ≤ s.inCap.toNat) :
    (s.loaded bytes).Inv := by
  obtain ⟨hcaps, htable, htree, hcode, hbuffer, hstatus⟩ := hs
  exact ⟨hcaps, htable, htree, hcode, load_bufferInv (i := 0) hbuffer (by rwa [Nat.zero_add]), hstatus⟩

/-! ## The sequences as the commands they run -/

/-- COMPRESS that succeeds has loaded its input and run the five commands, each without error (46_sequences.md R241,
R244). -/
theorem compress_ok {m : Nat} {input : List Byte} {s s' : State} {saved : Saved} (hinv : s.Inv) (hb : s.busy = false)
    (hfits : input.length ≤ s.inCap.toNat) (h : compress m input s = .ok (saved, s')) :
    ∃ t₁ t₂ t₃ t₄ t₅, Succeeds .analyze (s.loaded input) t₁ ∧ Succeeds .build t₁ t₂ ∧ Succeeds .generate t₂ t₃ ∧
      Succeeds .pack t₃ t₄ ∧ Succeeds .serialize t₄ t₅ ∧ t₄.Inv ∧
      saved = { packed := t₄.output, bitLen := t₄.bitLen, tree := t₅.output } := by
  simp only [compress, bind_ok_iff] at h
  obtain ⟨u₀, hload, u₁, hu₁, u₂, hu₂, u₃, hu₃, u₄, hu₄, ⟨_, u₅⟩, hread, ⟨_, u₆⟩, hpacked, u₇, hu₇, ⟨_, u₈⟩, htree,
    hsaved⟩ := h
  have hs : s.Tracks s := ⟨.refl s, hb⟩
  obtain ⟨_, hload', hs₀⟩ := hs.load hfits
  cases hload.symm.trans hload'
  obtain ⟨t₁, h₁, hs₁⟩ := hs₀.succeeds_of_command rfl hu₁
  obtain ⟨t₂, h₂, hs₂⟩ := hs₁.succeeds_of_command rfl hu₂
  obtain ⟨t₃, h₃, hs₃⟩ := hs₂.succeeds_of_command rfl hu₃
  obtain ⟨t₄, h₄, hs₄⟩ := hs₃.succeeds_of_command rfl hu₄
  have hinv₄ : t₄.Inv := h₄.inv (h₃.inv (h₂.inv (h₁.inv (loaded_inv hinv hfits))))
  obtain ⟨_, hread', hs₄⟩ := hs₄.readBitLen
  cases hread.symm.trans hread'
  obtain ⟨_, hpacked', hs₄⟩ := hs₄.save hinv₄
  cases hpacked.symm.trans hpacked'
  obtain ⟨t₅, h₅, hs₅⟩ := hs₄.succeeds_of_command rfl hu₇
  obtain ⟨_, htree', -⟩ := hs₅.save (h₅.inv hinv₄)
  cases htree.symm.trans htree'
  cases hsaved
  exact ⟨t₁, t₂, t₃, t₄, t₅, h₁, h₂, h₃, h₄, h₅, hinv₄, rfl⟩

/-- DECOMPRESS gives what its two commands decode, if they succeed (46_sequences.md R243). -/
theorem decompress_eq_ok {n : Nat} {tree packed : List Byte} {bitLen : Word} {u v w : State} (hinv : u.Inv)
    (hb : u.busy = false) (htree : tree.length ≤ u.inCap.toNat) (hpacked : packed.length ≤ u.inCap.toNat)
    (hv : Succeeds .deserialize (u.loaded tree) v)
    (hw : Succeeds .decode { v.loaded packed with nbits := bitLen } w) :
    ∃ u', decompress n (some tree) packed bitLen u = .ok (w.output, u') := by
  have hvcap : v.inCap = u.inCap := (exec_completes hv.1).capacities.1
  have hvinv : v.Inv := hv.inv (loaded_inv hinv htree)
  have hwinv : w.Inv := hw.inv (s := { v.loaded packed with nbits := bitLen }) (loaded_inv hvinv (hvcap ▸ hpacked))
  have hu : u.Tracks u := ⟨.refl u, hb⟩
  obtain ⟨_, h₁, hu₁⟩ := hu.load htree
  obtain ⟨_, h₂, hu₂⟩ := hu₁.command (polls := n) rfl hv
  obtain ⟨_, h₃, hu₃⟩ := hu₂.load (hvcap ▸ hpacked)
  obtain ⟨_, h₄, hu₄⟩ := hu₃.writeNbits bitLen
  obtain ⟨_, h₅, hu₅⟩ := hu₄.command (polls := n) rfl hw
  obtain ⟨u', h₆, -⟩ := hu₅.save hwinv
  exact ⟨u', by simp only [decompress, h₁, h₂, h₃, h₄, h₅, h₆, ok_bind]⟩

theorem length_output (s : State) : s.output.length = s.outLen.toNat := by simp [State.output]

/-- The output of one block, loaded into another, is its input (30_encoding.md R125). -/
theorem loaded_output (s t : State) : (s.loaded t.output).inLen = t.outLen ∧ (s.loaded t.output).input = t.output :=
  ⟨by simp [State.loaded, length_output], loaded_input (length_output t ▸ t.outLen.isLt)⟩

/-- The tree bytes of one block fit any other (30_encoding.md R119, 00_scope.md R6). -/
theorem length_output_le_of_serialize {s t u : State} (htree : s.TreeInv) (h : Succeeds .serialize s t) (hu : u.Caps) :
    t.output.length ≤ u.inCap.toNat := by
  obtain ⟨hmin, -⟩ := hu
  obtain ⟨ot, hholds, hnd⟩ := htree.exists_holds
  cases (exec_serialize hholds).symm.trans h.1
  rw [(serialized_output s hnd).2]
  exact le_trans (length_serialBytes_le hnd) hmin

/-- The tree bytes of one block, loaded into another, bring it the tree (O50). -/
theorem deserialize_loaded_output {s t u : State} (hcaps : s.Caps) (htree : s.TreeInv) (h : Succeeds .serialize s t)
    (hu : u.Caps) : ∃ v, Succeeds .deserialize (u.loaded t.output) v ∧ v.TreeInv ∧ v.noTree = s.noTree ∧
      (s.noTree = false → v.tree = s.tree) := by
  obtain ⟨_, hserialize, -, hback⟩ := treeRoundTrip s hcaps htree
  cases h.1.symm.trans hserialize
  obtain ⟨hlen, hinput⟩ := loaded_output u t
  obtain ⟨v, hexec, hok, hvtree, hnone, hsame, -⟩ := hback (u.loaded t.output) hu hlen hinput
  exact ⟨v, ⟨hexec, hok⟩, hvtree, hnone, hsame⟩

/-- GENERATE succeeds with a tree only, which it and PACK leave as it is (42_generate.md R168, 30_encoding.md R102). -/
theorem tree_of_generate_pack {s t u : State} (ht : Succeeds .generate s t) (hu : Succeeds .pack t u) :
    u.noTree = false ∧ u.tree = s.tree := by
  obtain ⟨rfl, -⟩ := pack_succeeded hu.1 hu.2
  cases exec_completes ht.1 with
  | failed e info _ he => exact absurd ht.2 (not_succeeded_raise he)
  | generated tree hn htree => exact ⟨hn, rfl⟩

/-- Settles O59: both sequences are the commands they run (`compress_ok`, `decompress_eq_ok`; log 20); the tree bytes bring
the tree of the one block to the other (O50), where DECODE gives back what PACK packed (O58). -/
theorem decompressInvertsCompress : Obligations.DecompressInvertsCompress := by
  intro m n input s s' u saved hinv hb hlen hfits hcompress huinv hub hpacked hroom
  obtain ⟨t₁, t₂, t₃, t₄, t₅, h₁, h₂, h₃, h₄, h₅, hinv₄, rfl⟩ := compress_ok hinv hb hfits hcompress
  obtain ⟨hcaps₄, -, htree₄, -⟩ := hinv₄
  have ⟨hucaps, _⟩ := huinv
  obtain ⟨v, hv, hvtree, hvnone, hvsame⟩ := deserialize_loaded_output hcaps₄ htree₄ h₅ hucaps
  obtain ⟨hinCap, houtCap⟩ : v.inCap = u.inCap ∧ v.outCap = u.outCap := (exec_completes hv.1).capacities
  have hvcaps : v.Caps := by rwa [State.Caps, hinCap, houtCap]
  obtain ⟨hnone, hsame⟩ := tree_of_generate_pack h₃ h₄
  have hlt : input.length < 2 ^ 32 := lt_of_le_of_lt hfits s.inCap.isLt
  have hinLen : (s.loaded input).inLen.toNat = input.length := Nat.mod_eq_of_lt hlt
  obtain ⟨hpackedLen, hpackedInput⟩ := loaded_output v t₄
  obtain ⟨w, hw, hwok, -, hwout⟩ := packedInputDecodesToItself (s.loaded input) t₁ t₂ t₃ t₄
    { v.loaded t₄.output with nbits := t₄.bitLen } hinv.1 (hinLen.symm ▸ hlen) h₁.1 h₁.2 h₂.1 h₂.2 h₃.1 h₃.2 h₄.1 h₄.2
    hvcaps hvtree (hvnone.trans hnone) ((hvsame hnone).trans hsame) hpackedLen
    (by rw [hpackedLen, ← length_output]; exact hinCap ▸ hpacked) hpackedInput rfl
    (by rw [hinLen]; exact houtCap ▸ hroom)
  rw [loaded_input hlt] at hwout
  subst hwout
  exact decompress_eq_ok huinv hub (length_output_le_of_serialize htree₄ h₅ hucaps) hpacked hv ⟨hw, hwok⟩

end Sys2Proof.Machine
end

section
/-!
SUPPORT. Exceptions, reset and hazards (O4, O5, O7, O18, O26, O28, O44, O55, O56; 60_exceptions.md R265 to R281,
70_reset_and_hazards.md R300 to R307): the start of a command, what a host access can do to an idle and to a busy block, the
completion of every command and the codes it can report.
-/

namespace Sys2Proof.Machine

/-! ## Start and reset -/

/-- Settles O4: the write reaches CMD (`step_writeReg`), and the engine's turn of the busy block is the command (O3). -/
theorem cmdWriteStartsTheCommand : Obligations.CmdWriteStartsTheCommand := by
  intro s rest w ha hb
  have ⟨hbusy, hdone, herrf⟩ := start_flags { s with agenda := rest } w
  exact ⟨_, step_writeReg .cmd ha hb, rfl, hbusy, hdone, herrf, rfl, rfl, rfl, fun later hrest =>
    stepRunsTheCommandInCmd.2.1 _ later hbusy hrest⟩

/-- Settles O18: a reset looks at no field but the capacities; the two tables entry by entry. -/
theorem resetAtAnyTime : Obligations.ResetAtAnyTime := by
  intro s rest ha
  set u : State := { s with agenda := rest }
  have hcnt : ∀ b, u.pulseReset.cnt b = 0 := fun _ => Vector.getElem_replicate _
  have hcode : ∀ b, u.pulseReset.code b = [] := fun _ => Vector.getElem_replicate _
  exact ⟨u.pulseReset, step_of_agenda_cons ha, rfl, rfl, rfl, rfl, rfl, rfl, rfl, rfl, rfl, rfl, rfl, hcnt, rfl, rfl, hcode⟩

/-! ## Host accesses of an idle and of a busy block -/

theorem engineTurn_of_idle {s : State} (h : s.busy = false) : engineTurn s = .next s := by
  rw [engineTurn, if_neg (by simp [h])]

/-- The host starts an idle block by a write of CMD, or changes at most IN_LEN, NBITS, IN_BUF and its own record
(20_memory.md R72). -/
theorem hostAccess_of_idle {s t : State} {op : HostOp} (hb : s.busy = false) (h : hostAccess s op = .next t) :
    (∃ w, op = .write .b32 0x08 w ∧ t = s.start w) ∨
      ∃ n bits m vs, t = { s with inLen := n, nbits := bits, inBuf := m, hostReads := vs } := by
  rcases hostAccess_cases h with ⟨_, _, r, k, -, -, hread⟩ | ⟨w, off, v, r, k, rfl, hl, hwrite⟩
  · rcases hread with ⟨hbusy, -⟩ | ⟨-, rfl⟩
    · simp [hb] at hbusy
    · exact .inr ⟨s.inLen, s.nbits, s.inBuf, _, rfl⟩
  · rcases hwrite with ⟨hbusy, -⟩ | ⟨-, rfl⟩
    · simp [hb] at hbusy
    rcases writeUnit_cases s k v r with hs | ⟨rfl, hk, hs⟩ | ⟨-, -, hs⟩ | ⟨-, -, hs⟩ | ⟨-, hs⟩ <;> rw [hs]
    · exact .inr ⟨s.inLen, s.nbits, s.inBuf, s.hostReads, rfl⟩
    · obtain ⟨-, rfl, -⟩ := locate_ok hl
      obtain rfl := eq_offset_of_locate hl hk
      exact .inl ⟨v, rfl, rfl⟩
    · exact .inr ⟨v, s.nbits, s.inBuf, s.hostReads, rfl⟩
    · exact .inr ⟨s.inLen, v, s.inBuf, s.hostReads, rfl⟩
    · exact .inr ⟨s.inLen, s.nbits, _, s.hostReads, rfl⟩

/-- The host changes nothing of a busy block; its own record and the model's draws count the reads (20_memory.md R85,
70_reset_and_hazards.md R307). -/
theorem hostAccess_of_busy {s t : State} {op : HostOp} (hb : s.busy = true) (h : hostAccess s op = .next t) :
    ∃ vs d, t = { s with hostReads := vs, draws := d } := by
  rcases hostAccess_cases h with ⟨_, _, _, _, -, -, ⟨-, -, rfl⟩ | ⟨-, rfl⟩⟩ | ⟨_, _, _, _, _, -, -, ⟨-, rfl⟩ | ⟨hidle, -⟩⟩
  · exact ⟨_, _, rfl⟩
  · exact ⟨_, s.draws, rfl⟩
  · exact ⟨t.hostReads, t.draws, rfl⟩
  · simp [hb] at hidle

/-- Settles O5: an idle engine does nothing, and a host access starts the block only by a write of CMD
(`hostAccess_of_idle`). -/
theorem idleUntilCmdWrite : Obligations.IdleUntilCmdWrite := by
  refine ⟨by decide, fun s hb ha => ?_, fun s t e rest hb ha hreset h => ?_⟩
  · rw [step_of_agenda_nil ha, engineTurn_of_idle hb]
  · rw [step_of_agenda_cons ha] at h
    set u : State := { s with agenda := rest }
    have hub : u.busy = false := hb
    cases e with
    | reset => exact absurd rfl hreset
    | engine =>
      rw [takeEvent, engineTurn_of_idle hub] at h
      obtain rfl := Host.Outcome.next.inj h
      exact .inr ⟨hub, rfl⟩
    | host op =>
      rcases hostAccess_of_idle hub h with ⟨w, rfl, rfl⟩ | ⟨_, _, _, _, rfl⟩
      · exact .inl ⟨(start_flags u w).1, w, rfl⟩
      · exact .inr ⟨hub, rfl⟩

/-- Settles O7: the engine and a reset end the command; the host changes only what is recorded of it
(`hostAccess_of_busy`). -/
theorem onlyCompletionOrResetEndsACommand : Obligations.OnlyCompletionOrResetEndsACommand := by
  intro s t hb h
  rcases step_cases h with ⟨s', hs', ⟨-, hexec⟩ | ⟨hidle, -⟩⟩ | ⟨op, rest, -, hacc⟩ | hreset
  · rcases hs' with ⟨rfl, ha⟩ | ⟨rest, ha, rfl⟩
    · exact .inl ⟨ha, hexec⟩
    · exact .inr (.inl ⟨rest, ha, hexec⟩)
  · simp [hb] at hidle
  · obtain ⟨_, _, rfl⟩ := hostAccess_of_busy (s := { s with agenda := rest }) hb hacc
    exact .inr (.inr (.inr ⟨hb, rfl⟩))
  · exact .inr (.inr (.inl hreset))

/-! ## Completion -/

/-- A command of a block that holds a tree or none answers a next state: the two that read the tree find it
(93_implementation_defined.md U14). -/
theorem State.Holds.exec_next {s : State} {ot : Option Tree} (h : s.Holds ot) (i : Instr) :
    ∃ t, exec i s = .next t := by
  cases i with
  | analyze => simp only [exec, execAnalyze]; split <;> exact ⟨_, rfl⟩
  | build => simp only [exec, execBuild]; split <;> exact ⟨_, rfl⟩
  | generate =>
    cases ot with
    | none => exact ⟨_, exec_generate_of_noTree h.noTree⟩
    | some tree => exact ⟨_, exec_generate_of_tree h.noTree (h.tree h.noTree)⟩
  | pack =>
    simp only [exec, execPack]
    split
    · exact ⟨_, rfl⟩
    · split <;> exact ⟨_, rfl⟩
  | decode =>
    simp only [exec, execDecode]
    split_ifs
    iterate 3 exact ⟨_, rfl⟩
    split <;> exact ⟨_, rfl⟩
  | serialize => exact ⟨_, exec_serialize h⟩
  | deserialize =>
    simp only [exec, execDeserialize]
    split
    · exact ⟨_, rfl⟩
    · split <;> exact ⟨_, rfl⟩
  | illegal word => exact ⟨_, exec_illegal word s⟩

/-- Either completion sets DONE (60_exceptions.md R269, R270). -/
theorem exec_done {i : Instr} {s t : State} (h : exec i s = .next t) : t.done = true := by
  cases exec_completes h with
  | failed e info => exact (complete_flags _ e info).2.1
  | _ => exact (complete_flags _ .ok 0).2.1

/-- Settles O26: a legal arena holds a tree or none, so every command answers a next state (`State.Holds.exec_next`), which
is one of the two completions (`exec_idle`, `exec_done`). -/
theorem everyCommandCompletes : Obligations.EveryCommandCompletes := by
  intro i s htree
  obtain ⟨ot, hholds, -⟩ := htree.exists_holds
  obtain ⟨t, h⟩ := hholds.exec_next i
  exact ⟨t, h, exec_idle h, exec_done h⟩

/-- A command that reports an error has failed, with its own destination (60_exceptions.md R270, R271). -/
theorem exists_raise_of_err_ne_zero {i : Instr} {s t : State} (h : exec i s = .next t) (herr : t.err ≠ 0) :
    ∃ e info, e ≠ .ok ∧ t = s.raise (destOf i) e info := by
  cases exec_completes h with
  | failed e info _ he => exact ⟨e, info, he, rfl⟩
  | _ => exact absurd rfl herr

/-- Settles O55: what a failing completion reports and empties (`raise_failed`) and what it leaves (`raise_frame`). -/
theorem failureClearsTheDestinationOnly : Obligations.FailureClearsTheDestinationOnly := by
  intro i s t h herr
  obtain ⟨e, info, he, rfl⟩ := exists_raise_of_err_ne_zero h herr
  obtain ⟨⟨hstatus, -⟩, hempty⟩ := raise_failed s (destOf i) e info he
  exact ⟨hstatus, hempty, raise_sameHostSide s (destOf i) e info, raise_frame s (destOf i) e info⟩

/-! ## The tests before a command -/

theorem inLenBad_eq_true {s : State} (h : s.inCap.toNat < s.inLen.toNat) : s.inLenBad = true := by
  simpa [State.inLenBad] using h

/-- The commands that read IN_BUF test IN_LEN first (60_exceptions.md R267, R272). -/
theorem exec_of_inLenBad {i : Instr} {s : State} (hi : i ∈ [Instr.analyze, .pack, .decode, .deserialize])
    (h : s.inLenBad = true) : exec i s = .next (s.raise (destOf i) .badOperand s.inLen) := by
  simp only [List.mem_cons, List.not_mem_nil, or_false] at hi
  rcases hi with rfl | rfl | rfl | rfl
  · exact exec_analyze_of_inLenBad h
  · exact exec_pack_of_inLenBad h
  · rw [exec, execDecode, if_pos h]; rfl
  · rw [exec, execDeserialize, if_pos h]; rfl

/-- DECODE without a tree clears its output (44_decode.md R201). -/
theorem exec_decode_of_noTree {s : State} (hfits : s.inLen.toNat ≤ s.inCap.toNat) (hn : s.noTree = true) :
    exec .decode s = .next (s.raise .output .corruptTree 0) := by
  rw [exec, execDecode, if_neg (by simp [inLenBad_eq_false hfits]), if_pos hn]

/-- Settles O44: each test's failing completion, taken when the tests before it pass. -/
theorem decodeTestsInOrder : Obligations.DecodeTestsInOrder := by
  refine fun s => ⟨fun hbad => ?_, fun hfits hroot => ?_, fun hfits hroot hbits => ?_⟩
  · exact ⟨_, exec_of_inLenBad (by decide) (inLenBad_eq_true hbad), raise_failed s .output _ _ (by decide)⟩
  · exact ⟨_, exec_decode_of_noTree hfits (beq_iff_eq.mpr hroot), raise_failed s .output _ _ (by decide)⟩
  · exact ⟨_, exec_decode_of_too_many_bits hfits (beq_eq_false_iff_ne.mpr hroot) hbits,
      raise_failed s .output _ _ (by decide)⟩

/-- A command has one outcome, so one code. -/
theorem err_unique {i : Instr} {s t u : State} (h : exec i s = .next t) (h' : exec i s = .next u) : t.err = u.err :=
  congrArg State.err (Host.Outcome.next.inj (h.symm.trans h'))

/-- DECODE whose IN_LEN fits ends with another code: its later tests and its loops have their own (44_decode.md R197). -/
theorem decode_code_of_fits {s t : State} (hfits : s.inLen.toNat ≤ s.inCap.toNat) (h : exec .decode s = .next t) :
    ∃ e, e ≠ ErrCode.badOperand ∧ t.err = e.code := by
  cases hn : s.noTree with
  | true => exact ⟨.corruptTree, by decide, err_unique h (exec_decode_of_noTree hfits hn)⟩
  | false =>
    rcases Nat.lt_or_ge (8 * s.inLen.toNat) s.nbits.toNat with hlt | hbits
    · exact ⟨.truncatedStream, by decide, err_unique h (exec_decode_of_too_many_bits hfits hn hlt)⟩
    cases hd : decodeSymbols s with
    | error e =>
      have ⟨hok, hne⟩ : e.1 ≠ .ok ∧ e.1 ≠ .badOperand := by rcases decodeSymbols_error hd with he | he <;> simp [he]
      obtain ⟨_, h', ⟨-, hcode, -⟩, -⟩ := decode_fails hfits hn hbits hd hok
      exact ⟨e.1, hne, (err_unique h h').trans hcode⟩
    | ok out => exact ⟨.ok, by decide, err_unique h (decode_delivers hfits hn hbits hd).1⟩

/-- A command whose IN_LEN fits IN_BUF ends with another code (60_exceptions.md R267). -/
theorem code_of_fits {i : Instr} {s t : State} (hi : i ∈ [Instr.analyze, .pack, .decode, .deserialize])
    (hfits : s.inLen.toNat ≤ s.inCap.toNat) (h : exec i s = .next t) : ∃ e, e ≠ ErrCode.badOperand ∧ t.err = e.code := by
  have hl := inLenBad_eq_false hfits
  simp only [List.mem_cons, List.not_mem_nil, or_false] at hi
  rcases hi with rfl | rfl | rfl | rfl
  · exact ⟨.ok, by decide, err_unique h (exec_analyze_of_fits hl)⟩
  · cases hp : packStream s 0 0 s.input with
    | error e =>
      have hne : e.1 ≠ .badOperand := by rcases packStream_error hp with he | he <;> simp [he]
      exact ⟨e.1, hne, err_unique h (exec_pack_of_error hl hp)⟩
    | ok stream => exact ⟨.ok, by decide, err_unique h (exec_pack_of_stream hl hp)⟩
  · exact decode_code_of_fits hfits h
  · cases hd : deserialBytes s.input with
    | none => exact ⟨.corruptTree, by decide, err_unique h (exec_deserialize_of_none hfits hd)⟩
    | some ot =>
      obtain ⟨-, herr, -⟩ := deserialized_succeeded s ot
      exact ⟨.ok, by decide, (err_unique h (exec_deserialize_of_deserialBytes hl hd)).trans herr⟩

/-- Settles O28: the test of IN_LEN comes first (`exec_of_inLenBad`), and behind it no command has that code
(`code_of_fits`). -/
theorem badOperandExactlyBeyondInCap : Obligations.BadOperandExactlyBeyondInCap := by
  refine fun s i hi => ⟨fun hbad => ?_, fun hfits t h hcode => ?_⟩
  · exact ⟨_, exec_of_inLenBad hi (inLenBad_eq_true hbad), raise_failed s (destOf i) _ _ (by decide)⟩
  · obtain ⟨e, hne, he⟩ := code_of_fits hi hfits h
    exact hne (code_injective (he.symm.trans hcode))

/-! ## The endings of each command -/

/-- A command ends with one of the codes listed for it (60_exceptions.md R265). -/
theorem exec_ending {i : Instr} {s t : State} (h : exec i s = .next t) : ∃ e ∈ endings i, t.err = e.code := by
  cases exec_completes h with
  | failed e info he => exact ⟨e, he, rfl⟩
  | _ => exact ⟨.ok, .head _, rfl⟩

/-- Some block with legal capacities ends command i with code e (60_exceptions.md R265). -/
def Occurs (i : Instr) (e : ErrCode) : Prop := ∃ s t : State, s.Caps ∧ exec i s = .next t ∧ t.err = e.code

/-- A block with the least OUT_CAP that holds the table, the tree and the code of the one symbol 'a'. -/
def oneSymbol : State :=
  { State.reset with
    outCap := 3834, nsym := 1, ftCnt := noCounts.set 0x61 1, ftOrd := [0x61], nodes := [leafNode 0x61 1], root := 0,
    nnode := 1, ct := noCodes.set 0x61 [false] }

theorem reset_caps : State.reset.Caps := by unfold State.Caps; decide

theorem oneSymbol_caps : oneSymbol.Caps := by unfold State.Caps; decide

/-- LOAD does not write the code table (30_encoding.md R125). -/
theorem loaded_code (s : State) (bytes : List Byte) (b : Byte) : (s.loaded bytes).code b = s.code b := rfl

/-- LOAD does not write the capacities (10_state.md R36). -/
theorem loaded_caps {s : State} (h : s.Caps) (bytes : List Byte) : (s.loaded bytes).Caps := h

theorem occurs_badOperand {i : Instr} (hi : i ∈ [Instr.analyze, .pack, .decode, .deserialize]) : Occurs i .badOperand :=
  ⟨{ State.reset with inLen := 65537 }, _, reset_caps, exec_of_inLenBad hi (by decide), rfl⟩

theorem analyze_endings_occur : ∀ e ∈ endings .analyze, Occurs .analyze e :=
  List.forall_mem_cons.mpr ⟨⟨State.reset, _, reset_caps, exec_analyze_of_fits (by decide), rfl⟩,
    List.forall_mem_singleton.mpr (occurs_badOperand (by decide))⟩

theorem build_endings_occur : ∀ e ∈ endings .build, Occurs .build e :=
  List.forall_mem_cons.mpr ⟨⟨oneSymbol, _, oneSymbol_caps, exec_build_of_keys (by decide), rfl⟩,
    List.forall_mem_singleton.mpr ⟨State.reset, _, reset_caps, exec_build_of_empty rfl, rfl⟩⟩

theorem oneSymbol_tree : oneSymbol.tree = some (.leaf 0x61 1) := by decide

theorem generate_endings_occur : ∀ e ∈ endings .generate, Occurs .generate e :=
  List.forall_mem_cons.mpr
    ⟨⟨oneSymbol, _, oneSymbol_caps, exec_generate_of_tree (by decide) oneSymbol_tree, rfl⟩,
      List.forall_mem_singleton.mpr ⟨State.reset, _, reset_caps, exec_generate_of_noTree (by decide), rfl⟩⟩

/-- One symbol with one code bit, repeated once more than OUT_BUF has bits, overflows it (43_pack.md R183). -/
theorem pack_overflows_of_replicate {s : State} {b : Byte} {x : Bool} (hfits : s.inLen.toNat ≤ s.inCap.toNat)
    (hinput : s.input = List.replicate (8 * s.outCap.toNat + 1) b) (hcode : s.code b = [x]) :
    ∃ t, exec .pack s = .next t ∧ t.err = ErrCode.outOverflow.code := by
  have htake : s.input.take (8 * s.outCap.toNat) = List.replicate (8 * s.outCap.toNat) b := by simp [hinput]
  have hfull : ((s.input.take (8 * s.outCap.toNat)).flatMap s.code).length = 8 * s.outCap.toNat := by
    simp [htake, List.flatMap_replicate, hcode]
  have hcodes : ∀ c ∈ s.input.take (8 * s.outCap.toNat), s.code c ≠ [] := by
    intro c hc
    rw [htake] at hc
    simp [List.eq_of_mem_replicate hc, hcode]
  obtain ⟨t, h, ⟨-, herr, -⟩, -⟩ := (packReportsTheFirstFailure s _ b hfits (by simp [hinput]) hcodes hfull.le).2
    (by simp [hcode]) (by rw [hfull, hcode]; exact Nat.lt_succ_self _)
  exact ⟨t, h, herr⟩

theorem occurs_pack_outOverflow : Occurs .pack .outOverflow := by
  set bytes : List Byte := List.replicate (8 * oneSymbol.outCap.toNat + 1) 0x61
  have hcaps : oneSymbol.outCap.toNat = 3834 ∧ oneSymbol.inCap.toNat = 65536 := by decide
  have hlen : bytes.length ≤ oneSymbol.inCap.toNat := by
    rw [List.length_replicate, hcaps.1, hcaps.2]; decide
  have hinput : (oneSymbol.loaded bytes).input = bytes := loaded_input (lt_of_le_of_lt hlen oneSymbol.inCap.isLt)
  have hfits : (oneSymbol.loaded bytes).inLen.toNat ≤ oneSymbol.inCap.toNat := by rwa [← length_input, hinput]
  have hcode : (oneSymbol.loaded bytes).code 0x61 = [false] := (loaded_code _ _ _).trans (by decide)
  obtain ⟨t, h, herr⟩ := pack_overflows_of_replicate hfits hinput hcode
  exact ⟨_, t, loaded_caps oneSymbol_caps _, h, herr⟩

theorem pack_endings_occur : ∀ e ∈ endings .pack, Occurs .pack e := by
  have hunknown : Occurs .pack .unknownSymbol :=
    ⟨State.reset.loaded [0x61], _, reset_caps, exec_pack_of_error (by decide)
      (packStream_of_no_code (by decide) 0 0 []), rfl⟩
  simp only [endings, List.forall_mem_cons, List.not_mem_nil, false_implies, implies_true, and_true]
  exact ⟨⟨State.reset, _, reset_caps, exec_pack_of_stream (by decide) rfl, rfl⟩, hunknown,
    occurs_badOperand (by decide), occurs_pack_outOverflow⟩

theorem decode_endings_occur : ∀ e ∈ endings .decode, Occurs .decode e := by
  have hok : Occurs .decode .ok := by
    obtain ⟨t, h, ⟨-, herr, -⟩, -⟩ := (decodeSingleLeaf oneSymbol 0x61 1 (by decide) oneSymbol_tree (by decide)
      (by decide)).1 (by decide)
    exact ⟨oneSymbol, t, oneSymbol_caps, h, herr⟩
  have hoverflow : Occurs .decode .outOverflow := by
    let s : State := { oneSymbol with inLen := 480, nbits := 3835 }
    obtain ⟨t, h, ⟨-, herr, -⟩, -⟩ :=
      (decodeSingleLeaf s 0x61 1 (by decide) oneSymbol_tree (by decide) (by decide)).2 (by decide)
    exact ⟨s, t, oneSymbol_caps, h, herr⟩
  simp only [endings, List.forall_mem_cons, List.not_mem_nil, false_implies, implies_true, and_true]
  exact ⟨hok, ⟨State.reset, _, reset_caps, exec_decode_of_noTree (by decide) (by decide), rfl⟩,
    ⟨{ oneSymbol with nbits := 1 }, _, oneSymbol_caps,
      exec_decode_of_too_many_bits (by decide) (by decide) (by decide), rfl⟩,
    occurs_badOperand (by decide), hoverflow⟩

theorem deserialize_endings_occur : ∀ e ∈ endings .deserialize, Occurs .deserialize e := by
  simp only [endings, List.forall_mem_cons, List.not_mem_nil, false_implies, implies_true, and_true]
  exact ⟨⟨State.reset.loaded [0x00], _, reset_caps,
      exec_deserialize_of_serialBytes (ot := none) (by decide) (by decide) List.nodup_nil, rfl⟩,
    ⟨State.reset, _, reset_caps, exec_deserialize_of_none (by decide) rfl, rfl⟩, occurs_badOperand (by decide)⟩

/-- Settles O56: a completion reports a listed code (`exec_ending`), and each listed code has its block. -/
theorem endingsOfEachCommand : Obligations.EndingsOfEachCommand := by
  refine ⟨fun i s t => exec_ending, fun i => ?_⟩
  cases i with
  | analyze => exact analyze_endings_occur
  | build => exact build_endings_occur
  | generate => exact generate_endings_occur
  | pack => exact pack_endings_occur
  | decode => exact decode_endings_occur
  | serialize =>
    exact List.forall_mem_singleton.mpr
      ⟨State.reset, _, reset_caps, exec_serialize (ot := none) ⟨rfl, fun h => by cases h⟩, rfl⟩
  | deserialize => exact deserialize_endings_occur
  | illegal word => exact List.forall_mem_singleton.mpr ⟨State.reset, _, reset_caps, exec_illegal word _, rfl⟩

end Sys2Proof.Machine
end
